-- ==== Sys2Proof/Word.lean ====
section
/-! DEFINITION. The words DSPSEQ moves and the opaque tokens it only passes on
(spec/00_scope.md R6, R7; spec/10_state.md R22). -/

namespace Sys2Proof

/-- One byte of the firmware image (20_memory.md R60). -/
abbrev Byte := BitVec 8

/-- A DSP address, DSP write data, or a command word (00_scope.md R7; 30_encoding.md R102). -/
abbrev W16 := BitVec 16

/-- A transport value, a mode index, or an operation's payload (00_scope.md R7). -/
abbrev W32 := BitVec 32

/-- A host request word `Q` (30_encoding.md R91). -/
abbrev Q64 := BitVec 64

/-- A transport register address. The spec leaves the type open but for decidable equality
(00_scope.md R6, decision D4): the number is a label and nothing computes with it.
DESIGN CHOICE, log 1. -/
structure RegAddr where
  key : Nat
  deriving DecidableEq, Repr, Inhabited

/-- The payload of a transport failure, propagated unchanged (00_scope.md R6, decision D28).
DESIGN CHOICE, log 1. -/
structure IoErr where
  tag : Nat
  deriving DecidableEq, Repr, Inhabited

/-- An opaque settle duration (00_scope.md R6, decision D16). DESIGN CHOICE, log 1. -/
structure Duration where
  tag : Nat
  deriving DecidableEq, Repr, Inhabited

/-- An opaque firmware name (00_scope.md R6, decision D23). DESIGN CHOICE, log 1. -/
structure FwName where
  tag : Nat
  deriving DecidableEq, Repr, Inhabited

/-- The device's answer to one transport call (00_scope.md R10, 10_state.md R46). A read takes the
32-bit value of `ok`; a write or an update only learns that it succeeded and ignores the value. -/
inductive Answer where
  | ok (v : W32)
  | err (e : IoErr)
  deriving DecidableEq, Repr, Inhabited

/-- The failure an answer carries, if it carries one. -/
def Answer.err? : Answer → Option IoErr
  | .ok _ => none
  | .err e => some e

end Sys2Proof
end

