-- ==== Sys2Proof/Config.lean ====
section
/-! DEFINITION. What an implementation fixes and the spec leaves open: the parameter record `Cfg`
(spec/00_scope.md R6), the numbers the source does give, and the device oracle
(spec/10_state.md R46). -/

namespace Sys2Proof

/-- The parameter record (00_scope.md R6). No rule depends on a parameter's numeric value, and no
two register roles are assumed to differ (decision D4). -/
structure Cfg where
  /-- `REG_ADDR`, the address register. -/
  regAddr : RegAddr
  /-- `REG_DATA`, the data register. -/
  regData : RegAddr
  /-- `REG_CMD`, the command register. -/
  regCmd : RegAddr
  /-- `REG_STATUS`, the register that holds the busy bit. -/
  regStatus : RegAddr
  /-- `REG_DOUT`, the data-out register. -/
  regDout : RegAddr
  /-- Which bit of the status register is the busy bit: `BUSY_MASK` has exactly one bit set. -/
  busyBit : Fin 32
  /-- `CW_MW`, the command word of a memory write (30_encoding.md R103). -/
  cwMw : W16
  /-- `CW_MR`, the command word of a memory read (30_encoding.md R104). -/
  cwMr : W16
  /-- `CW_RR`, the command word of a register read (30_encoding.md R105). -/
  cwRr : W16
  /-- `PD_ADDR`, the DSP address of the power-down parameter. -/
  pdAddr : W16
  /-- `PD_VALUE`, the value "disable". -/
  pdValue : W16
  /-- `RST_REG`, `RST_MASK`, `RST_ASSERT`, `RST_DEASSERT`: the reset control bit (10_state.md R45). -/
  rstReg : RegAddr
  rstMask : W32
  rstAssert : W32
  rstDeassert : W32
  /-- `PWR_REG`, `PWR_MASK`, `PWR_ON`, `PWR_OFF`: the power-domain bit (10_state.md R45). -/
  pwrReg : RegAddr
  pwrMask : W32
  pwrOn : W32
  pwrOff : W32
  /-- `T_RESET_SETTLE`, the delay inside the reset pulse. -/
  tResetSettle : Duration
  /-- `T_PROBE_SETTLE`, the delay of the probe sequence. -/
  tProbeSettle : Duration
  /-- `FW_NAME`, the firmware's well-known name. -/
  fwName : FwName
  /-- `MODE0_DESC_OFF`: where mode 0's descriptor stands, or `none` (41_firmware_replay.md R166). -/
  mode0DescOff : Option Nat
  deriving DecidableEq, Repr, Inhabited

namespace Config

/-- The parameters of the block at hand. A free value: it has no body, so no proof can see a value
of it (00_scope.md R6). DESIGN CHOICE, log 1, log 13. -/
opaque cfg : Cfg

/-- The device's `k`-th answer that nobody decided beforehand: a free draw under no law
(10_state.md R46, decision D26). DESIGN CHOICE, log 2. -/
opaque freeAnswer : Nat → Answer

/-- `IDX_HI`, the index that selects the high half of the staged value (00_scope.md R6). -/
def idxHi : W16 := 0x0026#16

/-- `IDX_LO`, the index that selects the low half (00_scope.md R6). -/
def idxLo : W16 := 0x0025#16

/-- `POLL_MAX`, status reads per `wait_ready` (00_scope.md R6). -/
def pollMax : Nat := 11

/-- `N_DSP_FUNCTIONS`, the size of the framework's "DSP Function" enumeration. No rule of the block
uses it: the block neither knows nor checks it (42_mode_state_events.md R194). -/
def nDspFunctions : Nat := 5

/-- `COUNT_OFF`, the offset of the count byte (30_encoding.md R95). -/
def countOff : Nat := 0

/-- `HDR_BASE`, the offset of mode 1's descriptor (30_encoding.md R97). -/
def hdrBase : Nat := 2

/-- `DESC_SIZE`, bytes per descriptor (30_encoding.md R98). -/
def descSize : Nat := 3

/-- `ENTRY_SIZE`, bytes per write-entry (30_encoding.md R99). -/
def entrySize : Nat := 5

end Config

end Sys2Proof
end

