-- ==== Sys2Proof/Machine/Flags.lean ====
section
/-! DEFINITION. The one condition the block computes. It stores no flag (spec/10_state.md R36): "busy" is
taken afresh from each status value (spec/40_command_poll.md R132). -/

namespace Sys2Proof.Machine

/-- `BUSY_MASK`, the word with the busy bit alone set (00_scope.md R6). -/
def busyMask (c : Cfg) : W32 := 1#32 <<< c.busyBit.val

/-- `busy(v) = ((v AND BUSY_MASK) ≠ 0)`: every other bit of `v` is ignored (40_command_poll.md R132). The
polarity is the spec's decision D6 (log 15). -/
def busy (c : Cfg) (v : W32) : Bool := v &&& busyMask c != 0#32

end Sys2Proof.Machine
end

