-- ==== Sys2Proof/Syntax.lean ====
section
/-! DEFINITION. The operation set: one constructor per row of spec/opcode_table.json
(spec/30_encoding.md R90). -/

namespace Sys2Proof

/-- The rows of the opcode table. The first nine are host requests, the next three are the items of
a firmware image, then the three command words the block writes, then the loader's action. -/
inductive Instr where
  /-- `WAIT_READY` (40_command_poll.md R131). -/
  | waitReady
  /-- `DSP_WRITE address, data` (40_command_poll.md R135). -/
  | dspWrite (address data : W16)
  /-- `DSP_READ register` (40_command_poll.md R140). -/
  | dspRead (register : W16)
  /-- `APPLY_MODE mode_index` (41_firmware_replay.md R165). -/
  | applyMode (modeIndex : W32)
  /-- `MODE_GET` (42_mode_state_events.md R191). -/
  | modeGet
  /-- `MODE_SET value` (42_mode_state_events.md R192). -/
  | modeSet (value : W32)
  /-- `EV_POWER_UP` (42_mode_state_events.md R201). -/
  | evPowerUp
  /-- `EV_POWER_DOWN` (42_mode_state_events.md R200). -/
  | evPowerDown
  /-- `EV_PROBE` (42_mode_state_events.md R205). -/
  | evProbe
  /-- `WR address, data, pad`, the write-entry (41_firmware_replay.md R167). -/
  | wr (address data : W16) (pad : Byte)
  /-- `DESC position, entry_count`, a mode descriptor (30_encoding.md R98). -/
  | desc (position : W16) (entryCount : Byte)
  /-- `HDR mode_count`, the image's count byte (30_encoding.md R95). -/
  | hdr (modeCount : Byte)
  /-- The command word `CW_MW` (30_encoding.md R103). -/
  | cwMw
  /-- The command word `CW_MR` (30_encoding.md R104). -/
  | cwMr
  /-- The command word `CW_RR` (30_encoding.md R105). -/
  | cwRr
  /-- `FW_DELIVER bytes`, the loader's action (41_firmware_replay.md R160). -/
  | fwDeliver (bytes : List Byte)
  deriving DecidableEq, Repr

/-- The operations the host can request, the nine rows of format `HOSTREQ` (30_encoding.md R90, R93). -/
def Instr.isHostRequest : Instr → Bool
  | .waitReady => true
  | .dspWrite _ _ => true
  | .dspRead _ => true
  | .applyMode _ => true
  | .modeGet => true
  | .modeSet _ => true
  | .evPowerUp => true
  | .evPowerDown => true
  | .evProbe => true
  | .wr _ _ _ => false
  | .desc _ _ => false
  | .hdr _ => false
  | .cwMw => false
  | .cwMr => false
  | .cwRr => false
  | .fwDeliver _ => false

end Sys2Proof
end

