-- ==== Sys2Proof/Decode.lean ====
section
/-! DEFINITION. The encodings of spec/30_encoding.md and their decoders: host request words (R91, R93,
R109), the image formats HDR, DESC and ENTRY (R95, R98, R99, R100, R101) and command words (R102).
Decoding is total and rejects by name; the encoder stands after it. -/

namespace Sys2Proof

/-! ## Words and reasons -/

/-- Encoded words, by the format of the table's row. An image item is one number whose first byte is
the most significant (30_encoding.md R98, R99: "first byte leftmost"; log 10). -/
inductive Words where
  | request (q : Q64)
  | entry (e : BitVec 40)
  | desc (d : BitVec 24)
  | hdr (h : Byte)
  | command (w : W16)
  deriving DecidableEq, Repr

/-- Why a word selects no row. -/
inductive DecodeReject where
  /-- `op` is `0x0` or `0xA` to `0xF` (30_encoding.md R109). -/
  | unassignedOp
  /-- `Q[59:48]` is not 0 (30_encoding.md R91, R109). -/
  | reservedNonzero
  /-- An operand field that the row requires to be 0 is not (30_encoding.md R93, R109). -/
  | operandNonzero
  /-- A 16-bit word that is none of the three the block writes (30_encoding.md R110). -/
  | unknownCommandWord
  deriving DecidableEq, Repr

/-- The decoder's answer. -/
inductive Decoded where
  | instr (i : Instr)
  | reject (why : DecodeReject)
  deriving DecidableEq, Repr

/-- The instruction, where there is one. -/
def Decoded.toOption : Decoded → Option Instr
  | .instr i => some i
  | .reject _ => none

/-! ## Host requests -/

/-- `op = Q[63:60]` (30_encoding.md R91). -/
def reqOp (q : Q64) : BitVec 4 := q.extractLsb' 60 4

/-- `rsv = Q[59:48]` (30_encoding.md R91). -/
def reqRsv (q : Q64) : BitVec 12 := q.extractLsb' 48 12

/-- `arg1 = Q[47:32]` (30_encoding.md R91). -/
def reqArg1 (q : Q64) : W16 := q.extractLsb' 32 16

/-- `arg0 = Q[31:0]` (30_encoding.md R91). -/
def reqArg0 (q : Q64) : W32 := q.extractLsb' 0 32

/-- `arg0[31:16]` (30_encoding.md R93). -/
def reqArg0Hi (q : Q64) : W16 := q.extractLsb' 16 16

/-- `arg0[15:0]` (30_encoding.md R93, R106). -/
def reqArg0Lo (q : Q64) : W16 := q.extractLsb' 0 16

/-- The instruction, provided the row's unused operand fields are 0. -/
def provided (unusedAreZero : Bool) (i : Instr) : Decoded :=
  if unusedAreZero then .instr i else .reject .operandNonzero

/-- The row that `op` selects, with its operands (30_encoding.md R93, R106). -/
def decodeByOp (q : Q64) : Decoded :=
  match (reqOp q).toNat with
  | 1 => provided (reqArg1 q == 0#16 && reqArg0 q == 0#32) .waitReady
  | 2 => provided (reqArg0Hi q == 0#16) (.dspWrite (reqArg0Lo q) (reqArg1 q))
  | 3 => provided (reqArg1 q == 0#16 && reqArg0Hi q == 0#16) (.dspRead (reqArg0Lo q))
  | 4 => provided (reqArg1 q == 0#16) (.applyMode (reqArg0 q))
  | 5 => provided (reqArg1 q == 0#16 && reqArg0 q == 0#32) .modeGet
  | 6 => provided (reqArg1 q == 0#16) (.modeSet (reqArg0 q))
  | 7 => provided (reqArg1 q == 0#16 && reqArg0 q == 0#32) .evPowerUp
  | 8 => provided (reqArg1 q == 0#16 && reqArg0 q == 0#32) .evPowerDown
  | 9 => provided (reqArg1 q == 0#16 && reqArg0 q == 0#32) .evProbe
  | _ => .reject .unassignedOp

/-- A host request word's operation (30_encoding.md R93), or why it has none (R109). -/
def decodeRequest (q : Q64) : Decoded :=
  if reqRsv q = 0#12 then decodeByOp q else .reject .reservedNonzero

/-! ## Image items -/

/-- Two image bytes as a big-endian number: the byte at the lower offset is the more significant
(20_memory.md R64, R65; log 14). -/
def bigEndian (lower higher : Byte) : W16 := lower ++ higher

/-- `decode_entry` on an entry's five bytes (30_encoding.md R100). -/
def decodeEntryBytes (b0 b1 b2 b3 b4 : Byte) : Instr :=
  .wr (bigEndian b0 b1) (bigEndian b2 b3) b4

/-- `decode_desc` on a descriptor's three bytes (30_encoding.md R101). -/
def decodeDescBytes (b0 b1 b2 : Byte) : Instr := .desc (bigEndian b0 b1) b2

/-- Every 40-bit value is a `WR` (30_encoding.md R99). -/
def decodeEntry (e : BitVec 40) : Instr :=
  decodeEntryBytes (e.extractLsb' 32 8) (e.extractLsb' 24 8) (e.extractLsb' 16 8)
    (e.extractLsb' 8 8) (e.extractLsb' 0 8)

/-- Every 24-bit value is a descriptor (30_encoding.md R98). -/
def decodeDesc (d : BitVec 24) : Instr :=
  decodeDescBytes (d.extractLsb' 16 8) (d.extractLsb' 8 8) (d.extractLsb' 0 8)

/-- Every byte is a mode count (30_encoding.md R95). -/
def decodeHdr (h : Byte) : Instr := .hdr h

/-! ## Command words -/

/-- Which of the three command words a 16-bit word is. The words are opaque parameters that only
their values identify, and the first of equal ones is answered (30_encoding.md R102, R110; log 11). -/
def decodeCommand (c : Cfg) (w : W16) : Decoded :=
  if w = c.cwMw then .instr .cwMw
  else if w = c.cwMr then .instr .cwMr
  else if w = c.cwRr then .instr .cwRr
  else .reject .unknownCommandWord

/-! ## All formats -/

/-- The instruction that encoded words stand for. -/
def decode (c : Cfg) : Words → Decoded
  | .request q => decodeRequest q
  | .entry e => .instr (decodeEntry e)
  | .desc d => .instr (decodeDesc d)
  | .hdr h => .instr (decodeHdr h)
  | .command w => decodeCommand c w

/-- The words of a table row of `nbits` bits whose bits are `w`; the table's row widths tell the
formats apart (spec/opcode_table.json). -/
def Words.ofTable (nbits w : Nat) : Option Words :=
  if 2 ^ nbits ≤ w then none
  else match nbits with
    | 64 => some (.request (BitVec.ofNat 64 w))
    | 40 => some (.entry (BitVec.ofNat 40 w))
    | 24 => some (.desc (BitVec.ofNat 24 w))
    | 16 => some (.command (BitVec.ofNat 16 w))
    | 8 => some (.hdr (BitVec.ofNat 8 w))
    | _ => none

/-- The instruction the decoder reads from a table row's word of `nbits` bits (log 10). -/
def decodeTableWord (nbits w : Nat) : Option Instr :=
  match Words.ofTable nbits w with
  | some ws => (decode Config.cfg ws).toOption
  | none => none

/-! ## The encoder -/

/-- A host request word from its fields (30_encoding.md R91). -/
def requestWord (op : BitVec 4) (arg1 : W16) (arg0 : W32) : Q64 := op ++ 0#12 ++ arg1 ++ arg0

/-- An entry from its fields: address, data, pad, first byte leftmost (30_encoding.md R99). -/
def entryWord (address data : W16) (pad : Byte) : BitVec 40 := address ++ data ++ pad

/-- A descriptor from its fields: position, count, first byte leftmost (30_encoding.md R98). -/
def descWord (position : W16) (count : Byte) : BitVec 24 := position ++ count

/-- The words of an instruction, from the encoding tables (30_encoding.md R93, R95, R98, R99, R102).
`FW_DELIVER` is an action and has none (41_firmware_replay.md R160). -/
def encode (c : Cfg) : Instr → Option Words
  | .waitReady => some (.request (requestWord 0x1#4 0#16 0#32))
  | .dspWrite a d => some (.request (requestWord 0x2#4 d (0#16 ++ a)))
  | .dspRead r => some (.request (requestWord 0x3#4 0#16 (0#16 ++ r)))
  | .applyMode m => some (.request (requestWord 0x4#4 0#16 m))
  | .modeGet => some (.request (requestWord 0x5#4 0#16 0#32))
  | .modeSet v => some (.request (requestWord 0x6#4 0#16 v))
  | .evPowerUp => some (.request (requestWord 0x7#4 0#16 0#32))
  | .evPowerDown => some (.request (requestWord 0x8#4 0#16 0#32))
  | .evProbe => some (.request (requestWord 0x9#4 0#16 0#32))
  | .wr a d p => some (.entry (entryWord a d p))
  | .desc p n => some (.desc (descWord p n))
  | .hdr n => some (.hdr n)
  | .cwMw => some (.command c.cwMw)
  | .cwMr => some (.command c.cwMr)
  | .cwRr => some (.command c.cwRr)
  | .fwDeliver _ => none

/-- The bytes of an image item in the order of their offsets (30_encoding.md R95, R98, R99). -/
def Words.imageBytes : Words → List Byte
  | .request _ => []
  | .entry e => [e.extractLsb' 32 8, e.extractLsb' 24 8, e.extractLsb' 16 8, e.extractLsb' 8 8,
      e.extractLsb' 0 8]
  | .desc d => [d.extractLsb' 16 8, d.extractLsb' 8 8, d.extractLsb' 0 8]
  | .hdr h => [h]
  | .command _ => []

end Sys2Proof
end

