-- ==== Sys2Proof/Machine/State.lean ====
section
/-! DEFINITION. The machine's state as plain data: `S = (MODE_SEL, FW, SEQ, WR_REGS, TRACE)`
(spec/10_state.md R20), the response port (spec/30_encoding.md R92), and the queues and answers that
one deterministic step needs of the host, the loader and the device. -/

namespace Sys2Proof.Machine

/-! ## Results, events, responses -/

/-- The five error kinds (60_exceptions.md R220). -/
inductive ErrKind where
  | io (e : IoErr)
  | busy
  | invalidMode
  | outOfBounds
  | noFirmware
  deriving DecidableEq, Repr

/-- What a procedure returns: `Ok(payload)` or `Err(kind)` (00_scope.md R11). -/
inductive Result where
  | ok (payload : Option W32)
  | err (kind : ErrKind)
  deriving DecidableEq, Repr

/-- One entry of the trace, with the device's answer (00_scope.md R10, R12; 30_encoding.md R113; log 3). -/
inductive Event where
  /-- `TR(a)`: a transport read of register `a`. -/
  | tr (a : RegAddr) (answer : Answer)
  /-- `TW(a, v)`: a transport write. -/
  | tw (a : RegAddr) (v : W32) (failure : Option IoErr)
  /-- `TU(a, m, v)`: a transport update of the bits in mask `m`. -/
  | tu (a : RegAddr) (m v : W32) (failure : Option IoErr)
  /-- `DL(T)`: a settle delay. -/
  | dl (t : Duration)
  /-- `RP(x)`: an error is reported outward. -/
  | rp (x : ErrKind)
  /-- `FQ(n)`: firmware named `n` is requested. -/
  | fq (n : FwName)
  deriving DecidableEq, Repr

/-- A response `(st, val, e)` (30_encoding.md R92). -/
structure Response where
  st : BitVec 3
  val : W32
  e : Option IoErr
  deriving DecidableEq, Repr

/-! ## The sequencer -/

/-- Lines `WT.0` to `WT.3` of `wait_ready` (40_command_poll.md R131). -/
inductive WtLine where
  | l0 | l1 | l2 | l3
  deriving DecidableEq, Repr

/-- Lines `DW.0` to `DW.5` of `write` (40_command_poll.md R135). -/
inductive DwLine where
  | l0 | l1 | l2 | l3 | l4 | l5
  deriving DecidableEq, Repr

/-- Lines `DR.0` to `DR.12` of `read` (40_command_poll.md R140). -/
inductive DrLine where
  | l0 | l1 | l2 | l3 | l4 | l5 | l6 | l7 | l8 | l9 | l10 | l11 | l12
  deriving DecidableEq, Repr

/-- Lines `AM.0` to `AM.11` of `apply_mode` (41_firmware_replay.md R165). -/
inductive AmLine where
  | l0 | l1 | l2 | l3 | l4 | l5 | l6 | l7 | l8 | l9 | l10 | l11
  deriving DecidableEq, Repr

/-- Lines `MS.0` to `MS.2` of `MODE_SET` (42_mode_state_events.md R192). -/
inductive MsLine where
  | l0 | l1 | l2
  deriving DecidableEq, Repr

/-- Lines `RS.0` to `RS.3` of `reset_pulse` (42_mode_state_events.md R195). -/
inductive RsLine where
  | l0 | l1 | l2 | l3
  deriving DecidableEq, Repr

/-- Lines `PW.0` to `PW.2` of `pd_write` (42_mode_state_events.md R196). -/
inductive PwLine where
  | l0 | l1 | l2
  deriving DecidableEq, Repr

/-- Lines `PD.0`, `PD.1` of `EV_POWER_DOWN` (42_mode_state_events.md R200). -/
inductive PdLine where
  | l0 | l1
  deriving DecidableEq, Repr

/-- Lines `PU.0` to `PU.3` of `EV_POWER_UP` (42_mode_state_events.md R201). -/
inductive PuLine where
  | l0 | l1 | l2 | l3
  deriving DecidableEq, Repr

/-- Lines `PB.0` to `PB.7` of `EV_PROBE` (42_mode_state_events.md R205). -/
inductive PbLine where
  | l0 | l1 | l2 | l3 | l4 | l5 | l6 | l7
  deriving DecidableEq, Repr

/-- A micro-program label, the value of `UPC` (10_state.md R33). -/
inductive Label where
  | wt (l : WtLine)
  | dw (l : DwLine)
  | dr (l : DrLine)
  | am (l : AmLine)
  /-- `MG.0` (42_mode_state_events.md R191). -/
  | mg
  | ms (l : MsLine)
  | rs (l : RsLine)
  | pw (l : PwLine)
  | pd (l : PdLine)
  | pu (l : PuLine)
  | pb (l : PbLine)
  deriving DecidableEq, Repr

/-- `SEQ`: idle, or running operation `op` at `upc`; the return stack holds the labels of the calling
lines, innermost first (10_state.md R33, R40). -/
inductive Seq where
  | idle
  | running (op : Instr) (upc : Label) (stack : List Label)
  deriving DecidableEq, Repr

/-! ## Registers and memory -/

/-- The names of the working registers (10_state.md R22). -/
inductive RegName where
  | ra | rd | rv | pcnt | mi | mc | po | ec | ei | ep | st
  deriving DecidableEq, Repr

/-- The eleven working registers (10_state.md R22). "No value" is the spec's own state of each, after
reset and between operations, and the spec names the fault of reading it (R31; log 4). -/
structure WorkRegs where
  /-- `RA`, the DSP address operand. -/
  ra : Option W16
  /-- `RD`, the DSP data operand. -/
  rd : Option W16
  /-- `RV`, the last value a read returned. -/
  rv : Option W32
  /-- `PCNT`, status reads done in the current `wait_ready`. -/
  pcnt : Option (BitVec 4)
  /-- `MI`, the mode index. -/
  mi : Option W32
  /-- `MC`, the fetched `mode_count`. -/
  mc : Option (BitVec 8)
  /-- `PO`, the `position` of the selected mode. -/
  po : Option W16
  /-- `EC`, the `entry_count` of the selected mode. -/
  ec : Option (BitVec 8)
  /-- `EI`, the index of the next entry. -/
  ei : Option (BitVec 8)
  /-- `EP`, the byte offset of the next entry. -/
  ep : Option (BitVec 17)
  /-- `ST`, the result of the last finished procedure. -/
  st : Option Result
  deriving DecidableEq, Repr

/-- Every working register without a value (10_state.md R31, R50). -/
def WorkRegs.empty : WorkRegs :=
  ⟨none, none, none, none, none, none, none, none, none, none, none⟩

/-- Bytes by address, sparse, in one canonical form (Machine/Ops.lean `Memory.wf`). -/
abbrev Memory := List Host.Cell

/-! ## What one deterministic step needs of the agents -/

/-- What the firmware loader will still do: deliver `bytes` once `after` more sequencer lines have been
performed (10_state.md R21, 41_firmware_replay.md R162; log 6). -/
structure Delivery where
  after : Nat
  bytes : List Byte
  deriving DecidableEq, Repr

/-- How much one step performs: a whole operation, as the blocking host sees it (10_state.md R21), or
one pseudocode line, as the sequencer does (10_state.md R33; log 5). -/
inductive Grain where
  | operation
  | line
  deriving DecidableEq, Repr

/-- The state of the machine. -/
structure State where
  /-- `MODE_SEL`, the selected mode index (10_state.md R38). -/
  modeSel : W32
  /-- `FW`, the firmware image; `none` is `absent` (10_state.md R39). -/
  fw : Option Memory
  /-- `SEQ` with `UPC` and the return stack (10_state.md R33, R40). -/
  seq : Seq
  /-- `WR_REGS` (10_state.md R22). -/
  wr : WorkRegs
  /-- `TRACE`, every event so far in order (00_scope.md R12). -/
  trace : List Event
  /-- The response port: the last operation's response, until the next request is taken
  (30_encoding.md R92, 70_reset_and_hazards.md R278; log 8). -/
  resp : Option Response
  /-- The model's own: the requests the host will issue, next first (log 7). -/
  requests : List Q64
  /-- The model's own: the delivery the loader will still make (log 6). -/
  fwl : Option Delivery
  /-- The model's own: device answers decided beforehand, next first (log 2). -/
  script : List Answer
  /-- The model's own: how many free answers have been drawn (log 2). -/
  drawn : Nat
  /-- The model's own: how much one step performs (log 5). -/
  grain : Grain
  deriving DecidableEq, Repr

/-! ## Faults and refusals -/

/-- The model faults (60_exceptions.md R231). -/
inductive Fault where
  /-- `ImgFetchFault(o)`: raised by a fetch of the image at an offset it does not have
  (20_memory.md R62). Safe: the machine stops where the source is silent. -/
  | imgFetch (offset : Nat)
  /-- `UnwrittenRegister(name)`: raised by a line that reads a working register without a value
  (10_state.md R31). Safe: no run from reset reaches it. -/
  | unwrittenRegister (name : RegName)
  deriving DecidableEq, Repr

/-- Why the machine gives something no meaning (60_exceptions.md R232). -/
inductive Refusal where
  /-- Raised by `exec` for an instruction without a meaning. Safe. -/
  | notModelled (mnemonic : String)
  /-- Raised by `step` for a request word that selects no operation (30_encoding.md R109). Safe. -/
  | malformedRequest (q : Q64)
  /-- Raised by a host operation while the sequencer runs (60_exceptions.md R232, decision D14). Unsafe
  for a host that breaks the contract: such runs are not in the model. -/
  | requestWhileRunning
  /-- Raised by `FW_DELIVER` when an image is present (41_firmware_replay.md R160, decision D13). Safe. -/
  | secondDelivery
  /-- Raised by an image item or a command word where the sequencer is not at the line that consumes it
  (41_firmware_replay.md R167(a); log 12). Safe. -/
  | notAtItsLine
  deriving DecidableEq, Repr

/-! ## Reset -/

/-- The machine right after reset (10_state.md R50, 70_reset_and_hazards.md R260). -/
def State.reset : State where
  modeSel := 0#32
  fw := none
  seq := .idle
  wr := .empty
  trace := []
  resp := none
  requests := []
  fwl := none
  script := []
  drawn := 0
  grain := .operation

end Sys2Proof.Machine
end

