-- ==== Sys2Proof/Machine/Ops.lean ====
section
/-! DEFINITION. The named operations over memory, registers, the transport, the trace and the
sequencer: image fetches (spec/20_memory.md R62), transport calls (R66 to R68), reports and delays, the
firmware loader's delivery (spec/41_firmware_replay.md R160), and the ONE way a procedure returns or
aborts (spec/60_exceptions.md R233, R235). -/

namespace Sys2Proof.Machine

/-! ## Outcomes -/

/-- What a part of an operation answers: a value, a model fault, or a refusal. -/
abbrev Out (α : Type) := Host.Outcome α Fault Refusal

/-- Go on with the value, or stop as `x` stopped. -/
def andThen {α β : Type} (x : Out α) (k : α → Out β) : Out β :=
  match x with
  | .next a => k a
  | .fault f => .fault f
  | .refused r => .refused r

/-- The value of a register that holds one, or the fault the spec names for reading it
(10_state.md R31). -/
def readReg {α : Type} (name : RegName) (r : Option α) : Out α :=
  match r with
  | some v => .next v
  | none => .fault (.unwrittenRegister name)

/-! ## The image memory -/

/-- Consecutive cells from offset `o` up. -/
def Memory.loadFrom (o : Nat) : List Byte → Memory
  | [] => []
  | b :: bs => (o, b) :: Memory.loadFrom (o + 1) bs

/-- `present(bytes)`: the image as delivered, byte `k` at offset `k` (20_memory.md R60). -/
def Memory.load (bytes : List Byte) : Memory := Memory.loadFrom 0 bytes

/-- The byte at offset `o`. An unlisted offset holds no value (20_memory.md R62; log 17). -/
def Memory.read (m : Memory) (o : Nat) : Option Byte :=
  match m with
  | [] => none
  | (a, b) :: rest => if a = o then some b else Memory.read rest o

/-- `FW_LEN` of a present image (10_state.md R39). -/
def Memory.size (m : Memory) : Nat := m.length

/-- The cells' addresses are `o`, `o + 1`, `o + 2`, and so on. -/
def Memory.wfFrom (o : Nat) : Memory → Bool
  | [] => true
  | (a, _) :: rest => a == o && Memory.wfFrom (o + 1) rest

/-- The canonical form: the listed offsets are exactly `0` to `FW_LEN - 1`, rising (20_memory.md R60).
Unlisted offsets hold no value, so no entry can repeat one. -/
def Memory.wf (m : Memory) : Bool := Memory.wfFrom 0 m

/-- `MemRead(IMG, o, 1)`: the byte, or `ImgFetchFault(o)` when there is none (20_memory.md R62). -/
def memRead (fw : Option Memory) (o : Nat) : Out Byte :=
  match fw with
  | none => .fault (.imgFetch o)
  | some m =>
    match Memory.read m o with
    | some b => .next b
    | none => .fault (.imgFetch o)

/-! ## The trace and the transport -/

/-- Append an event (00_scope.md R12). -/
def State.emit (s : State) (e : Event) : State := { s with trace := s.trace ++ [e] }

/-- The device's answer to the next transport call: the decided one, or a free draw (10_state.md R46). -/
def State.answer (s : State) : Answer :=
  match s.script with
  | a :: _ => a
  | [] => Config.freeAnswer s.drawn

/-- One transport call is made: its event, with the answer, is appended and the answer is used up. -/
def State.access (s : State) (ev : Answer → Event) : State :=
  { s with
    trace := s.trace ++ [ev s.answer]
    script := s.script.tail
    drawn := match s.script with
      | _ :: _ => s.drawn
      | [] => s.drawn + 1 }

/-- `TRead(a)` (20_memory.md R66). -/
def State.tread (s : State) (a : RegAddr) : State := s.access fun ans => .tr a ans

/-- `TWrite(a, v)` (20_memory.md R67). -/
def State.twrite (s : State) (a : RegAddr) (v : W32) : State :=
  s.access fun ans => .tw a v ans.err?

/-- `TUpdate(a, m, v)` (20_memory.md R68). -/
def State.tupdate (s : State) (a : RegAddr) (m v : W32) : State :=
  s.access fun ans => .tu a m v ans.err?

/-- The report of a failed transport call, if it failed. -/
def reportsOfAnswer (ans : Answer) : List Event :=
  match ans with
  | .ok _ => []
  | .err e => [.rp (.io e)]

/-- `if r = Err(x) then Report(x)` (60_exceptions.md R236). -/
def reportsOfResult (r : Result) : List Event :=
  match r with
  | .ok _ => []
  | .err x => [.rp x]

/-- Append a procedure's report, if its result is an error. -/
def State.reportIf (s : State) (r : Result) : State :=
  { s with trace := s.trace ++ reportsOfResult r }

/-- `t <- TUpdate(a, m, v); if t = Err(e) then Report(Io(e))` (42_mode_state_events.md R195, R205;
decision D15; log 18). -/
def State.updateOrReport (s : State) (a : RegAddr) (m v : W32) : State :=
  let s' := s.tupdate a m v
  { s' with trace := s'.trace ++ reportsOfAnswer s.answer }

/-! ## Working registers -/

/-- `RA <- address; RD <- data` (40_command_poll.md R135). -/
def State.setOperands (s : State) (address data : W16) : State :=
  { s with wr := { s.wr with ra := some address, rd := some data } }

/-- `RA <- register` (40_command_poll.md R140). -/
def State.setRA (s : State) (register : W16) : State :=
  { s with wr := { s.wr with ra := some register } }

/-- `RV <- v` (10_state.md R24). -/
def State.setRV (s : State) (v : W32) : State := { s with wr := { s.wr with rv := some v } }

/-- `PCNT <- n` (10_state.md R25). -/
def State.setPCNT (s : State) (n : BitVec 4) : State := { s with wr := { s.wr with pcnt := some n } }

/-- `MI <- mode_index` (41_firmware_replay.md R165). -/
def State.setMI (s : State) (m : W32) : State := { s with wr := { s.wr with mi := some m } }

/-- `MC <- mode_count` (41_firmware_replay.md R165). -/
def State.setMC (s : State) (n : Byte) : State := { s with wr := { s.wr with mc := some n } }

/-- `PO <- position; EC <- entry_count` (41_firmware_replay.md R165). -/
def State.setDesc (s : State) (position : W16) (count : Byte) : State :=
  { s with wr := { s.wr with po := some position, ec := some count } }

/-- `EI <- ei; EP <- ep` (41_firmware_replay.md R165). -/
def State.setEntry (s : State) (ei : BitVec 8) (ep : BitVec 17) : State :=
  { s with wr := { s.wr with ei := some ei, ep := some ep } }

/-- `ST <- r` (10_state.md R37). -/
def State.setST (s : State) (r : Result) : State := { s with wr := { s.wr with st := some r } }

/-! ## The firmware loader -/

/-- `FW_DELIVER`, lines FD.0 and FD.1: it requires `FW = absent` (41_firmware_replay.md R160). -/
def deliver (bytes : List Byte) (s : State) : Out State :=
  match s.fw with
  | none => .next { s with fw := some (Memory.load bytes) }
  | some _ => .refused .secondDelivery

/-- What the loader does in front of a sequencer line: a delivery that is due where no image is present
happens whole, one that is not due comes a line nearer (41_firmware_replay.md R162; log 6). One that is due
where an image is present is refused by the step, in front of the line (Machine/Step.lean); here it
changes nothing. -/
def State.tick (s : State) : State :=
  match s.fwl with
  | none => s
  | some ⟨n + 1, bytes⟩ => { s with fwl := some ⟨n, bytes⟩ }
  | some ⟨0, bytes⟩ =>
    match s.fw with
    | none => { s with fw := some (Memory.load bytes), fwl := none }
    | some _ => s

/-- The delivery that is the loader's own next step, whatever the sequencer does: one that is due
(10_state.md R21; 41_firmware_replay.md R162; log 6). -/
def State.dueDelivery (s : State) : Option (List Byte) :=
  match s.fwl with
  | some ⟨0, bytes⟩ => some bytes
  | _ => none

/-- How much the next step performs: what the state's grain says; but one line, where a delivery is to come
that an image already stands in the way of, so that its refusal falls in front of its very line
(60_exceptions.md R232; log 5, log 6). -/
def State.stepGrain (s : State) : Grain :=
  match s.fw, s.fwl with
  | some _, some _ => .line
  | _, _ => s.grain

/-! ## Responses -/

/-- The result code (60_exceptions.md R220, decision D2). -/
def stCode : Result → BitVec 3
  | .ok _ => 0#3
  | .err (.io _) => 1#3
  | .err .busy => 2#3
  | .err .invalidMode => 3#3
  | .err .outOfBounds => 4#3
  | .err .noFirmware => 5#3

/-- The payload: the value of `DSP_READ` and `MODE_GET`, 0 otherwise (30_encoding.md R92). -/
def payload : Result → W32
  | .ok (some v) => v
  | .ok none => 0#32
  | .err _ => 0#32

/-- The transport's own error, present only when `st = 1` (30_encoding.md R92). -/
def ioOf : Result → Option IoErr
  | .err (.io e) => some e
  | .err .busy => none
  | .err .invalidMode => none
  | .err .outOfBounds => none
  | .err .noFirmware => none
  | .ok _ => none

/-- The response that carries a result (30_encoding.md R92). -/
def respond (r : Result) : Response := ⟨stCode r, payload r, ioOf r⟩

/-- The response word: `P[34:32] = st`, `P[31:0] = val` (30_encoding.md R92). -/
def Response.word (p : Response) : BitVec 35 := p.st ++ p.val

/-! ## Ending an operation, returning, aborting -/

/-- The operation ends: the response is emitted, `SEQ` becomes `Idle`, and the working registers lose
their values (70_reset_and_hazards.md R278, 10_state.md R31). -/
def finish (r : Result) (s : State) : State :=
  { s with seq := .idle, wr := .empty, resp := some (respond r) }

/-- `ST <- r; return r`, as a part of an operation sees it. -/
def ret (r : Result) (s : State) : Result × State := (r, s.setST r)

/-- The sequencer goes to line `l` of the same procedure. -/
def goto (op : Instr) (stack : List Label) (l : Label) (s : State) : State :=
  { s with seq := .running op l stack }

/-- The sequencer calls the procedure that begins at `entry` from line `caller` (10_state.md R33). -/
def call (op : Instr) (stack : List Label) (caller entry : Label) (s : State) : State :=
  { s with seq := .running op entry (caller :: stack) }

/-- What follows a line that called a procedure. -/
inductive AfterCall where
  /-- `try call`: an error returns from the caller at once, otherwise go on at `next` (00_scope.md R10). -/
  | propagate (next : Label)
  /-- The caller looks at the result itself, or not at all, and goes on at `next`. -/
  | goOn (next : Label)
  /-- No pseudocode line calls a procedure here. -/
  | noCall
  deriving DecidableEq, Repr

/-- The calling lines of the pseudocode and how they go on (40_command_poll.md R135, R140;
41_firmware_replay.md R165; 42_mode_state_events.md R196, R200, R201, R205). -/
def afterCall : Label → AfterCall
  | .dw .l4 => .propagate (.dw .l5)
  | .dr .l1 => .propagate (.dr .l2)
  | .dr .l4 => .propagate (.dr .l5)
  | .dr .l7 => .propagate (.dr .l8)
  | .dr .l10 => .propagate (.dr .l11)
  | .am .l10 => .propagate (.am .l11)
  | .pw .l0 => .goOn (.pw .l1)
  | .pd .l0 => .goOn (.pd .l1)
  | .pu .l0 => .goOn (.pu .l1)
  | .pu .l1 => .goOn (.pu .l2)
  | .pb .l1 => .goOn (.pb .l2)
  | .pb .l2 => .goOn (.pb .l3)
  | .pb .l4 => .goOn (.pb .l5)
  | _ => .noCall

/-- A procedure returns `r`: to its caller; through every caller that called it with `try` when `r` is
an error; to the host when no caller is left (60_exceptions.md R233, R235). This is the block's one
abort. -/
def returnTo (op : Instr) (r : Result) (s : State) : List Label → State
  | [] => finish r s
  | l :: stack =>
    match afterCall l with
    | .goOn next => goto op stack next s
    | .propagate next =>
      match r with
      | .ok _ => goto op stack next s
      | .err _ => returnTo op r s stack
    | .noCall => returnTo op r s stack

/-- `ST <- r; return r`, as a line of the sequencer (00_scope.md R10). -/
def retLine (op : Instr) (stack : List Label) (r : Result) (s : State) : State :=
  returnTo op r (s.setST r) stack

/-- `return` of a procedure that has no result: `ST` stays (42_mode_state_events.md R195, R196; log 20). -/
def retVoid (op : Instr) (stack : List Label) (s : State) : State := returnTo op (.ok none) s stack

/-! ## Taking a request -/

/-- Run a host operation to its end: only when `SEQ = Idle`; taking the request empties the response
port (10_state.md R21, R40; 60_exceptions.md R232; 70_reset_and_hazards.md R278). -/
def hostOp (body : State → Out (Result × State)) (s : State) : Out State :=
  match s.seq with
  | .idle => andThen (body { s with resp := none }) fun p => .next (finish p.1 p.2)
  | .running _ _ _ => .refused .requestWhileRunning

end Sys2Proof.Machine
end

