-- ==== Sys2Proof/Machine/Operands.lean ====
section
/-! DEFINITION. Operand forms: values handed to the transport (spec/20_memory.md R67), descriptor offsets
(spec/30_encoding.md R97), the items fetched from the image (R100, R101), the arguments of a called
procedure, and the named checks of an image and a mode (R115). -/

namespace Sys2Proof.Machine

/-- `zext_32(x)`: a 16-bit operand as a transport value (20_memory.md R67, decision D3). -/
def zext32 (x : W16) : W32 := x.setWidth 32

/-- `zext_32(MC)`: the count as wide as an index (41_firmware_replay.md R168(a), decision D30). -/
def zextCount (n : Byte) : W32 := n.setWidth 32

/-- `desc_off(m) = 2 + (m-1)*3`, and the parameter `MODE0_DESC_OFF` for mode 0 (30_encoding.md R97;
log 13). -/
def descOff (c : Cfg) (m : W32) : Option Nat :=
  if m = 0#32 then c.mode0DescOff
  else some (Config.hdrBase + (m.toNat - 1) * Config.descSize)

/-- `HDR`: the count byte, fetched and decoded (30_encoding.md R95). -/
def fetchHdr (fw : Option Memory) : Out Byte := memRead fw Config.countOff

/-- `DESC`: three bytes in rising offset, fetched and decoded (30_encoding.md R98, R101; decision D29). -/
def fetchDesc (fw : Option Memory) (d : Nat) : Out (W16 × Byte) :=
  andThen (memRead fw d) fun b0 =>
  andThen (memRead fw (d + 1)) fun b1 =>
  andThen (memRead fw (d + 2)) fun b2 =>
  .next (bigEndian b0 b1, b2)

/-- `ENTRY`: bytes 0 to 3, fetched and decoded; the pad byte is not fetched (30_encoding.md R99, R100;
20_memory.md R81; decision D29). -/
def fetchEntry (fw : Option Memory) (e : Nat) : Out (W16 × W16) :=
  andThen (memRead fw e) fun b0 =>
  andThen (memRead fw (e + 1)) fun b1 =>
  andThen (memRead fw (e + 2)) fun b2 =>
  andThen (memRead fw (e + 3)) fun b3 =>
  .next (bigEndian b0 b1, bigEndian b2 b3)

/-- The pad byte of an entry, for its instruction's third operand only; it has no effect
(30_encoding.md R107). Where the image has no such byte it reads 0 (log 21). -/
def padByte (fw : Option Memory) (e : Nat) : Byte :=
  match fw with
  | none => 0#8
  | some m =>
    match Memory.read m (e + 4) with
    | some b => b
    | none => 0#8

/-- `FW_LEN`, 0 while no image is present (10_state.md R39). -/
def fwLen (fw : Option Memory) : Nat :=
  match fw with
  | none => 0
  | some m => Memory.size m

/-- `PO + 5*EC`, on natural numbers, without wrap-around (41_firmware_replay.md R168(c), decision D11). -/
def regionEnd (position : W16) (count : Byte) : Nat :=
  position.toNat + Config.entrySize * count.toNat

/-- The two operands as `RA` and `RD` hold them (10_state.md R31). -/
def readOperands (s : State) : Out (W16 × W16) :=
  andThen (readReg .ra s.wr.ra) fun a =>
  andThen (readReg .rd s.wr.rd) fun d => .next (a, d)

/-- The arguments of `write` at line DW.0: those of the calling line, which the return stack names, or the
host's operands (40_command_poll.md R135; 41_firmware_replay.md R165 AM.10; 42_mode_state_events.md R196
PW.0). Where neither gives them, in states that no run reaches, they are read from `RA` and `RD`, and so are
the arguments below from `RA` and `MI` (log 19). -/
def writeArgs (c : Cfg) (op : Instr) (stack : List Label) (s : State) : Out (W16 × W16) :=
  match stack with
  | .am .l10 :: _ => readOperands s
  | .pw .l0 :: _ => .next (c.pdAddr, c.pdValue)
  | _ =>
    match op with
    | .dspWrite a d => .next (a, d)
    | _ => readOperands s

/-- The argument of `read` at line DR.0, the host's operand (40_command_poll.md R140; log 19). -/
def readArg (op : Instr) (s : State) : Out W16 :=
  match op with
  | .dspRead r => .next r
  | _ => readReg .ra s.wr.ra

/-- The argument of `apply_mode` at line AM.0: `MODE_SEL` from `EV_POWER_UP`, 0 from `EV_PROBE`, or the host's
operand (41_firmware_replay.md R165; 42_mode_state_events.md R201, R205; log 19). -/
def applyArg (op : Instr) (stack : List Label) (s : State) : Out W32 :=
  match stack with
  | .pu .l1 :: _ => .next s.modeSel
  | .pb .l2 :: _ => .next 0#32
  | _ =>
    match op with
    | .applyMode m => .next m
    | _ => readReg .mi s.wr.mi

/-- The argument of `MODE_SET` at lines MS.0 and MS.1 (42_mode_state_events.md R192; log 19). -/
def setArg (op : Instr) (s : State) : W32 :=
  match op with
  | .modeSet v => v
  | _ => s.modeSel

/-! ## The named checks of an image and a mode index (30_encoding.md R115) -/

/-- `has_count`: `FW_LEN >= 1`. -/
def hasCount (m : Memory) : Bool := 1 ≤ Memory.size m

/-- `mode_valid(m)`: `m <= IMG[0]`. -/
def modeValid (m : Memory) (index : W32) : Bool :=
  match Memory.read m Config.countOff with
  | some n => index.toNat ≤ n.toNat
  | none => false

/-- `has_desc(m)`: mode 0 without a descriptor, or the descriptor lies inside the image. -/
def hasDesc (c : Cfg) (m : Memory) (index : W32) : Bool :=
  match descOff c index with
  | none => true
  | some d => d + 3 ≤ Memory.size m

/-- `in_bounds(m)`: `position + 5*entry_count <= FW_LEN`; nothing to check for a mode without a
descriptor. -/
def inBounds (c : Cfg) (m : Memory) (index : W32) : Bool :=
  match descOff c index with
  | none => true
  | some d =>
    match Memory.read m d, Memory.read m (d + 1), Memory.read m (d + 2) with
    | some b0, some b1, some b2 => regionEnd (bigEndian b0 b1) b2 ≤ Memory.size m
    | _, _, _ => false

end Sys2Proof.Machine
end

