-- ==== Sys2Proof/Machine/Engine.lean ====
section
/-! DEFINITION. The Command/Poll Engine (spec/40_command_poll.md): `wait_ready`, `write` and `read` as
procedures run to their end, the same pseudocode line by line for the sequencer, and the meanings of
`WAIT_READY`, `DSP_WRITE`, `DSP_READ` and of the three command words. In a procedure every line begins
with `tick`, the loader's chance to step in front of it (spec/41_firmware_replay.md R162). -/

namespace Sys2Proof.Machine

/-! ## Procedures -/

/-- `TWrite(a, v) !`: one line; a failure returns `Err(Io(e))` at once (40_command_poll.md R130). -/
def writeThen (a : RegAddr) (v : W32) (s : State) (k : State → Result × State) : Result × State :=
  match s.tick.answer with
  | .err e => ret (.err (.io e)) (s.tick.twrite a v)
  | .ok _ => k (s.tick.twrite a v)

/-- Lines WT.1 to WT.3 with `n` status reads left (40_command_poll.md R131). -/
def poll (c : Cfg) : Nat → State → Result × State
  | 0, s => ret (.err .busy) s
  | n + 1, s =>
    match s.tick.answer with
    | .err e => ret (.err (.io e)) (s.tick.tread c.regStatus)
    | .ok v =>
      let s1 := ((s.tick.tread c.regStatus).setRV v).setPCNT (BitVec.ofNat 4 (Config.pollMax - n))
      if busy c v then poll c n s1.tick.tick
      else ret (.ok none) s1.tick

/-- `wait_ready()` (40_command_poll.md R131). -/
def waitReady (c : Cfg) (s : State) : Result × State := poll c Config.pollMax (s.tick.setPCNT 0#4)

/-- `try call wait_ready()`: one line, and what it calls. -/
def waitThen (c : Cfg) (s : State) (k : State → Result × State) : Result × State :=
  match waitReady c s.tick with
  | (.err x, s') => (.err x, s')
  | (.ok _, s') => k s'

/-- `write(address, data)` (40_command_poll.md R135). -/
def write (c : Cfg) (address data : W16) (s : State) : Result × State :=
  writeThen c.regAddr (zext32 address) (s.tick.setOperands address data) fun s =>
  writeThen c.regData (zext32 data) s fun s =>
  writeThen c.regCmd (zext32 c.cwMw) s fun s =>
  waitThen c s fun s =>
  ret (.ok none) s.tick

/-- Lines DR.11 and DR.12: the one data-out read, and its raw value as the result
(40_command_poll.md R140, R141). -/
def readOut (c : Cfg) (s : State) : Result × State :=
  match s.tick.answer with
  | .err e => ret (.err (.io e)) (s.tick.tread c.regDout)
  | .ok v => ret (.ok (some v)) ((s.tick.tread c.regDout).setRV v).tick

/-- `read(register)` (40_command_poll.md R140). -/
def read (c : Cfg) (register : W16) (s : State) : Result × State :=
  waitThen c (s.tick.setRA register) fun s =>
  writeThen c.regAddr (zext32 register) s fun s =>
  writeThen c.regCmd (zext32 c.cwMr) s fun s =>
  waitThen c s fun s =>
  writeThen c.regAddr (zext32 Config.idxHi) s fun s =>
  writeThen c.regCmd (zext32 c.cwRr) s fun s =>
  waitThen c s fun s =>
  writeThen c.regAddr (zext32 Config.idxLo) s fun s =>
  writeThen c.regCmd (zext32 c.cwRr) s fun s =>
  waitThen c s fun s =>
  readOut c s

/-! ## Host operations -/

/-- `WAIT_READY` as a host operation. -/
def opWaitReady (c : Cfg) (s : State) : Out State := hostOp (fun s => .next (waitReady c s)) s

/-- `DSP_WRITE` as a host operation. -/
def opDspWrite (c : Cfg) (address data : W16) (s : State) : Out State :=
  hostOp (fun s => .next (write c address data s)) s

/-- `DSP_READ` as a host operation. -/
def opDspRead (c : Cfg) (register : W16) (s : State) : Out State :=
  hostOp (fun s => .next (read c register s)) s

/-- `WAIT_READY` (40_command_poll.md R131). -/
def execWaitReady (s : State) : Out State := opWaitReady Config.cfg s

/-- `DSP_WRITE address, data` (40_command_poll.md R135). -/
def execDspWrite (address data : W16) (s : State) : Out State := opDspWrite Config.cfg address data s

/-- `DSP_READ register` (40_command_poll.md R140). -/
def execDspRead (register : W16) (s : State) : Out State := opDspRead Config.cfg register s

/-! ## The sequencer's lines -/

/-- A line `t <- TWrite(a, v) !` that goes on at `next` (40_command_poll.md R130). -/
def writeLine (op : Instr) (stack : List Label) (a : RegAddr) (v : W32) (next : Label) (s : State) :
    State :=
  match s.answer with
  | .err e => retLine op stack (.err (.io e)) (s.twrite a v)
  | .ok _ => goto op stack next (s.twrite a v)

/-- Lines WT.0 to WT.3 (40_command_poll.md R131). -/
def lineWt (c : Cfg) (op : Instr) (stack : List Label) (l : WtLine) (s : State) : Out State :=
  match l with
  | .l0 => .next (goto op stack (.wt .l1) (s.setPCNT 0#4))
  | .l1 =>
    match s.answer with
    | .err e => .next (retLine op stack (.err (.io e)) (s.tread c.regStatus))
    | .ok v => andThen (readReg .pcnt s.wr.pcnt) fun n =>
        .next (goto op stack (.wt .l2) (((s.tread c.regStatus).setRV v).setPCNT (n + 1#4)))
  | .l2 => andThen (readReg .rv s.wr.rv) fun v =>
      .next (if busy c v then goto op stack (.wt .l3) s else retLine op stack (.ok none) s)
  | .l3 => andThen (readReg .pcnt s.wr.pcnt) fun n =>
      .next (if n.toNat = Config.pollMax then retLine op stack (.err .busy) s
        else goto op stack (.wt .l1) s)

/-- Lines DW.0 to DW.5 (40_command_poll.md R135). -/
def lineDw (c : Cfg) (op : Instr) (stack : List Label) (l : DwLine) (s : State) : Out State :=
  match l with
  | .l0 => andThen (writeArgs c op stack s) fun p =>
      .next (goto op stack (.dw .l1) (s.setOperands p.1 p.2))
  | .l1 => andThen (readReg .ra s.wr.ra) fun a =>
      .next (writeLine op stack c.regAddr (zext32 a) (.dw .l2) s)
  | .l2 => andThen (readReg .rd s.wr.rd) fun d =>
      .next (writeLine op stack c.regData (zext32 d) (.dw .l3) s)
  | .l3 => .next (writeLine op stack c.regCmd (zext32 c.cwMw) (.dw .l4) s)
  | .l4 => .next (call op stack (.dw .l4) (.wt .l0) s)
  | .l5 => .next (retLine op stack (.ok none) s)

/-- Lines DR.0 to DR.12 (40_command_poll.md R140). -/
def lineDr (c : Cfg) (op : Instr) (stack : List Label) (l : DrLine) (s : State) : Out State :=
  match l with
  | .l0 => andThen (readArg op s) fun r => .next (goto op stack (.dr .l1) (s.setRA r))
  | .l1 => .next (call op stack (.dr .l1) (.wt .l0) s)
  | .l2 => andThen (readReg .ra s.wr.ra) fun a =>
      .next (writeLine op stack c.regAddr (zext32 a) (.dr .l3) s)
  | .l3 => .next (writeLine op stack c.regCmd (zext32 c.cwMr) (.dr .l4) s)
  | .l4 => .next (call op stack (.dr .l4) (.wt .l0) s)
  | .l5 => .next (writeLine op stack c.regAddr (zext32 Config.idxHi) (.dr .l6) s)
  | .l6 => .next (writeLine op stack c.regCmd (zext32 c.cwRr) (.dr .l7) s)
  | .l7 => .next (call op stack (.dr .l7) (.wt .l0) s)
  | .l8 => .next (writeLine op stack c.regAddr (zext32 Config.idxLo) (.dr .l9) s)
  | .l9 => .next (writeLine op stack c.regCmd (zext32 c.cwRr) (.dr .l10) s)
  | .l10 => .next (call op stack (.dr .l10) (.wt .l0) s)
  | .l11 =>
    match s.answer with
    | .err e => .next (retLine op stack (.err (.io e)) (s.tread c.regDout))
    | .ok v => .next (goto op stack (.dr .l12) ((s.tread c.regDout).setRV v))
  | .l12 => andThen (readReg .rv s.wr.rv) fun v => .next (retLine op stack (.ok (some v)) s)

/-! ## Command words -/

/-- `CW_MW`: the line DW.3 writes it to the command register, which starts the command
(30_encoding.md R103; 20_memory.md R73). Elsewhere the block writes no such word (log 12). -/
def execCwMw (s : State) : Out State :=
  match s.seq with
  | .running op (.dw .l3) stack => lineDw Config.cfg op stack .l3 s.tick
  | _ => .refused .notAtItsLine

/-- `CW_MR`: the line DR.3 writes it to the command register (30_encoding.md R104; log 12). -/
def execCwMr (s : State) : Out State :=
  match s.seq with
  | .running op (.dr .l3) stack => lineDr Config.cfg op stack .l3 s.tick
  | _ => .refused .notAtItsLine

/-- `CW_RR`: the lines DR.6 and DR.9 write the same word to the command register
(30_encoding.md R105; log 12). -/
def execCwRr (s : State) : Out State :=
  match s.seq with
  | .running op (.dr .l6) stack => lineDr Config.cfg op stack .l6 s.tick
  | .running op (.dr .l9) stack => lineDr Config.cfg op stack .l9 s.tick
  | _ => .refused .notAtItsLine

end Sys2Proof.Machine
end

