-- ==== Sys2Proof/Machine/Firmware.lean ====
section
/-! DEFINITION. The Firmware Table Parser and Loader (spec/41_firmware_replay.md): `apply_mode` as a
procedure run to its end, the same pseudocode line by line for the sequencer, and the meanings of
`APPLY_MODE`, `FW_DELIVER` and of the image's items `HDR`, `DESC` and `WR`. -/

namespace Sys2Proof.Machine

/-! ## The procedure -/

/-- Lines AM.9 and AM.10 for a fetched entry: its operands, and the write (41_firmware_replay.md R167). -/
def writeEntry (c : Cfg) (address data : W16) (s : State) : Result × State :=
  write c address data (s.tick.setOperands address data).tick

/-- Lines AM.9 to AM.11 for a fetched entry, with `EI = ei` and `EP = ep`: its write, and on success the
advance (41_firmware_replay.md R167). -/
def replayEntry (c : Cfg) (ei : BitVec 8) (ep : BitVec 17) (address data : W16) (s : State) :
    Result × State :=
  match writeEntry c address data s with
  | (.err x, s') => (.err x, s')
  | (.ok p, s') => (.ok p, s'.tick.setEntry (ei + 1#8) (ep + 5#17))

/-- Lines AM.8 to AM.11 with `n` entries left (41_firmware_replay.md R165). -/
def replay (c : Cfg) : Nat → BitVec 8 → BitVec 17 → State → Out (Result × State)
  | 0, _, _, s => .next (ret (.ok none) s.tick)
  | n + 1, ei, ep, s =>
    andThen (fetchEntry s.tick.fw ep.toNat) fun entry =>
    match replayEntry c ei ep entry.1 entry.2 s.tick with
    | (.err x, s') => .next (.err x, s')
    | (.ok _, s') => replay c n (ei + 1#8) (ep + 5#17) s'

/-- Lines AM.6 to AM.11: the bounds check, then the replay (41_firmware_replay.md R165). -/
def checkAndReplay (c : Cfg) (position : W16) (count : Byte) (s : State) : Out (Result × State) :=
  if regionEnd position count > fwLen s.tick.fw then .next (ret (.err .outOfBounds) s.tick)
  else replay c count.toNat 0#8 (position.setWidth 17)
    (s.tick.tick.setEntry 0#8 (position.setWidth 17))

/-- Lines AM.4 to AM.11: mode 0 without a descriptor, or the descriptor and its entries
(41_firmware_replay.md R165, R166). -/
def lookUpAndReplay (c : Cfg) (index : W32) (s : State) : Out (Result × State) :=
  match descOff c index with
  | none => .next (ret (.ok none) s.tick)
  | some d =>
    andThen (fetchDesc s.tick.tick.fw d) fun p =>
    checkAndReplay c p.1 p.2 (s.tick.tick.setDesc p.1 p.2)

/-- Lines AM.2 to AM.11, the image being present (41_firmware_replay.md R165). -/
def countAndReplay (c : Cfg) (index : W32) (s : State) : Out (Result × State) :=
  andThen (fetchHdr s.tick.fw) fun n =>
  let s1 := (s.tick.setMC n).tick
  if index > zextCount n then .next (ret (.err .invalidMode) s1)
  else lookUpAndReplay c index s1

/-- `apply_mode(mode_index)` (41_firmware_replay.md R165). -/
def applyMode (c : Cfg) (index : W32) (s : State) : Out (Result × State) :=
  let s1 := (s.tick.setMI index).tick
  match s1.fw with
  | none => .next (ret (.err .noFirmware) s1)
  | some _ => countAndReplay c index s1

/-! ## Host operation and loader action -/

/-- `APPLY_MODE` as a host operation. -/
def opApplyMode (c : Cfg) (index : W32) (s : State) : Out State := hostOp (applyMode c index) s

/-- `APPLY_MODE mode_index` (41_firmware_replay.md R165). -/
def execApplyMode (index : W32) (s : State) : Out State := opApplyMode Config.cfg index s

/-- `FW_DELIVER bytes`: the loader's action, between any two sequencer steps or when idle
(41_firmware_replay.md R160). -/
def execFwDeliver (bytes : List Byte) (s : State) : Out State := deliver bytes s

/-! ## The image's items -/

/-- `HDR mode_count`: line AM.2 takes it into `MC` (30_encoding.md R95; log 12). -/
def execHdr (modeCount : Byte) (s : State) : Out State :=
  match s.seq with
  | .running op (.am .l2) stack => .next (goto op stack (.am .l3) (s.tick.setMC modeCount))
  | _ => .refused .notAtItsLine

/-- `DESC position, entry_count`: line AM.5 takes it into `PO` and `EC` (30_encoding.md R98, R101;
log 12). -/
def execDesc (position : W16) (entryCount : Byte) (s : State) : Out State :=
  match s.seq with
  | .running op (.am .l5) stack => .next (goto op stack (.am .l6) (s.tick.setDesc position entryCount))
  | _ => .refused .notAtItsLine

/-- Line AM.11: both registers are read, and advanced (41_firmware_replay.md R165). -/
def advanceEntry (op : Instr) (stack : List Label) (s : State) : Out State :=
  andThen (readReg .ei s.wr.ei) fun ei =>
  andThen (readReg .ep s.wr.ep) fun ep =>
  .next (goto op stack (.am .l8) (s.setEntry (ei + 1#8) (ep + 5#17)))

/-- `WR address, data, pad` at line AM.9 with the parameters `c`: lines AM.9 to AM.11. AM.9 reads `EP`; AM.11,
which reads `EI`, is reached only when the write has succeeded, and a failed write ends `apply_mode` with its
error (41_firmware_replay.md R165, R167). -/
def opWr (c : Cfg) (address data : W16) (s : State) : Out State :=
  match s.seq with
  | .running op (.am .l9) stack =>
    andThen (readReg .ep s.wr.ep) fun _ =>
    match writeEntry c address data s with
    | (.err x, s') => .next (returnTo op (.err x) s' stack)
    | (.ok _, s') => advanceEntry op stack s'.tick
  | _ => .refused .notAtItsLine

/-- `WR address, data, pad` (41_firmware_replay.md R167): the pad byte changes nothing, and an entry is
executed only as part of an `APPLY_MODE` (R167(a); log 12). -/
def execWr (address data : W16) (_pad : Byte) (s : State) : Out State :=
  opWr Config.cfg address data s

/-! ## The sequencer's lines -/

/-- Lines AM.0 to AM.11 (41_firmware_replay.md R165). -/
def lineAm (c : Cfg) (op : Instr) (stack : List Label) (l : AmLine) (s : State) : Out State :=
  match l with
  | .l0 => andThen (applyArg op stack s) fun m => .next (goto op stack (.am .l1) (s.setMI m))
  | .l1 =>
    match s.fw with
    | none => .next (retLine op stack (.err .noFirmware) s)
    | some _ => .next (goto op stack (.am .l2) s)
  | .l2 => andThen (fetchHdr s.fw) fun n => .next (goto op stack (.am .l3) (s.setMC n))
  | .l3 => andThen (readReg .mi s.wr.mi) fun m =>
      andThen (readReg .mc s.wr.mc) fun n =>
      .next (if m > zextCount n then retLine op stack (.err .invalidMode) s
        else goto op stack (.am .l4) s)
  | .l4 => andThen (readReg .mi s.wr.mi) fun m =>
      .next (match descOff c m with
        | none => retLine op stack (.ok none) s
        | some _ => goto op stack (.am .l5) s)
  | .l5 => andThen (readReg .mi s.wr.mi) fun m =>
      match descOff c m with
      | none => .next (retLine op stack (.ok none) s)
      | some d => andThen (fetchDesc s.fw d) fun p =>
          .next (goto op stack (.am .l6) (s.setDesc p.1 p.2))
  | .l6 => andThen (readReg .po s.wr.po) fun p =>
      andThen (readReg .ec s.wr.ec) fun n =>
      .next (if regionEnd p n > fwLen s.fw then retLine op stack (.err .outOfBounds) s
        else goto op stack (.am .l7) s)
  | .l7 => andThen (readReg .po s.wr.po) fun p =>
      .next (goto op stack (.am .l8) (s.setEntry 0#8 (p.setWidth 17)))
  | .l8 => andThen (readReg .ei s.wr.ei) fun ei =>
      andThen (readReg .ec s.wr.ec) fun n =>
      .next (if ei = n then retLine op stack (.ok none) s else goto op stack (.am .l9) s)
  | .l9 => andThen (readReg .ep s.wr.ep) fun ep =>
      andThen (fetchEntry s.fw ep.toNat) fun entry =>
      .next (goto op stack (.am .l10) (s.setOperands entry.1 entry.2))
  | .l10 => andThen (readOperands s) fun _ => .next (call op stack (.am .l10) (.dw .l0) s)
  | .l11 => advanceEntry op stack s

end Sys2Proof.Machine
end

