-- ==== Sys2Proof/Machine/Events.lean ====
section
/-! DEFINITION. The Mode State and the host events (spec/42_mode_state_events.md): `MODE_GET`, `MODE_SET`,
`reset_pulse`, `pd_write`, `EV_POWER_DOWN`, `EV_POWER_UP`, `EV_PROBE`, as procedures run to their end and
line by line for the sequencer. A host event never fails: what goes wrong in it is reported and it goes
on (R190). -/

namespace Sys2Proof.Machine

/-! ## Procedures -/

/-- `MODE_GET`, line MG.0 (42_mode_state_events.md R191). -/
def modeGet (s : State) : Result × State := ret (.ok (some s.tick.modeSel)) s.tick

/-- `MODE_SET value`, lines MS.0 to MS.2 (42_mode_state_events.md R192). -/
def modeSet (value : W32) (s : State) : Result × State :=
  if value = s.tick.modeSel then ret (.ok none) s.tick
  else ret (.ok none) (State.tick { s.tick.tick with modeSel := value })

/-- `reset_pulse()`, lines RS.0 to RS.3 (42_mode_state_events.md R195). -/
def resetPulse (c : Cfg) (s : State) : State :=
  let s1 := s.tick.updateOrReport c.rstReg c.rstMask c.rstAssert
  let s2 := s1.tick.emit (.dl c.tResetSettle)
  let s3 := s2.tick.updateOrReport c.rstReg c.rstMask c.rstDeassert
  s3.tick

/-- `pd_write()`, lines PW.0 to PW.2 (42_mode_state_events.md R196). -/
def pdWrite (c : Cfg) (s : State) : State :=
  let p := write c c.pdAddr c.pdValue s.tick
  (p.2.tick.reportIf p.1).tick

/-- `EV_POWER_DOWN`, lines PD.0 and PD.1 (42_mode_state_events.md R200). -/
def powerDown (c : Cfg) (s : State) : Result × State := ret (.ok none) (pdWrite c s.tick).tick

/-- `EV_POWER_UP`, lines PU.0 to PU.3 (42_mode_state_events.md R201). -/
def powerUp (c : Cfg) (s : State) : Out (Result × State) :=
  let s1 := (resetPulse c s.tick).tick
  andThen (applyMode c s1.modeSel s1) fun p => .next (ret (.ok none) (p.2.tick.reportIf p.1).tick)

/-- Lines PB.3 to PB.7 of `EV_PROBE` (42_mode_state_events.md R205). -/
def probeTail (c : Cfg) (s : State) : Result × State :=
  let s1 := s.tick.emit (.dl c.tProbeSettle)
  let s2 := pdWrite c s1.tick
  let s3 := s2.tick.updateOrReport c.pwrReg c.pwrMask c.pwrOff
  let s4 := s3.tick.emit (.fq c.fwName)
  ret (.ok none) s4.tick

/-- `EV_PROBE`: the result of `apply_mode(0)` is neither tested nor reported
(42_mode_state_events.md R205; decision D22; log 18). -/
def probe (c : Cfg) (s : State) : Out (Result × State) :=
  let s1 := s.tick.updateOrReport c.pwrReg c.pwrMask c.pwrOn
  let s2 := (resetPulse c s1.tick).tick
  andThen (applyMode c 0#32 s2) fun p => .next (probeTail c p.2)

/-! ## Host operations -/

/-- `EV_POWER_DOWN` as a host operation. -/
def opPowerDown (c : Cfg) (s : State) : Out State := hostOp (fun s => .next (powerDown c s)) s

/-- `EV_POWER_UP` as a host operation. -/
def opPowerUp (c : Cfg) (s : State) : Out State := hostOp (powerUp c) s

/-- `EV_PROBE` as a host operation. -/
def opProbe (c : Cfg) (s : State) : Out State := hostOp (probe c) s

/-- `MODE_GET` (42_mode_state_events.md R191). -/
def execModeGet (s : State) : Out State := hostOp (fun s => .next (modeGet s)) s

/-- `MODE_SET value` (42_mode_state_events.md R192). -/
def execModeSet (value : W32) (s : State) : Out State := hostOp (fun s => .next (modeSet value s)) s

/-- `EV_POWER_DOWN` (42_mode_state_events.md R200). -/
def execEvPowerDown (s : State) : Out State := opPowerDown Config.cfg s

/-- `EV_POWER_UP` (42_mode_state_events.md R201). -/
def execEvPowerUp (s : State) : Out State := opPowerUp Config.cfg s

/-- `EV_PROBE` (42_mode_state_events.md R205). -/
def execEvProbe (s : State) : Out State := opProbe Config.cfg s

/-! ## The sequencer's lines -/

/-- Line MG.0 (42_mode_state_events.md R191). -/
def lineMg (op : Instr) (stack : List Label) (s : State) : Out State :=
  .next (retLine op stack (.ok (some s.modeSel)) s)

/-- Lines MS.0 to MS.2 (42_mode_state_events.md R192). -/
def lineMs (op : Instr) (stack : List Label) (l : MsLine) (s : State) : Out State :=
  match l with
  | .l0 => .next (if setArg op s = s.modeSel then retLine op stack (.ok none) s
      else goto op stack (.ms .l1) s)
  | .l1 => .next (goto op stack (.ms .l2) { s with modeSel := setArg op s })
  | .l2 => .next (retLine op stack (.ok none) s)

/-- Lines RS.0 to RS.3 (42_mode_state_events.md R195). -/
def lineRs (c : Cfg) (op : Instr) (stack : List Label) (l : RsLine) (s : State) : Out State :=
  match l with
  | .l0 => .next (goto op stack (.rs .l1) (s.updateOrReport c.rstReg c.rstMask c.rstAssert))
  | .l1 => .next (goto op stack (.rs .l2) (s.emit (.dl c.tResetSettle)))
  | .l2 => .next (goto op stack (.rs .l3) (s.updateOrReport c.rstReg c.rstMask c.rstDeassert))
  | .l3 => .next (retVoid op stack s)

/-- Lines PW.0 to PW.2 (42_mode_state_events.md R196). -/
def linePw (op : Instr) (stack : List Label) (l : PwLine) (s : State) : Out State :=
  match l with
  | .l0 => .next (call op stack (.pw .l0) (.dw .l0) s)
  | .l1 => andThen (readReg .st s.wr.st) fun r => .next (goto op stack (.pw .l2) (s.reportIf r))
  | .l2 => .next (retVoid op stack s)

/-- Lines PD.0 and PD.1 (42_mode_state_events.md R200). -/
def linePd (op : Instr) (stack : List Label) (l : PdLine) (s : State) : Out State :=
  match l with
  | .l0 => .next (call op stack (.pd .l0) (.pw .l0) s)
  | .l1 => .next (retLine op stack (.ok none) s)

/-- Lines PU.0 to PU.3 (42_mode_state_events.md R201). -/
def linePu (op : Instr) (stack : List Label) (l : PuLine) (s : State) : Out State :=
  match l with
  | .l0 => .next (call op stack (.pu .l0) (.rs .l0) s)
  | .l1 => .next (call op stack (.pu .l1) (.am .l0) s)
  | .l2 => andThen (readReg .st s.wr.st) fun r => .next (goto op stack (.pu .l3) (s.reportIf r))
  | .l3 => .next (retLine op stack (.ok none) s)

/-- Lines PB.0 to PB.7 (42_mode_state_events.md R205). -/
def linePb (c : Cfg) (op : Instr) (stack : List Label) (l : PbLine) (s : State) : Out State :=
  match l with
  | .l0 => .next (goto op stack (.pb .l1) (s.updateOrReport c.pwrReg c.pwrMask c.pwrOn))
  | .l1 => .next (call op stack (.pb .l1) (.rs .l0) s)
  | .l2 => .next (call op stack (.pb .l2) (.am .l0) s)
  | .l3 => .next (goto op stack (.pb .l4) (s.emit (.dl c.tProbeSettle)))
  | .l4 => .next (call op stack (.pb .l4) (.pw .l0) s)
  | .l5 => .next (goto op stack (.pb .l6) (s.updateOrReport c.pwrReg c.pwrMask c.pwrOff))
  | .l6 => .next (goto op stack (.pb .l7) (s.emit (.fq c.fwName)))
  | .l7 => .next (retLine op stack (.ok none) s)

end Sys2Proof.Machine
end

