-- ==== Sys2Proof/Machine/Sequencer.lean ====
section
/-! DEFINITION. The sequencer as the spec steps it: one pseudocode line per step (spec/10_state.md R33),
the taking of a request (R21, R40), and the items the lines consume, which are the table's rows
(spec/opcode_table.json: HDR, DESC, WR, CW_MW, CW_MR, CW_RR). -/

namespace Sys2Proof.Machine

/-- The line at which an operation's top-level procedure begins (30_encoding.md R90). -/
def entryLine : Instr → Option Label
  | .waitReady => some (.wt .l0)
  | .dspWrite _ _ => some (.dw .l0)
  | .dspRead _ => some (.dr .l0)
  | .applyMode _ => some (.am .l0)
  | .modeGet => some .mg
  | .modeSet _ => some (.ms .l0)
  | .evPowerUp => some (.pu .l0)
  | .evPowerDown => some (.pd .l0)
  | .evProbe => some (.pb .l0)
  | .wr _ _ _ => none
  | .desc _ _ => none
  | .hdr _ => none
  | .cwMw => none
  | .cwMr => none
  | .cwRr => none
  | .fwDeliver _ => none

/-- `SEQ` takes a request: it becomes `Running` at the operation's first line (10_state.md R40). -/
def begin (i : Instr) (s : State) : Out State :=
  match s.seq with
  | .running _ _ _ => .refused .requestWhileRunning
  | .idle =>
    match entryLine i with
    | some l => .next { s with seq := .running i l [], resp := none }
    | none => .refused .notAtItsLine

/-- The line that `upc` names, performed (10_state.md R33). -/
def lineAt (c : Cfg) (op : Instr) (upc : Label) (stack : List Label) (s : State) : Out State :=
  match upc with
  | .wt l => lineWt c op stack l s
  | .dw l => lineDw c op stack l s
  | .dr l => lineDr c op stack l s
  | .am l => lineAm c op stack l s
  | .mg => lineMg op stack s
  | .ms l => lineMs op stack l s
  | .rs l => lineRs c op stack l s
  | .pw l => linePw op stack l s
  | .pd l => linePd op stack l s
  | .pu l => linePu op stack l s
  | .pb l => linePb c op stack l s

/-- One `SEQ` step: the one line `UPC` names, with its event and the device's answer (10_state.md R33). An
idle sequencer performs nothing. -/
def seqStep (c : Cfg) (s : State) : Out State :=
  match s.seq with
  | .idle => .next s
  | .running op upc stack => lineAt c op upc stack s.tick

/-- `SEQ` steps until the operation has ended, at most `n` of them. -/
def seqRun (c : Cfg) : Nat → State → Out State
  | 0, s => .next s
  | n + 1, s =>
    match s.seq with
    | .idle => .next s
    | .running _ _ _ => andThen (seqStep c s) (seqRun c n)

/-- The table row the current line consumes: an item fetched from the image, or the command word it
writes; none where the line consumes no row. -/
def fetchItem (c : Cfg) (s : State) : Option (Out Instr) :=
  match s.seq with
  | .running _ (.am .l2) _ => some (andThen (fetchHdr s.fw) fun n => .next (.hdr n))
  | .running _ (.am .l5) _ =>
    match s.wr.mi.bind (descOff c) with
    | none => none
    | some d => some (andThen (fetchDesc s.fw d) fun p => .next (.desc p.1 p.2))
  | .running _ (.am .l9) _ =>
    some (andThen (readReg .ep s.wr.ep) fun ep =>
      andThen (fetchEntry s.fw ep.toNat) fun entry =>
      .next (.wr entry.1 entry.2 (padByte s.fw ep.toNat)))
  | .running _ (.dw .l3) _ => some (.next .cwMw)
  | .running _ (.dr .l3) _ => some (.next .cwMr)
  | .running _ (.dr .l6) _ => some (.next .cwRr)
  | .running _ (.dr .l9) _ => some (.next .cwRr)
  | _ => none

/-! ## Placing a table row's words where the machine takes them next -/

/-- A replay of the one image at hand, standing at its first line, with a loader that has nothing to
deliver (log 9). -/
def placeReplay (s : State) (upc : Label) (bytes : List Byte) (wr : WorkRegs) : State :=
  { s with
    fw := some (Memory.load bytes)
    seq := .running (.applyMode 1#32) upc []
    wr := wr
    fwl := none
    grain := .operation }

/-- The state in which encoded words are what the next step runs (log 9). A request stands first in the
host's queue; an image item stands in an image, at the line that fetches it; a command word is the one the
current line writes. A word that is no command word of the block's is placed nowhere. -/
def placeWords (c : Cfg) (s : State) (ws : Words) : State :=
  match ws with
  | .request q =>
    { s with
      requests := q :: s.requests
      seq := .idle
      wr := .empty
      fwl := none
      grain := .operation }
  | .entry e =>
    placeReplay s (.am .l9) (Words.imageBytes (.entry e))
      { WorkRegs.empty with
        mi := some 1#32, mc := some 1#8, po := some 0#16, ec := some 1#8, ei := some 0#8, ep := some 0#17 }
  | .desc d =>
    placeReplay s (.am .l5) (1#8 :: 0#8 :: Words.imageBytes (.desc d))
      { WorkRegs.empty with mi := some 1#32, mc := some 1#8 }
  | .hdr h =>
    placeReplay s (.am .l2) (Words.imageBytes (.hdr h)) { WorkRegs.empty with mi := some 1#32 }
  | .command w =>
    match decodeCommand c w with
    | .instr .cwMw =>
      { s with
        seq := .running (.dspWrite 0#16 0#16) (.dw .l3) []
        wr := { WorkRegs.empty with ra := some 0#16, rd := some 0#16 }
        fwl := none
        grain := .operation }
    | .instr .cwMr =>
      { s with
        seq := .running (.dspRead 0#16) (.dr .l3) []
        wr := { WorkRegs.empty with ra := some 0#16 }
        fwl := none
        grain := .operation }
    | .instr .cwRr =>
      { s with
        seq := .running (.dspRead 0#16) (.dr .l6) []
        wr := { WorkRegs.empty with ra := some 0#16 }
        fwl := none
        grain := .operation }
    | _ => s

end Sys2Proof.Machine
end

