-- ==== Sys2Proof/Machine/Dispatch.lean ====
section
/-! DEFINITION. One arm per constructor of `Instr`, each one call of its meaning. -/

namespace Sys2Proof.Machine

def exec (i : Instr) (s : State) : Host.Outcome State Fault Refusal :=
  match i with
  | .waitReady => Sys2Proof.Machine.execWaitReady s
  | .dspWrite address data => Sys2Proof.Machine.execDspWrite address data s
  | .dspRead register => Sys2Proof.Machine.execDspRead register s
  | .applyMode modeIndex => Sys2Proof.Machine.execApplyMode modeIndex s
  | .modeGet => Sys2Proof.Machine.execModeGet s
  | .modeSet value => Sys2Proof.Machine.execModeSet value s
  | .evPowerUp => Sys2Proof.Machine.execEvPowerUp s
  | .evPowerDown => Sys2Proof.Machine.execEvPowerDown s
  | .evProbe => Sys2Proof.Machine.execEvProbe s
  | .wr address data pad => Sys2Proof.Machine.execWr address data pad s
  | .desc position entryCount => Sys2Proof.Machine.execDesc position entryCount s
  | .hdr modeCount => Sys2Proof.Machine.execHdr modeCount s
  | .cwMw => Sys2Proof.Machine.execCwMw s
  | .cwMr => Sys2Proof.Machine.execCwMr s
  | .cwRr => Sys2Proof.Machine.execCwRr s
  | .fwDeliver bytes => Sys2Proof.Machine.execFwDeliver bytes s

end Sys2Proof.Machine
end

