-- ==== Sys2Proof/Machine/Step.lean ====
section
/-! DEFINITION. One step of the machine (spec/10_state.md R21, R33): the loader's delivery when it is due, the
host's next request when the sequencer is idle, and otherwise the sequencer's next item or line. -/

namespace Sys2Proof.Machine

/-- The host issues its next request, or, when it has none, everything waits (10_state.md R21;
70_reset_and_hazards.md R260; log 5, log 7). -/
def stepIdle (s : State) : Host.Outcome State Fault Refusal :=
  match s.requests with
  | [] => .next s.tick
  | q :: rest =>
    match decodeRequest q with
    | .reject _ => .refused (.malformedRequest q)
    | .instr i =>
      match s.stepGrain with
      | .operation => exec i { s with requests := rest }
      | .line => begin i { s with requests := rest }

/-- The sequencer's next item or line (10_state.md R33; log 5). -/
def stepRunning (s : State) : Host.Outcome State Fault Refusal :=
  match s.stepGrain with
  | .line => seqStep Config.cfg s
  | .operation =>
    match fetchItem Config.cfg s with
    | none => seqStep Config.cfg s
    | some x => andThen x fun i => exec i s

/-- One step of the machine. A delivery that is due comes before anything else; with an image present it is
refused, also in the middle of an operation (41_firmware_replay.md R160, 60_exceptions.md R232). -/
def step (s : State) : Host.Outcome State Fault Refusal :=
  match s.dueDelivery with
  | some bytes => exec (.fwDeliver bytes) { s with fwl := none }
  | none =>
    match s.seq with
    | .idle => stepIdle s
    | .running _ _ _ => stepRunning s

/-- The state `s` with a table row's word stored where the next step takes its instruction from (log 9). -/
def State.withFetchWord (s : State) (nbits w : Nat) : State :=
  match Words.ofTable nbits w with
  | some ws => placeWords Config.cfg s ws
  | none => s

end Sys2Proof.Machine
end

