-- ==== Sys2Proof/Safety.lean ====
section
/-! DEFINITION. What counts as a safe run, in the terms the statements use: the answers the device will
give, the frame of an operation, the events the block may make, and the machine's invariant. -/

namespace Sys2Proof.Machine

/-! ## The device's answers to come -/

/-- The answer to the `k`-th transport call from now (10_state.md R46). -/
def State.upcoming (s : State) (k : Nat) : Answer :=
  match s.script[k]? with
  | some a => a
  | none => Config.freeAnswer (s.drawn + (k - s.script.length))

/-- The answers to the next `n` transport calls, in order. -/
def State.nextAnswers (s : State) (n : Nat) : List Answer := (List.range n).map s.upcoming

/-- The next answers are exactly those of `l`, in order. -/
def State.willAnswer (s : State) (l : List Answer) : Prop := s.nextAnswers l.length = l

/-- A status read that succeeds and shows busy (40_command_poll.md R132). -/
def isBusy (c : Cfg) : Answer → Bool
  | .ok v => busy c v
  | .err _ => false

/-- A status read that succeeds and shows idle (40_command_poll.md R132). -/
def isIdle (c : Cfg) : Answer → Bool
  | .ok v => !busy c v
  | .err _ => false

/-- A transport call that succeeds. -/
def isOk : Answer → Bool
  | .ok _ => true
  | .err _ => false

/-- The events of status reads answered so (30_encoding.md R113, `S:`). -/
def statusEvents (c : Cfg) (l : List Answer) : List Event := l.map fun a => .tr c.regStatus a

/-- `A(x)`, `D(x)` and `C(w)`, answered `Ok` (30_encoding.md R113). -/
def evA (c : Cfg) (x : W16) : Event := .tw c.regAddr (zext32 x) none
def evD (c : Cfg) (x : W16) : Event := .tw c.regData (zext32 x) none
def evC (c : Cfg) (w : W16) : Event := .tw c.regCmd (zext32 w) none

/-! ## Responses -/

/-- `Ok` without a payload. -/
def respOk : Response := ⟨0#3, 0#32, none⟩

/-- `Ok` with a payload. -/
def respVal (v : W32) : Response := ⟨0#3, v, none⟩

/-- `IoError` with the transport's own error. -/
def respIo (e : IoErr) : Response := ⟨1#3, 0#32, some e⟩

/-- `Busy`, `InvalidMode`, `OutOfBounds`, `NoFirmware` (60_exceptions.md R220). -/
def respBusy : Response := ⟨2#3, 0#32, none⟩
def respInvalidMode : Response := ⟨3#3, 0#32, none⟩
def respOutOfBounds : Response := ⟨4#3, 0#32, none⟩
def respNoFirmware : Response := ⟨5#3, 0#32, none⟩

/-- The report a host event makes of a response that carries an error (60_exceptions.md R220, R236). -/
def reportOf (p : Response) : List Event :=
  match p.st.toNat, p.e with
  | 1, some e => [.rp (.io e)]
  | 2, _ => [.rp .busy]
  | 3, _ => [.rp .invalidMode]
  | 4, _ => [.rp .outOfBounds]
  | 5, _ => [.rp .noFirmware]
  | _, _ => []

/-! ## Frames -/

/-- The image is what it was, or it is the one the loader was about to deliver, where there was none
(20_memory.md R61; 41_firmware_replay.md R160). -/
def imageKept (s t : State) : Prop :=
  t.fw = s.fw ∨
    (s.fw = none ∧ t.fwl = none ∧ ∃ d, s.fwl = some d ∧ t.fw = some (Memory.load d.bytes))

/-- What every operation but `MODE_SET` leaves behind beside its events and its response: the selection
and the image as they were, an idle sequencer, working registers without values, and the model's own
queue of requests and grain untouched (60_exceptions.md R233; 70_reset_and_hazards.md R278). -/
structure OpFrame (s t : State) : Prop where
  modeSel : t.modeSel = s.modeSel
  image : imageKept s t
  idle : t.seq = .idle
  noValues : t.wr = .empty
  requests : t.requests = s.requests
  grain : t.grain = s.grain

/-- What a single line or image item leaves alone: the selection, the image but for the loader, the model's
own queue and grain. -/
structure LineFrame (s t : State) : Prop where
  modeSel : t.modeSel = s.modeSel
  image : imageKept s t
  requests : t.requests = s.requests
  grain : t.grain = s.grain

/-- The registers of the replay that none of its entries writes (10_state.md R28). -/
def SameReplay (s t : State) : Prop :=
  t.wr.mi = s.wr.mi ∧ t.wr.mc = s.wr.mc ∧ t.wr.po = s.wr.po ∧ t.wr.ec = s.wr.ec

/-- The transport's error in an event, if the event is a failed call. -/
def Event.failure : Event → Option IoErr
  | .tr _ (.err e) => some e
  | .tr _ (.ok _) => none
  | .tw _ _ f => f
  | .tu _ _ _ f => f
  | .dl _ => none
  | .rp _ => none
  | .fq _ => none

/-- The register writes among events, as pairs of address and value. -/
def writesOf (l : List Event) : List (RegAddr × W32) :=
  l.filterMap fun e =>
    match e with
    | .tw a v _ => some (a, v)
    | _ => none

/-- The three register writes of one DSP write (40_command_poll.md R135). -/
def writesOfEntry (c : Cfg) (address data : W16) : List (RegAddr × W32) :=
  [(c.regAddr, zext32 address), (c.regData, zext32 data), (c.regCmd, zext32 c.cwMw)]

/-- The register writes of `n` entries from offset `e` on, in order, as the image holds them; entries the
image does not hold give none (30_encoding.md R99, R100). -/
def writesOfEntries (c : Cfg) (m : Memory) : Nat → Nat → List (RegAddr × W32)
  | 0, _ => []
  | n + 1, e =>
    match Memory.read m e, Memory.read m (e + 1), Memory.read m (e + 2), Memory.read m (e + 3) with
    | some b0, some b1, some b2, some b3 =>
      writesOfEntry c (bigEndian b0 b1) (bigEndian b2 b3) ++ writesOfEntries c m n (e + 5)
    | _, _, _, _ => []

/-- The answers to one DSP write that succeeds: the three writes', some busy reads', and the idle one
(40_command_poll.md R135). -/
structure EntryAnswers where
  address : W32
  data : W32
  command : W32
  polls : List Answer
  idle : W32
  deriving DecidableEq, Repr

/-- The answers in the order of the transport calls. -/
def EntryAnswers.all (q : EntryAnswers) : List Answer :=
  [Answer.ok q.address, Answer.ok q.data, Answer.ok q.command] ++ q.polls ++ [Answer.ok q.idle]

/-- At most ten busy reads, and then an idle one (40_command_poll.md R131). -/
def EntryAnswers.good (c : Cfg) (q : EntryAnswers) : Prop :=
  q.polls.length ≤ 10 ∧ (∀ a ∈ q.polls, isBusy c a = true) ∧ busy c q.idle = false

/-- The events of the entries from offset `e` on, each answered so, as the image holds them; entries the image
does not hold give none (41_firmware_replay.md R167). -/
def entryEvents (c : Cfg) (m : Memory) : List EntryAnswers → Nat → List Event
  | [], _ => []
  | q :: l, e =>
    match Memory.read m e, Memory.read m (e + 1), Memory.read m (e + 2), Memory.read m (e + 3) with
    | some b0, some b1, some b2, some b3 =>
      [evA c (bigEndian b0 b1), evD c (bigEndian b2 b3), evC c c.cwMw] ++
        statusEvents c (q.polls ++ [Answer.ok q.idle]) ++ entryEvents c m l (e + 5)
    | _, _, _, _ => []

/-- The most events an operation makes (70_reset_and_hazards.md R277; for `EV_PROBE`, the sum over its
lines, each with the report it may carry). -/
def eventBound : Instr → Nat
  | .waitReady => 11
  | .dspWrite _ _ => 14
  | .dspRead _ => 51
  | .applyMode _ => 255 * 14
  | .modeGet => 0
  | .modeSet _ => 0
  | .evPowerUp => 3 + 255 * 14 + 3
  | .evPowerDown => 15
  | .evProbe => 2 + 5 + 255 * 14 + 1 + 15 + 2 + 1
  | .wr _ _ _ => 14
  | .desc _ _ => 0
  | .hdr _ => 0
  | .cwMw => 1
  | .cwMr => 1
  | .cwRr => 1
  | .fwDeliver _ => 0

/-! ## The events the block may make -/

/-- The transport calls, delays and requests the rules name, and no others: reads of the status and the
data-out register (20_memory.md R66), writes of 16-bit values to the address and data registers and of the
three command words to the command register (R67; 30_encoding.md R110), updates of the reset and the
power-domain bit (10_state.md R45), the two settle delays, reports, and the one firmware request. -/
def allowedEvent (c : Cfg) : Event → Prop
  | .tr a _ => a = c.regStatus ∨ a = c.regDout
  | .tw a v _ =>
    (∃ x : W16, v = zext32 x ∧ (a = c.regAddr ∨ a = c.regData)) ∨
      (a = c.regCmd ∧ (v = zext32 c.cwMw ∨ v = zext32 c.cwMr ∨ v = zext32 c.cwRr))
  | .tu a m v _ =>
    (a = c.rstReg ∧ m = c.rstMask ∧ (v = c.rstAssert ∨ v = c.rstDeassert)) ∨
      (a = c.pwrReg ∧ m = c.pwrMask ∧ (v = c.pwrOn ∨ v = c.pwrOff))
  | .dl t => t = c.tResetSettle ∨ t = c.tProbeSettle
  | .rp _ => True
  | .fq n => n = c.fwName

/-! ## The invariant -/

/-- The procedures of the pseudocode (10_state.md R33). -/
inductive Proc where
  | wt | dw | dr | am | mg | ms | rs | pw | pd | pu | pb
  deriving DecidableEq, Repr

/-- The procedure a line belongs to. -/
def Label.proc : Label → Proc
  | .wt _ => .wt
  | .dw _ => .dw
  | .dr _ => .dr
  | .am _ => .am
  | .mg => .mg
  | .ms _ => .ms
  | .rs _ => .rs
  | .pw _ => .pw
  | .pd _ => .pd
  | .pu _ => .pu
  | .pb _ => .pb

/-- The procedure that a calling line calls (10_state.md R28). -/
def calledProc : Label → Option Proc
  | .dw .l4 => some .wt
  | .dr .l1 => some .wt
  | .dr .l4 => some .wt
  | .dr .l7 => some .wt
  | .dr .l10 => some .wt
  | .am .l10 => some .dw
  | .pw .l0 => some .dw
  | .pd .l0 => some .pw
  | .pu .l0 => some .rs
  | .pu .l1 => some .am
  | .pb .l1 => some .rs
  | .pb .l2 => some .am
  | .pb .l4 => some .pw
  | _ => none

/-- Procedure `p` runs under the calls the stack records, down to the operation's own procedure
(10_state.md R28, R33). -/
def chainOk (op : Instr) (p : Proc) : List Label → Bool
  | [] => (entryLine op).map Label.proc == some p
  | l :: stack => calledProc l == some p && chainOk op l.proc stack

/-- `PCNT` holds a number of status reads between `lo` and `hi` (10_state.md R25). -/
def pcntWithin (lo hi : Nat) (wr : WorkRegs) : Bool :=
  match wr.pcnt with
  | none => false
  | some n => lo ≤ n.toNat && n.toNat ≤ hi

/-- The replay stands at an entry of the applied mode, or, if `last` allows it, behind the last one; the
region lies inside the image (10_state.md R26, R34, R35). -/
def replayAt (last : Bool) (s : State) : Bool :=
  match s.fw, s.wr.po, s.wr.ec, s.wr.ei, s.wr.ep with
  | some m, some po, some ec, some ei, some ep =>
    (if last then ei.toNat ≤ ec.toNat else ei.toNat < ec.toNat) &&
      ep.toNat == po.toNat + 5 * ei.toNat && po.toNat + 5 * ec.toNat ≤ Memory.size m
  | _, _, _, _, _ => false

/-- The values a line, or the line after a call, reads are there (10_state.md R31). -/
def lineReady (c : Cfg) (s : State) : Label → Bool
  | .wt .l0 => true
  | .wt .l1 => pcntWithin 0 10 s.wr
  | .wt .l2 => s.wr.rv.isSome && pcntWithin 1 11 s.wr
  | .wt .l3 => s.wr.rv.isSome && pcntWithin 1 11 s.wr
  | .dw .l0 => true
  | .dw .l1 => s.wr.ra.isSome && s.wr.rd.isSome
  | .dw .l2 => s.wr.rd.isSome
  | .dw .l3 => true
  | .dw .l4 => true
  | .dw .l5 => true
  | .dr .l0 => true
  | .dr .l1 => s.wr.ra.isSome
  | .dr .l2 => s.wr.ra.isSome
  | .dr .l3 => true
  | .dr .l4 => true
  | .dr .l5 => true
  | .dr .l6 => true
  | .dr .l7 => true
  | .dr .l8 => true
  | .dr .l9 => true
  | .dr .l10 => true
  | .dr .l11 => true
  | .dr .l12 => s.wr.rv.isSome
  | .am .l0 => true
  | .am .l1 => s.wr.mi.isSome
  | .am .l2 => s.wr.mi.isSome && s.fw.isSome
  | .am .l3 => s.wr.mi.isSome && s.wr.mc.isSome && s.fw.isSome
  | .am .l4 => s.wr.mi.isSome && s.fw.isSome
  | .am .l5 => s.fw.isSome && (s.wr.mi.bind (descOff c)).isSome
  | .am .l6 => s.wr.po.isSome && s.wr.ec.isSome && s.fw.isSome
  | .am .l7 =>
    match s.fw, s.wr.po, s.wr.ec with
    | some m, some po, some ec => regionEnd po ec ≤ Memory.size m
    | _, _, _ => false
  | .am .l8 => replayAt true s
  | .am .l9 => replayAt false s
  | .am .l10 => replayAt false s && s.wr.ra.isSome && s.wr.rd.isSome
  | .am .l11 => replayAt false s
  | .mg => true
  | .ms _ => true
  | .rs _ => true
  | .pw .l0 => true
  | .pw .l1 => s.wr.st.isSome
  | .pw .l2 => true
  | .pd _ => true
  | .pu .l0 => true
  | .pu .l1 => true
  | .pu .l2 => s.wr.st.isSome
  | .pu .l3 => true
  | .pb _ => true

/-- The image has its canonical form (Machine/Ops.lean `Memory.wf`). -/
def imageWf (s : State) : Bool :=
  match s.fw with
  | none => true
  | some m => Memory.wf m

/-- The sequencer is idle and the working registers hold no value, or it runs a chain of procedures the
pseudocode has, and every line on it finds the values it will read (10_state.md R28, R31, R33). -/
def seqWf (c : Cfg) (s : State) : Bool :=
  match s.seq with
  | .idle => s.wr == .empty
  | .running op upc stack =>
    chainOk op upc.proc stack && lineReady c s upc && stack.all (lineReady c s)

/-- The machine's invariant. -/
def inv (s : State) : Bool := imageWf s && seqWf Config.cfg s

/-- A run may end here (70_reset_and_hazards.md R278): no operation runs and no request is outstanding. That no
fault and no refusal happened is that the run reached this state at all. -/
def State.final (s : State) : Bool := s.seq == .idle && s.requests.isEmpty

end Sys2Proof.Machine
end

