-- ==== Sys2Proof/WellFormed.lean ====
section
/-! DEFINITION. Well-formedness as named checks: of an instruction, and of a pair of a firmware image
and a mode index (spec/30_encoding.md R115). -/

namespace Sys2Proof

/-- Whether an instruction is the one its words name. Operand types carry the widths of
00_scope.md R7, so nothing else can be ill-formed; only a command word whose value an earlier-listed
command word shares is not told apart by its 16 bits (30_encoding.md R102; log 11). -/
def Instr.wellFormed (c : Cfg) : Instr → Bool
  | .waitReady => true
  | .dspWrite _ _ => true
  | .dspRead _ => true
  | .applyMode _ => true
  | .modeGet => true
  | .modeSet _ => true
  | .evPowerUp => true
  | .evPowerDown => true
  | .evProbe => true
  | .wr _ _ _ => true
  | .desc _ _ => true
  | .hdr _ => true
  | .cwMw => true
  | .cwMr => c.cwMr != c.cwMw
  | .cwRr => c.cwRr != c.cwMw && c.cwRr != c.cwMr
  | .fwDeliver _ => true

end Sys2Proof
end

