-- ==== Sys2Proof/Certificates/Slice0/Obligations.lean ====
section
/-! DEFINITION. The statements about the machine, each from the rules of spec/ its docstring names. They say
nothing about a program. `Config.cfg` is free, so each holds for every assignment of the parameters. -/

open Sys2Proof Sys2Proof.Machine

/-! ## Encoding -/

/-- 30_encoding.md R93, R95, R98, R99 on words written out by hand (95_test_vectors.md T-ENC, T-WR, T-DS). -/
def Obligations.SampleWordsDecodeAsTheTablesSay : Prop :=
  decodeRequest 0x20000001000022F9#64 = .instr (.dspWrite 0x22F9#16 0x0001#16) ∧
    decodeRequest 0x30000000000022F9#64 = .instr (.dspRead 0x22F9#16) ∧
    decodeRequest 0x40000000FFFFFFFF#64 = .instr (.applyMode 0xFFFFFFFF#32) ∧
    decodeRequest 0x9000000000000000#64 = .instr .evProbe ∧
    decodeRequest 0x20000001000122F9#64 = .reject .operandNonzero ∧
    decodeRequest 0xA000000000000000#64 = .reject .unassignedOp ∧
    decodeEntry 0x0102030405#40 = .wr 0x0102#16 0x0304#16 0x05#8 ∧
    decodeDesc 0x000503#24 = .desc 0x0005#16 3#8 ∧
    decodeHdr 0x02#8 = .hdr 2#8

/-- Decode and encode agree, for every well-formed instruction of every format, with every operand at every
value (30_encoding.md R93, R95, R98, R99, R102, R106). -/
def Obligations.DecodeOfEncodeIsTheInstruction : Prop :=
  ∀ (c : Cfg) (i : Instr) (w : Words), i.wellFormed c = true → encode c i = some w →
    decode c w = .instr i

/-- 30_encoding.md R93: a word selects a row exactly when `Q AND mask = match`, and the operands stand where
the row says. -/
def Obligations.RequestRowsAreTheirMasksAndMatches : Prop :=
  ∀ q : Q64,
    (decodeRequest q = .instr .waitReady ↔
      q &&& 0xFFFFFFFFFFFFFFFF#64 = 0x1000000000000000#64) ∧
    (∀ a d, decodeRequest q = .instr (.dspWrite a d) ↔
      q &&& 0xFFFF0000FFFF0000#64 = 0x2000000000000000#64 ∧ a = q.extractLsb' 0 16 ∧
        d = q.extractLsb' 32 16) ∧
    (∀ r, decodeRequest q = .instr (.dspRead r) ↔
      q &&& 0xFFFFFFFFFFFF0000#64 = 0x3000000000000000#64 ∧ r = q.extractLsb' 0 16) ∧
    (∀ m, decodeRequest q = .instr (.applyMode m) ↔
      q &&& 0xFFFFFFFF00000000#64 = 0x4000000000000000#64 ∧ m = q.extractLsb' 0 32) ∧
    (decodeRequest q = .instr .modeGet ↔
      q &&& 0xFFFFFFFFFFFFFFFF#64 = 0x5000000000000000#64) ∧
    (∀ v, decodeRequest q = .instr (.modeSet v) ↔
      q &&& 0xFFFFFFFF00000000#64 = 0x6000000000000000#64 ∧ v = q.extractLsb' 0 32) ∧
    (decodeRequest q = .instr .evPowerUp ↔
      q &&& 0xFFFFFFFFFFFFFFFF#64 = 0x7000000000000000#64) ∧
    (decodeRequest q = .instr .evPowerDown ↔
      q &&& 0xFFFFFFFFFFFFFFFF#64 = 0x8000000000000000#64) ∧
    (decodeRequest q = .instr .evProbe ↔
      q &&& 0xFFFFFFFFFFFFFFFF#64 = 0x9000000000000000#64)

/-- 30_encoding.md R109: unassigned `op` values, a nonzero `rsv`, and a nonzero bit in a field the row
requires to be 0 select no operation, and the request is refused. -/
def Obligations.ReservedRequestsAreRefused : Prop :=
  ∀ (s : State) (q : Q64) (rest : List Q64), s.seq = .idle → s.dueDelivery = none →
    s.requests = q :: rest →
    (let op := (q.extractLsb' 60 4).toNat
     op = 0 ∨ 10 ≤ op ∨ q.extractLsb' 48 12 ≠ 0#12 ∨
      (op ∈ [1, 5, 7, 8, 9] ∧ (q.extractLsb' 32 16 ≠ 0#16 ∨ q.extractLsb' 0 32 ≠ 0#32)) ∨
      (op = 2 ∧ q.extractLsb' 16 16 ≠ 0#16) ∨
      (op = 3 ∧ (q.extractLsb' 32 16 ≠ 0#16 ∨ q.extractLsb' 16 16 ≠ 0#16)) ∨
      (op ∈ [4, 6] ∧ q.extractLsb' 32 16 ≠ 0#16)) →
    step s = .refused (.malformedRequest q)

/-! ## Steps -/

/-- A step of an idle machine runs the operation its next request word decodes to: as one step, or, at the
grain of lines and where a second delivery is to come, by taking it (10_state.md R21, R40; the two grains are
the model's choice, log 5). -/
def Obligations.StepRunsTheRequestedOperation : Prop :=
  ∀ (s : State) (q : Q64) (rest : List Q64) (i : Instr), s.seq = .idle → s.dueDelivery = none →
    s.requests = q :: rest → decodeRequest q = .instr i →
    (s.grain = .operation → s.fw = none ∨ s.fwl = none → step s = exec i { s with requests := rest }) ∧
    (s.grain = .line ∨ (s.fw ≠ none ∧ s.fwl ≠ none) → step s = begin i { s with requests := rest })

/-- A step of a running machine runs the item its line fetches, where it fetches one and the grain is the
operation's, and otherwise performs the one line `UPC` names, so always where a second delivery is to come
(10_state.md R33; log 5); a delivery that is due is a step of its own (10_state.md R21). -/
def Obligations.StepRunsTheFetchedItemOrTheLine : Prop :=
  ∀ (s : State) (op : Instr) (upc : Label) (stack : List Label), s.seq = .running op upc stack →
    (∀ bytes, s.dueDelivery = some bytes → step s = exec (.fwDeliver bytes) { s with fwl := none }) ∧
    (s.dueDelivery = none →
      (s.grain = .operation → s.fw = none ∨ s.fwl = none →
        (∀ i, fetchItem Config.cfg s = some (.next i) → step s = exec i s) ∧
        (∀ f, fetchItem Config.cfg s = some (.fault f) → step s = .fault f) ∧
        (fetchItem Config.cfg s = none → step s = lineAt Config.cfg op upc stack s.tick)) ∧
      (s.grain = .line ∨ (s.fw ≠ none ∧ s.fwl ≠ none) →
        step s = lineAt Config.cfg op upc stack s.tick))

/-- The words of an instruction, placed where the machine takes its next ones, are what the next step runs
(log 9). For a request the step takes it off the host's queue. -/
def Obligations.PlacedWordsRunNext : Prop :=
  ∀ (s : State) (i : Instr) (w : Words), encode Config.cfg i = some w → i.wellFormed Config.cfg = true →
    step (placeWords Config.cfg s w) =
      exec i { placeWords Config.cfg s w with requests := s.requests }

/-! ## The engine -/

/-- 40_command_poll.md R131: `WAIT_READY` reads the status register until it shows idle, at most 11 times. -/
def Obligations.WaitReadyPollsUntilIdleAtMostElevenTimes : Prop :=
  ∀ s : State, s.seq = .idle →
    (∀ (l : List Answer) (v : W32), l.length ≤ 10 → (∀ a ∈ l, isBusy Config.cfg a = true) →
      busy Config.cfg v = false → s.willAnswer (l ++ [Answer.ok v]) →
      ∃ t, exec .waitReady s = .next t ∧
        t.trace = s.trace ++ statusEvents Config.cfg (l ++ [Answer.ok v]) ∧ t.resp = some respOk ∧
        OpFrame s t) ∧
    (∀ (l : List Answer) (e : IoErr), l.length ≤ 10 → (∀ a ∈ l, isBusy Config.cfg a = true) →
      s.willAnswer (l ++ [Answer.err e]) →
      ∃ t, exec .waitReady s = .next t ∧
        t.trace = s.trace ++ statusEvents Config.cfg (l ++ [Answer.err e]) ∧ t.resp = some (respIo e) ∧
        OpFrame s t) ∧
    (∀ l : List Answer, l.length = 11 → (∀ a ∈ l, isBusy Config.cfg a = true) → s.willAnswer l →
      ∃ t, exec .waitReady s = .next t ∧
        t.trace = s.trace ++ statusEvents Config.cfg l ∧ t.resp = some respBusy ∧ OpFrame s t)

/-- 40_command_poll.md R133: the laws (a) to (e) of `wait_ready`; (d) counts the sequencer's lines. -/
def Obligations.WaitReadyLaws : Prop :=
  ∀ s : State, s.seq = .idle →
    ∃ t l, exec .waitReady s = .next t ∧ t.trace = s.trace ++ statusEvents Config.cfg l ∧
      s.willAnswer l ∧ l.length ≤ 11 ∧
      (t.resp = some respBusy ↔ l.length = 11 ∧ ∀ a ∈ l, isBusy Config.cfg a = true) ∧
      (t.resp = some respOk ↔ ∃ k v, l = k ++ [Answer.ok v] ∧ busy Config.cfg v = false ∧
        ∀ a ∈ k, isBusy Config.cfg a = true) ∧
      (∀ e, t.resp = some (respIo e) ↔ ∃ k, l = k ++ [Answer.err e] ∧
        ∀ a ∈ k, isBusy Config.cfg a = true) ∧
      ∃ b n, begin .waitReady s = .next b ∧ n ≤ 1 + 3 * 11 ∧ seqRun Config.cfg n b = .next t

/-- 40_command_poll.md R135: `DSP_WRITE` with its encoding and its outcomes, for every address and data, by the
first thing that goes wrong (R136 has the same as a table). -/
def Obligations.DspWriteFollowsItsAbortTable : Prop :=
  ∀ (s : State) (a d : W16), s.seq = .idle →
    decodeRequest (0x2#4 ++ 0#12 ++ d ++ 0#16 ++ a) = .instr (.dspWrite a d) ∧
    (∀ e, s.willAnswer [Answer.err e] → ∃ t, exec (.dspWrite a d) s = .next t ∧
      t.trace = s.trace ++ [Event.tw Config.cfg.regAddr (zext32 a) (some e)] ∧
      t.resp = some (respIo e) ∧ OpFrame s t) ∧
    (∀ x e, s.willAnswer [Answer.ok x, Answer.err e] → ∃ t, exec (.dspWrite a d) s = .next t ∧
      t.trace = s.trace ++ [evA Config.cfg a, Event.tw Config.cfg.regData (zext32 d) (some e)] ∧
      t.resp = some (respIo e) ∧ OpFrame s t) ∧
    (∀ x y e, s.willAnswer [Answer.ok x, Answer.ok y, Answer.err e] → ∃ t, exec (.dspWrite a d) s = .next t ∧
      t.trace = s.trace ++ [evA Config.cfg a, evD Config.cfg d,
        Event.tw Config.cfg.regCmd (zext32 Config.cfg.cwMw) (some e)] ∧
      t.resp = some (respIo e) ∧ OpFrame s t) ∧
    (∀ x y z, ∀ l : List Answer, (∀ r ∈ l, isBusy Config.cfg r = true) →
      (∀ e, l.length ≤ 10 → s.willAnswer ([Answer.ok x, Answer.ok y, Answer.ok z] ++ l ++ [Answer.err e]) →
        ∃ t, exec (.dspWrite a d) s = .next t ∧
        t.trace = s.trace ++ [evA Config.cfg a, evD Config.cfg d, evC Config.cfg Config.cfg.cwMw] ++
          statusEvents Config.cfg (l ++ [Answer.err e]) ∧ t.resp = some (respIo e) ∧ OpFrame s t) ∧
      (l.length = 11 → s.willAnswer ([Answer.ok x, Answer.ok y, Answer.ok z] ++ l) →
        ∃ t, exec (.dspWrite a d) s = .next t ∧
        t.trace = s.trace ++ [evA Config.cfg a, evD Config.cfg d, evC Config.cfg Config.cfg.cwMw] ++
          statusEvents Config.cfg l ∧ t.resp = some respBusy ∧ OpFrame s t) ∧
      (∀ v, l.length ≤ 10 → busy Config.cfg v = false →
        s.willAnswer ([Answer.ok x, Answer.ok y, Answer.ok z] ++ l ++ [Answer.ok v]) →
        ∃ t, exec (.dspWrite a d) s = .next t ∧
        t.trace = s.trace ++ [evA Config.cfg a, evD Config.cfg d, evC Config.cfg Config.cfg.cwMw] ++
          statusEvents Config.cfg (l ++ [Answer.ok v]) ∧ t.resp = some respOk ∧ OpFrame s t))

/-- 40_command_poll.md R140, R141: the four-phase read, whatever the number of polls in each wait, and its
raw 32-bit result. -/
def Obligations.DspReadRunsItsFourPhasesAndReturnsTheRawValue : Prop :=
  ∀ (s : State) (r : W16) (l1 l2 l3 l4 : List Answer) (v1 v2 v3 v4 x1 x2 x3 x4 x5 x6 v : W32),
    s.seq = .idle →
    (∀ l ∈ [l1, l2, l3, l4], l.length ≤ 10 ∧ ∀ a ∈ l, isBusy Config.cfg a = true) →
    (∀ w ∈ [v1, v2, v3, v4], busy Config.cfg w = false) →
    s.willAnswer ((l1 ++ [Answer.ok v1]) ++ [Answer.ok x1, Answer.ok x2] ++ (l2 ++ [Answer.ok v2]) ++ [Answer.ok x3, Answer.ok x4] ++
      (l3 ++ [Answer.ok v3]) ++ [Answer.ok x5, Answer.ok x6] ++ (l4 ++ [Answer.ok v4]) ++ [Answer.ok v]) →
    ∃ t, exec (.dspRead r) s = .next t ∧
      t.trace = s.trace ++ (statusEvents Config.cfg (l1 ++ [Answer.ok v1]) ++
        [evA Config.cfg r, evC Config.cfg Config.cfg.cwMr] ++
        statusEvents Config.cfg (l2 ++ [Answer.ok v2]) ++
        [evA Config.cfg 0x0026#16, evC Config.cfg Config.cfg.cwRr] ++
        statusEvents Config.cfg (l3 ++ [Answer.ok v3]) ++
        [evA Config.cfg 0x0025#16, evC Config.cfg Config.cfg.cwRr] ++
        statusEvents Config.cfg (l4 ++ [Answer.ok v4]) ++ [Event.tr Config.cfg.regDout (Answer.ok v)]) ∧
      t.resp = some (respVal v) ∧ OpFrame s t

/-- 40_command_poll.md R143: a read that stays busy at its N-th wait fails there, with no further access. -/
def Obligations.DspReadAbortsAtTheBusyWait : Prop :=
  ∀ (s : State) (r : W16) (l : List Answer) (v1 v2 v3 x1 x2 x3 x4 x5 x6 : W32), s.seq = .idle →
    l.length = 11 → (∀ a ∈ l, isBusy Config.cfg a = true) →
    (∀ w ∈ [v1, v2, v3], busy Config.cfg w = false) →
    let phase (n : Nat) (before : List Answer) (evs : List Event) : Prop :=
      s.willAnswer (before ++ l) →
      ∃ t, exec (.dspRead r) s = .next t ∧
        t.trace = s.trace ++ (evs ++ statusEvents Config.cfg l) ∧
        (evs ++ statusEvents Config.cfg l).length = n ∧ t.resp = some respBusy ∧ OpFrame s t
    let S (v : W32) : Event := Event.tr Config.cfg.regStatus (Answer.ok v)
    phase 11 [] [] ∧
    phase 14 [Answer.ok v1, Answer.ok x1, Answer.ok x2] [S v1, evA Config.cfg r, evC Config.cfg Config.cfg.cwMr] ∧
    phase 17 [Answer.ok v1, Answer.ok x1, Answer.ok x2, Answer.ok v2, Answer.ok x3, Answer.ok x4]
      [S v1, evA Config.cfg r, evC Config.cfg Config.cfg.cwMr, S v2, evA Config.cfg 0x26#16,
        evC Config.cfg Config.cfg.cwRr] ∧
    phase 20 [Answer.ok v1, Answer.ok x1, Answer.ok x2, Answer.ok v2, Answer.ok x3, Answer.ok x4, Answer.ok v3, Answer.ok x5, Answer.ok x6]
      [S v1, evA Config.cfg r, evC Config.cfg Config.cfg.cwMr, S v2, evA Config.cfg 0x26#16,
        evC Config.cfg Config.cfg.cwRr, S v3, evA Config.cfg 0x25#16, evC Config.cfg Config.cfg.cwRr]

/-- The engine's operations, the power-down event and the reading of the selection complete from every state
of an idle sequencer, whatever the device answers (70_reset_and_hazards.md R263, R277). -/
def Obligations.EngineOperationsAlwaysComplete : Prop :=
  ∀ (s : State) (i : Instr), s.seq = .idle →
    (i = .waitReady ∨ (∃ a d, i = .dspWrite a d) ∨ (∃ r, i = .dspRead r) ∨ i = .evPowerDown ∨
      i = .modeGet) →
    ∃ t, exec i s = .next t ∧ OpFrame s t ∧ ∃ p, t.resp = some p

/-- The frame of every host operation but `MODE_SET`: the selection and the image stay as they were, the
sequencer is idle and the working registers hold no value (60_exceptions.md R233; 70_reset_and_hazards.md
R278). -/
def Obligations.OperationsKeepSelectionAndImage : Prop :=
  ∀ (s t : State) (i : Instr), i.isHostRequest = true → (∀ v, i ≠ .modeSet v) → exec i s = .next t →
    OpFrame s t

/-- 60_exceptions.md R233, the precise abort: in an operation that returns its errors, a failed transport
call is the last event, and the response is `IoError` exactly when there is one, with its error unchanged. -/
def Obligations.AFailedCallIsTheLastEventAndTheResponse : Prop :=
  ∀ (s t : State) (i : Instr),
    (i = .waitReady ∨ (∃ a d, i = .dspWrite a d) ∨ (∃ r, i = .dspRead r) ∨ ∃ m, i = .applyMode m) →
    exec i s = .next t →
    ∃ evs, t.trace = s.trace ++ evs ∧ (∀ ev ∈ evs.dropLast, ev.failure = none) ∧
      ∀ e, t.resp = some (respIo e) ↔ (evs.getLast?.bind Event.failure) = some e

/-! ## The loader and the replay -/

/-- 41_firmware_replay.md R161: a delivery of any bytes is stored as it is; it parses nothing, changes no
register and appends nothing. -/
def Obligations.FirmwareIsStoredAsItIs : Prop :=
  ∀ (s : State) (bytes : List Byte), s.fw = none →
    ∃ m, exec (.fwDeliver bytes) s = .next { s with fw := some m } ∧ Memory.wf m = true ∧
      Memory.size m = bytes.length ∧ ∀ o, Memory.read m o = bytes[o]?

/-- 41_firmware_replay.md R160, 60_exceptions.md R232: with an image present a delivery is refused (the spec's
own decision D13), and the step refuses it as soon as it is due, whatever the sequencer does. -/
def Obligations.ASecondDeliveryIsRefused : Prop :=
  ∀ (s : State) (bytes : List Byte), s.fw ≠ none →
    exec (.fwDeliver bytes) s = .refused .secondDelivery ∧
    (s.fwl = some ⟨0, bytes⟩ → step s = .refused .secondDelivery)

/-- 41_firmware_replay.md R162: a delivery may fall between any two lines; `APPLY_MODE` sees it exactly when it
falls in front of its one test, its second line. -/
def Obligations.DeliveryIsSeenIffItPrecedesTheTest : Prop :=
  ∀ (s : State) (index : W32) (k : Nat) (bytes : List Byte), s.fw = none → s.fwl = some ⟨k, bytes⟩ →
    (k = 0 → step s = .next { s with fw := some (Memory.load bytes), fwl := none }) ∧
    (s.seq = .idle →
      (k ≤ 1 → exec (.applyMode index) s =
        exec (.applyMode index) { s with fw := some (Memory.load bytes), fwl := none }) ∧
      (2 ≤ k → ∃ t, exec (.applyMode index) s = .next t ∧ t.trace = s.trace ∧
        t.resp = some respNoFirmware ∧ t.fw = none ∧ t.fwl = some ⟨k - 2, bytes⟩ ∧ OpFrame s t))

/-- 30_encoding.md R115 with 41_firmware_replay.md R165: what `APPLY_MODE` decides, check by check in their
order, and that nothing is performed before every check has passed. -/
def Obligations.ApplyModeChecksInOrder : Prop :=
  ∀ (s : State) (m : Memory) (index : W32), s.seq = .idle → s.fw = some m → Memory.wf m = true →
    let answers (p : Response) : Prop :=
      ∃ t, exec (.applyMode index) s = .next t ∧ t.trace = s.trace ∧ t.resp = some p ∧ OpFrame s t
    (Memory.size m = 0 → exec (.applyMode index) s = .fault (.imgFetch 0)) ∧
    (index ≠ 0#32 → descOff Config.cfg index = some (2 + (index.toNat - 1) * 3)) ∧
    descOff Config.cfg 0#32 = Config.cfg.mode0DescOff ∧
    (∀ n, Memory.read m 0 = some n →
      (n.toNat < index.toNat → answers respInvalidMode) ∧
      (index.toNat ≤ n.toNat →
        match descOff Config.cfg index with
        | none => answers respOk
        | some d =>
          (Memory.size m < d + 3 →
            exec (.applyMode index) s = .fault (.imgFetch (max d (Memory.size m)))) ∧
          ∀ b0 b1 b2, Memory.read m d = some b0 → Memory.read m (d + 1) = some b1 →
            Memory.read m (d + 2) = some b2 →
            (Memory.size m < 256 * b0.toNat + b1.toNat + 5 * b2.toNat → answers respOutOfBounds) ∧
            (256 * b0.toNat + b1.toNat + 5 * b2.toNat ≤ Memory.size m →
              ∃ t, exec (.applyMode index) s = .next t ∧ OpFrame s t)))

/-- 41_firmware_replay.md R165 `AM.1`: without an image, and none coming, `APPLY_MODE` answers `NoFirmware` for
every index and performs nothing. -/
def Obligations.ApplyModeWithoutFirmware : Prop :=
  ∀ (s : State) (index : W32), s.seq = .idle → s.fw = none → s.fwl = none →
    ∃ t, exec (.applyMode index) s = .next t ∧ t.trace = s.trace ∧ t.resp = some respNoFirmware ∧
      t.fw = none ∧ OpFrame s t

/-- 41_firmware_replay.md R165, R167, R170: the register writes of a replay are those of the mode's entries, in
order from the first; all of them when it answers `Ok`, and only a beginning of them otherwise. -/
def Obligations.ReplayWritesTheEntriesInOrder : Prop :=
  ∀ (s t : State) (m : Memory) (index : W32) (n b0 b1 b2 : Byte) (d : Nat), s.seq = .idle →
    s.fw = some m → Memory.wf m = true → Memory.read m 0 = some n → index.toNat ≤ n.toNat →
    descOff Config.cfg index = some d → Memory.read m d = some b0 → Memory.read m (d + 1) = some b1 →
    Memory.read m (d + 2) = some b2 →
    256 * b0.toNat + b1.toNat + 5 * b2.toNat ≤ Memory.size m →
    exec (.applyMode index) s = .next t →
    ∃ evs, t.trace = s.trace ++ evs ∧
      writesOf evs <+:
        writesOfEntries Config.cfg m b2.toNat (256 * b0.toNat + b1.toNat) ∧
      (t.resp = some respOk →
        writesOf evs = writesOfEntries Config.cfg m b2.toNat (256 * b0.toNat + b1.toNat))

/-- 41_firmware_replay.md R165, R167: with every check passed, on a device that fails no access and turns idle
within the poll limit at every entry, `APPLY_MODE` performs exactly the DSP writes of the mode's entries, in
order, and answers `Ok`. -/
def Obligations.ApplyModeReplaysEveryEntry : Prop :=
  ∀ (s : State) (m : Memory) (index : W32) (n b0 b1 b2 : Byte) (d : Nat) (l : List EntryAnswers),
    s.seq = .idle → s.fw = some m → Memory.wf m = true → Memory.read m 0 = some n →
    index.toNat ≤ n.toNat → descOff Config.cfg index = some d → Memory.read m d = some b0 →
    Memory.read m (d + 1) = some b1 → Memory.read m (d + 2) = some b2 →
    256 * b0.toNat + b1.toNat + 5 * b2.toNat ≤ Memory.size m →
    l.length = b2.toNat → (∀ q ∈ l, q.good Config.cfg) → s.willAnswer (l.flatMap EntryAnswers.all) →
    ∃ t, exec (.applyMode index) s = .next t ∧
      t.trace = s.trace ++ entryEvents Config.cfg m l (256 * b0.toNat + b1.toNat) ∧
      t.resp = some respOk ∧ OpFrame s t

/-- 41_firmware_replay.md R169: `InvalidMode`, `OutOfBounds` and `NoFirmware` come without any event, and events
are made only once every check has passed, of the image that is then present. -/
def Obligations.NothingIsWrittenBeforeEveryCheckHasPassed : Prop :=
  ∀ (s : State) (index : W32), s.seq = .idle →
    let passed (m : Memory) (n : Byte) (d : Nat) (b0 b1 b2 : Byte) : Prop :=
      Memory.read m 0 = some n ∧ index.toNat ≤ n.toNat ∧ descOff Config.cfg index = some d ∧
        Memory.read m d = some b0 ∧ Memory.read m (d + 1) = some b1 ∧ Memory.read m (d + 2) = some b2
    let silent (p : Response) : Prop :=
      ∃ t, exec (.applyMode index) s = .next t ∧ t.resp = some p ∧ t.trace = s.trace
    (∀ m n, s.fw = some m → Memory.read m 0 = some n → n.toNat < index.toNat → silent respInvalidMode) ∧
    (∀ m n d b0 b1 b2, s.fw = some m → passed m n d b0 b1 b2 →
      Memory.size m < 256 * b0.toNat + b1.toNat + 5 * b2.toNat → silent respOutOfBounds) ∧
    (s.fw = none → s.fwl = none → silent respNoFirmware) ∧
    ∀ t, exec (.applyMode index) s = .next t → t.trace ≠ s.trace →
      ∃ m n d b0 b1 b2, t.fw = some m ∧ passed m n d b0 b1 b2 ∧
        256 * b0.toNat + b1.toNat + 5 * b2.toNat ≤ Memory.size m

/-- 41_firmware_replay.md R170: when entry `j` is the first whose write fails, the trace gains the complete events
of the entries before it and those of its failed write, and nothing else; the response is that write's. The
failed write is told by running it alone: `u` to `v`, with the answers `ans` that it uses up. -/
def Obligations.AReplayStopsAtTheFirstFailedEntry : Prop :=
  ∀ (s u v : State) (m : Memory) (index : W32) (n b0 b1 b2 c0 c1 c2 c3 : Byte) (d : Nat)
    (l : List EntryAnswers) (ans : List Answer) (evs : List Event) (p : Response),
    let e := 256 * b0.toNat + b1.toNat
    s.seq = .idle → s.fw = some m → Memory.wf m = true → Memory.read m 0 = some n →
    index.toNat ≤ n.toNat → descOff Config.cfg index = some d → Memory.read m d = some b0 →
    Memory.read m (d + 1) = some b1 → Memory.read m (d + 2) = some b2 →
    e + 5 * b2.toNat ≤ Memory.size m →
    l.length < b2.toNat → (∀ q ∈ l, q.good Config.cfg) →
    Memory.read m (e + 5 * l.length) = some c0 → Memory.read m (e + 5 * l.length + 1) = some c1 →
    Memory.read m (e + 5 * l.length + 2) = some c2 → Memory.read m (e + 5 * l.length + 3) = some c3 →
    u.seq = .idle → exec (.dspWrite (bigEndian c0 c1) (bigEndian c2 c3)) u = .next v →
    u.willAnswer ans → v.trace = u.trace ++ evs → evs.length = ans.length → v.resp = some p → p ≠ respOk →
    s.willAnswer (l.flatMap EntryAnswers.all ++ ans) →
    ∃ t, exec (.applyMode index) s = .next t ∧
      t.trace = s.trace ++ entryEvents Config.cfg m l e ++ evs ∧ t.resp = some p ∧ OpFrame s t

/-- 41_firmware_replay.md R167: a write-entry at line AM.9 performs one DSP write; on success it advances `EI` by
1 and `EP` by 5, at line AM.11. By whatever row of the abort table (40_command_poll.md R136) the write fails, `apply_mode`
returns its error: to the host as the operation's response, or to the caller, `EV_POWER_UP` at line PU.2 or
`EV_PROBE` at line PB.3 (42_mode_state_events.md R201, R205). The pad byte changes nothing, and anywhere else
an entry cannot be issued (log 12). -/
def Obligations.WriteEntryPerformsOneDspWrite : Prop :=
  ∀ (s : State) (a d : W16) (pad : Byte),
    (∀ pad', exec (.wr a d pad) s = exec (.wr a d pad') s) ∧
    ((∀ op stack, s.seq ≠ .running op (.am .l9) stack) → exec (.wr a d pad) s = .refused .notAtItsLine) ∧
    (∀ op stack, s.seq = .running op (.am .l9) stack →
      s.wr.ep = none → exec (.wr a d pad) s = .fault (.unwrittenRegister .ep)) ∧
    (∀ op stack ep, s.seq = .running op (.am .l9) stack → s.wr.ep = some ep →
      (s.wr.ei ≠ none → ∃ t, exec (.wr a d pad) s = .next t ∧ LineFrame s t) ∧
      (∀ x y z l v, l.length ≤ 10 → (∀ r ∈ l, isBusy Config.cfg r = true) → busy Config.cfg v = false →
        s.willAnswer ([Answer.ok x, Answer.ok y, Answer.ok z] ++ l ++ [Answer.ok v]) →
        (s.wr.ei = none → exec (.wr a d pad) s = .fault (.unwrittenRegister .ei)) ∧
        ∀ ei, s.wr.ei = some ei → ∃ t, exec (.wr a d pad) s = .next t ∧ t.seq = .running op (.am .l8) stack ∧
          t.trace = s.trace ++ [evA Config.cfg a, evD Config.cfg d, evC Config.cfg Config.cfg.cwMw] ++
            statusEvents Config.cfg (l ++ [Answer.ok v]) ∧
          t.wr.ei = some (ei + 1#8) ∧ t.wr.ep = some (ep + 5#17) ∧ SameReplay s t ∧ t.resp = s.resp ∧
          LineFrame s t) ∧
      (let fails (x : ErrKind) (p : Response) (ans : List Answer) (evs : List Event) : Prop :=
        s.willAnswer ans →
        ∃ t, exec (.wr a d pad) s = .next t ∧ t.trace = s.trace ++ evs ∧ LineFrame s t ∧
          (stack = [] → t.seq = .idle ∧ t.wr = .empty ∧ t.resp = some p) ∧
          ∀ rest l next, stack = l :: rest →
            (l = .pu .l1 ∧ next = .pu .l2) ∨ (l = .pb .l2 ∧ next = .pb .l3) →
            t.seq = .running op next rest ∧ t.wr.st = some (.err x) ∧ t.wr.ei = s.wr.ei ∧
              t.wr.ep = some ep ∧ SameReplay s t ∧ t.resp = s.resp
      (∀ e, fails (.io e) (respIo e) [Answer.err e]
        [Event.tw Config.cfg.regAddr (zext32 a) (some e)]) ∧
      (∀ x e, fails (.io e) (respIo e) [Answer.ok x, Answer.err e]
        [evA Config.cfg a, Event.tw Config.cfg.regData (zext32 d) (some e)]) ∧
      (∀ x y e, fails (.io e) (respIo e) [Answer.ok x, Answer.ok y, Answer.err e]
        [evA Config.cfg a, evD Config.cfg d, Event.tw Config.cfg.regCmd (zext32 Config.cfg.cwMw) (some e)]) ∧
      ∀ x y z l, (∀ r ∈ l, isBusy Config.cfg r = true) →
        (∀ e, l.length ≤ 10 → fails (.io e) (respIo e)
          ([Answer.ok x, Answer.ok y, Answer.ok z] ++ l ++ [Answer.err e])
          ([evA Config.cfg a, evD Config.cfg d, evC Config.cfg Config.cfg.cwMw] ++
            statusEvents Config.cfg (l ++ [Answer.err e]))) ∧
        (l.length = 11 → fails .busy respBusy ([Answer.ok x, Answer.ok y, Answer.ok z] ++ l)
          ([evA Config.cfg a, evD Config.cfg d, evC Config.cfg Config.cfg.cwMw] ++
            statusEvents Config.cfg l))))

/-- 30_encoding.md R95, R101 with 41_firmware_replay.md R165: the count byte goes to `MC` at line AM.2, the
descriptor to `PO` and `EC` at line AM.5, and nothing else changes; elsewhere neither is executed. -/
def Obligations.HeaderAndDescriptorLoadTheirRegisters : Prop :=
  ∀ s : State,
    (∀ n op stack, s.seq = .running op (.am .l2) stack →
      ∃ t, exec (.hdr n) s = .next t ∧ t.seq = .running op (.am .l3) stack ∧
        t.wr = { s.wr with mc := some n } ∧ t.trace = s.trace ∧ t.resp = s.resp ∧ LineFrame s t) ∧
    (∀ n, (∀ op stack, s.seq ≠ .running op (.am .l2) stack) →
      exec (.hdr n) s = .refused .notAtItsLine) ∧
    (∀ p n op stack, s.seq = .running op (.am .l5) stack →
      ∃ t, exec (.desc p n) s = .next t ∧ t.seq = .running op (.am .l6) stack ∧
        t.wr = { s.wr with po := some p, ec := some n } ∧ t.trace = s.trace ∧ t.resp = s.resp ∧
        LineFrame s t) ∧
    (∀ p n, (∀ op stack, s.seq ≠ .running op (.am .l5) stack) →
      exec (.desc p n) s = .refused .notAtItsLine)

/-- 30_encoding.md R103, R104, R105: `CW_MW` is written to the command register at DW.3, `CW_MR` at DR.3 and
`CW_RR` at DR.6 and DR.9; on success the sequencer goes on with the line behind it, on a failure an operation
without a caller ends with the transport's error. -/
def Obligations.CommandWordsAreWrittenAtTheirLines : Prop :=
  ∀ (s : State) (i : Instr) (w : W16) (l l' : Label) (op : Instr) (stack : List Label),
    ((i = .cwMw ∧ w = Config.cfg.cwMw ∧ l = .dw .l3 ∧ l' = .dw .l4) ∨
      (i = .cwMr ∧ w = Config.cfg.cwMr ∧ l = .dr .l3 ∧ l' = .dr .l4) ∨
      (i = .cwRr ∧ w = Config.cfg.cwRr ∧ l = .dr .l6 ∧ l' = .dr .l7) ∨
      (i = .cwRr ∧ w = Config.cfg.cwRr ∧ l = .dr .l9 ∧ l' = .dr .l10)) →
    s.seq = .running op l stack →
    ∃ t, exec i s = .next t ∧
      t.trace = s.trace ++ [Event.tw Config.cfg.regCmd (zext32 w) s.answer.err?] ∧ LineFrame s t ∧
      (∀ x, s.answer = Answer.ok x → t.seq = .running op l' stack ∧ t.wr = s.wr ∧ t.resp = s.resp) ∧
      (∀ e, s.answer = Answer.err e → stack = [] →
        t.seq = .idle ∧ t.wr = .empty ∧ t.resp = some (respIo e))

/-- 20_memory.md R62: a fetch of the image gives its byte, and at or beyond `FW_LEN`, or without an image, the
model fault that names the offset. -/
def Obligations.ImageFetchGivesTheByteOrTheFault : Prop :=
  ∀ (bytes : List Byte) (o : Nat),
    (∀ h : o < bytes.length, memRead (some (Memory.load bytes)) o = .next bytes[o]) ∧
    (bytes.length ≤ o → memRead (some (Memory.load bytes)) o = .fault (.imgFetch o)) ∧
    memRead none o = .fault (.imgFetch o)

/-- 20_memory.md R64: the two `position` bytes of a descriptor are big-endian, high byte first; with its
literal descriptor. -/
def Obligations.PositionBytesAreBigEndian : Prop :=
  decodeDesc 0x000503#24 = .desc 0x0005#16 3#8 ∧
  ∀ (m : Memory) (o : Nat) (hi lo count : Byte), Memory.read m o = some hi →
    Memory.read m (o + 1) = some lo → Memory.read m (o + 2) = some count →
    ∃ p, fetchDesc (some m) o = .next (p, count) ∧ p.toNat = 256 * hi.toNat + lo.toNat

/-- 20_memory.md R65, R81 and 30_encoding.md R99, R100: an entry's address and data are big-endian too (the
spec's own decision D8, log 14), and its pad byte is not fetched. -/
def Obligations.EntryOperandsAreBigEndian : Prop :=
  ∀ (m : Memory) (o : Nat) (b0 b1 b2 b3 : Byte), Memory.read m o = some b0 →
    Memory.read m (o + 1) = some b1 → Memory.read m (o + 2) = some b2 →
    Memory.read m (o + 3) = some b3 →
    ∃ a d, fetchEntry (some m) o = .next (a, d) ∧ a.toNat = 256 * b0.toNat + b1.toNat ∧
      d.toNat = 256 * b2.toNat + b3.toNat

/-! ## The mode state and the host events -/

/-- 42_mode_state_events.md R191. -/
def Obligations.ModeGetReturnsTheSelection : Prop :=
  ∀ s : State, s.seq = .idle →
    decodeRequest 0x5000000000000000#64 = .instr .modeGet ∧
    ∃ t, exec .modeGet s = .next t ∧ t.resp = some (respVal s.modeSel) ∧ t.trace = s.trace ∧
      t.script = s.script ∧ t.drawn = s.drawn ∧ OpFrame s t

/-- 42_mode_state_events.md R192: any 32-bit value is stored, with no event and no check, whether or not it is
the value already there; a `MODE_GET` behind it returns it. -/
def Obligations.ModeSetStoresAnyValueWithoutTraffic : Prop :=
  ∀ (s : State) (v : W32), s.seq = .idle →
    decodeRequest (0x6#4 ++ 0#12 ++ 0#16 ++ v) = .instr (.modeSet v) ∧
    ∃ t u, exec (.modeSet v) s = .next t ∧ exec .modeGet t = .next u ∧ u.resp = some (respVal v) ∧ t.modeSel = v ∧ t.resp = some respOk ∧ t.trace = s.trace ∧
      t.script = s.script ∧ t.drawn = s.drawn ∧ imageKept s t ∧ t.seq = .idle ∧ t.wr = .empty ∧
      t.requests = s.requests ∧ t.grain = s.grain

/-- 10_state.md R38: `MODE_SEL` is written by `MODE_SET` only. -/
def Obligations.OnlyModeSetChangesTheSelection : Prop :=
  ∀ s t : State, step s = .next t → t.modeSel ≠ s.modeSel →
    (∃ q rest v, s.seq = .idle ∧ s.requests = q :: rest ∧ decodeRequest q = .instr (.modeSet v) ∧
      t.modeSel = v) ∨
    (∃ v l stack, s.seq = .running (.modeSet v) (.ms l) stack ∧ t.modeSel = v)

/-- 42_mode_state_events.md R196, R200: the power-down event is one DSP write of the parameter pair, with its
error reported; the response is `Ok`. -/
def Obligations.PowerDownWritesTheParameterAndReports : Prop :=
  ∀ s : State, s.seq = .idle →
    decodeRequest 0x8000000000000000#64 = .instr .evPowerDown ∧
    ∃ t u p, exec .evPowerDown s = .next t ∧
      exec (.dspWrite Config.cfg.pdAddr Config.cfg.pdValue) s = .next u ∧ u.resp = some p ∧
      t.trace = u.trace ++ reportOf p ∧ t.resp = some respOk ∧ t.script = u.script ∧
      t.drawn = u.drawn ∧ OpFrame s t

/-- 42_mode_state_events.md R195, R201 corner case (a): the reset pulse with every answer of the device, then the
report of `NoFirmware`. -/
def Obligations.PowerUpWithoutFirmwarePulsesAndReports : Prop :=
  ∀ (s : State) (x y : Answer), s.seq = .idle → s.fw = none → s.fwl = none → s.willAnswer [x, y] →
    ∃ t, exec .evPowerUp s = .next t ∧
      t.trace = s.trace ++
        ([Event.tu Config.cfg.rstReg Config.cfg.rstMask Config.cfg.rstAssert x.err?] ++
          (match x.err? with | some e => [Event.rp (.io e)] | none => []) ++
          [Event.dl Config.cfg.tResetSettle] ++
          [Event.tu Config.cfg.rstReg Config.cfg.rstMask Config.cfg.rstDeassert y.err?] ++
          (match y.err? with | some e => [Event.rp (.io e)] | none => []) ++
          [Event.rp .noFirmware]) ∧
      t.resp = some respOk ∧ OpFrame s t

/-- 42_mode_state_events.md R193, R201: behind the pulse the power-up event applies the selected mode, reports
its error and answers `Ok`; it faults exactly as that application does. -/
def Obligations.PowerUpAppliesTheSelectedMode : Prop :=
  ∀ s : State, s.seq = .idle →
    match exec (.applyMode s.modeSel) (resetPulse Config.cfg s.tick).tick with
    | .next u => ∃ t p, exec .evPowerUp s = .next t ∧ u.resp = some p ∧
        t.trace = u.trace ++ reportOf p ∧ t.resp = some respOk ∧ OpFrame s t
    | .fault f => exec .evPowerUp s = .fault f
    | .refused _ => False

/-- 42_mode_state_events.md R205: behind the power-domain bit and the pulse the probe applies mode 0, drops the
result, waits, does the power-down write, clears the power-domain bit and requests the firmware. -/
def Obligations.ProbeRunsItsSequenceAndDropsTheResult : Prop :=
  ∀ s : State, s.seq = .idle →
    let s1 := s.tick.updateOrReport Config.cfg.pwrReg Config.cfg.pwrMask Config.cfg.pwrOn
    match exec (.applyMode 0#32) (resetPulse Config.cfg s1.tick).tick with
    | .next u => ∃ w t, exec .evPowerDown (u.emit (Event.dl Config.cfg.tProbeSettle)) = .next w ∧
        exec .evProbe s = .next t ∧
        t.trace = w.trace ++
          ([Event.tu Config.cfg.pwrReg Config.cfg.pwrMask Config.cfg.pwrOff w.answer.err?] ++
            (match w.answer.err? with | some e => [Event.rp (.io e)] | none => []) ++
            [Event.fq Config.cfg.fwName]) ∧
        t.resp = some respOk ∧ OpFrame s t
    | .fault f => exec .evProbe s = .fault f
    | .refused _ => False

/-- 42_mode_state_events.md R205's example: the probe right after reset, on a device that fails no access and
is idle. -/
def Obligations.ProbeWithoutFirmwareOnAnIdealDevice : Prop :=
  ∀ (s : State) (x0 x1 x2 x3 x4 x5 v x6 : W32), s.seq = .idle → s.fw = none → s.fwl = none →
    busy Config.cfg v = false →
    s.willAnswer [Answer.ok x0, Answer.ok x1, Answer.ok x2, Answer.ok x3, Answer.ok x4, Answer.ok x5, Answer.ok v, Answer.ok x6] →
    ∃ t, exec .evProbe s = .next t ∧
      t.trace = s.trace ++
        [Event.tu Config.cfg.pwrReg Config.cfg.pwrMask Config.cfg.pwrOn none,
         Event.tu Config.cfg.rstReg Config.cfg.rstMask Config.cfg.rstAssert none,
         Event.dl Config.cfg.tResetSettle,
         Event.tu Config.cfg.rstReg Config.cfg.rstMask Config.cfg.rstDeassert none,
         Event.dl Config.cfg.tProbeSettle, evA Config.cfg Config.cfg.pdAddr, evD Config.cfg Config.cfg.pdValue,
         evC Config.cfg Config.cfg.cwMw, Event.tr Config.cfg.regStatus (Answer.ok v),
         Event.tu Config.cfg.pwrReg Config.cfg.pwrMask Config.cfg.pwrOff none, Event.fq Config.cfg.fwName] ∧
      t.resp = some respOk ∧ t.fw = none ∧ OpFrame s t

/-- 42_mode_state_events.md R190: a host event's response is always `Ok`. -/
def Obligations.HostEventsAlwaysAnswerOk : Prop :=
  ∀ (s t : State) (i : Instr), (i = .evPowerUp ∨ i = .evPowerDown ∨ i = .evProbe) →
    exec i s = .next t → t.resp = some respOk

/-- 41_firmware_replay.md R171 and 10_state.md R31: nothing is kept between operations but the selection and the
image. Two idle machines that agree on these, on the loader and on the device's answers make the same
events and give the same response, whatever was run on them before. -/
def Obligations.OperationsKeepNothingFromEarlierOnes : Prop :=
  ∀ (s s' : State) (i : Instr), i.isHostRequest = true → s.seq = .idle → s'.seq = .idle →
    s'.modeSel = s.modeSel → s'.fw = s.fw → s'.fwl = s.fwl → s'.script = s.script →
    s'.drawn = s.drawn →
    match exec i s with
    | .next t => ∃ t' evs, exec i s' = .next t' ∧ t.trace = s.trace ++ evs ∧ t'.trace = s'.trace ++ evs ∧
        t'.resp = t.resp ∧ t'.modeSel = t.modeSel ∧ t'.fw = t.fw ∧ t'.wr = t.wr
    | .fault f => exec i s' = .fault f
    | .refused _ => False

/-- 60_exceptions.md R232, 10_state.md R21: a host request while the sequencer runs is refused. -/
def Obligations.RequestsAreRefusedWhileRunning : Prop :=
  ∀ (s : State) (i : Instr) (op : Instr) (upc : Label) (stack : List Label), i.isHostRequest = true →
    s.seq = .running op upc stack → exec i s = .refused .requestWhileRunning

/-! ## The whole machine -/

/-- 20_memory.md R61: no step changes a present image, and the one step that makes it present is the loader's
delivery, which stores its bytes. -/
def Obligations.APresentImageNeverChanges : Prop :=
  ∀ s t : State, step s = .next t →
    (∀ m, s.fw = some m → t.fw = some m) ∧
    (s.fw = none → t.fw ≠ none →
      ∃ d, s.fwl = some d ∧ t.fwl = none ∧ t.fw = some (Memory.load d.bytes))

/-- 10_state.md R48; 20_memory.md R66, R67, R68; 30_encoding.md R110: the trace only grows, and every event a step
appends is one the rules allow: in particular no command word but the three. -/
def Obligations.StepsAppendOnlyAllowedEvents : Prop :=
  ∀ s t : State, step s = .next t →
    ∃ evs, t.trace = s.trace ++ evs ∧ ∀ ev ∈ evs, allowedEvent Config.cfg ev

/-- 70_reset_and_hazards.md R277: no operation makes more events than its bound. -/
def Obligations.OperationsStayWithinTheirEventBounds : Prop :=
  ∀ (s t : State) (i : Instr), exec i s = .next t →
    ∃ evs, t.trace = s.trace ++ evs ∧ evs.length ≤ eventBound i

/-- 40_command_poll.md R130, 42_mode_state_events.md R190, 10_state.md R33: a line makes at most one event; only a
line of a host event or its sub-procedures may add one report. -/
def Obligations.ALineMakesAtMostOneEvent : Prop :=
  ∀ (c : Cfg) (s t : State) (op : Instr) (upc : Label) (stack : List Label),
    s.seq = .running op upc stack → seqStep c s = .next t →
    ∃ evs, t.trace = s.trace ++ evs ∧
      (evs.length ≤ 1 ∨
        (upc.proc ∈ [Proc.rs, Proc.pb] ∧ ∃ ev x, evs = [ev, Event.rp x]))

/-- 10_state.md R28: a callee never writes `MI`, `MC`, `PO`, `EC`, `EI`, `EP`; they change only when the operation
ends. -/
def Obligations.CalleesKeepTheReplayRegisters : Prop :=
  ∀ (c : Cfg) (s t : State) (op : Instr) (upc : Label) (stack : List Label),
    s.seq = .running op upc stack → upc.proc ∈ [Proc.wt, Proc.dw] → seqStep c s = .next t →
    t.seq ≠ .idle →
    t.wr.mi = s.wr.mi ∧ t.wr.mc = s.wr.mc ∧ t.wr.po = s.wr.po ∧ t.wr.ec = s.wr.ec ∧
      t.wr.ei = s.wr.ei ∧ t.wr.ep = s.wr.ep

/-- 70_reset_and_hazards.md R260: what reset leaves; and that a block without a request or a delivery starts nothing
by itself. -/
def Obligations.ResetLeavesTheStateOfTheSpec : Prop :=
  State.reset.modeSel = 0#32 ∧ State.reset.fw = none ∧ State.reset.seq = .idle ∧
    State.reset.wr.ra = none ∧ State.reset.wr.rd = none ∧ State.reset.wr.rv = none ∧
    State.reset.wr.pcnt = none ∧ State.reset.wr.mi = none ∧ State.reset.wr.mc = none ∧
    State.reset.wr.po = none ∧ State.reset.wr.ec = none ∧ State.reset.wr.ei = none ∧
    State.reset.wr.ep = none ∧ State.reset.wr.st = none ∧ State.reset.trace = [] ∧
    ∀ s : State, s.seq = .idle → s.requests = [] → s.fwl = none → step s = .next s

/-- The invariant holds at reset. -/
def Obligations.ResetMeetsTheInvariant : Prop := inv State.reset = true

/-- The invariant: a canonical image, and a sequencer that is idle without values or runs a chain of
procedures the pseudocode has, with every value it will read (10_state.md R25, R26, R28, R31, R33, R35). Every
step keeps it. -/
def Obligations.EveryStepKeepsTheInvariant : Prop :=
  ∀ s t : State, inv s = true → step s = .next t → inv t = true

/-- 10_state.md R31: no line reads a working register that holds no value. -/
def Obligations.NoStepReadsAnUnwrittenRegister : Prop :=
  ∀ (s : State) (name : RegName), inv s = true → step s ≠ .fault (.unwrittenRegister name)

/-- 41_firmware_replay.md R172, 10_state.md R35: once the bounds check has passed, no entry fetch faults, and an
entry's line always goes on to its write. -/
def Obligations.EntryFetchesNeverFault : Prop :=
  ∀ (s : State) (op : Instr) (stack : List Label), inv s = true → s.seq = .running op (.am .l9) stack →
    ∃ t, seqStep Config.cfg s = .next t ∧ t.seq = .running op (.am .l10) stack

/-- 10_state.md R33: the return stack holds at most three labels. -/
def Obligations.ReturnStackHoldsAtMostThreeLabels : Prop :=
  ∀ (s : State) (op : Instr) (upc : Label) (stack : List Label), inv s = true →
    s.seq = .running op upc stack → stack.length ≤ 3

/-- The operation run as one step is the operation run line by line: from the taking of the request, a bounded
number of sequencer lines reaches exactly what `exec` answers, a fault included (10_state.md R33;
70_reset_and_hazards.md R277). -/
def Obligations.LinesRunToTheOperationsOutcome : Prop :=
  ∀ (i : Instr) (s : State), i.isHostRequest = true → s.seq = .idle →
    ∃ b n, begin i s = .next b ∧ n ≤ 12000 ∧ seqRun Config.cfg n b = exec i s
end

