-- ==== Sys2Proof/Laws/Encoding.lean ====
section
/-! SUPPORT. The fields of an encoded word, and of a word cut into its fields. -/

namespace Sys2Proof

/-! ## Fields of a word that was put together -/

theorem requestWord_bit (op : BitVec 4) (a1 : W16) (a0 : W32) (k : Nat) :
    (requestWord op a1 a0).getLsbD k =
      if k < 32 then a0.getLsbD k
      else if k < 48 then a1.getLsbD (k - 32)
      else if k < 60 then false
      else op.getLsbD (k - 60) := by
  show (op ++ 0#12 ++ a1 ++ a0 : BitVec (4 + 12 + 16 + 32)).getLsbD k = _
  simp only [BitVec.getLsbD_append]
  by_cases h1 : k < 32
  · simp [h1]
  · by_cases h2 : k < 48
    · have : k - 32 < 16 := by omega
      simp [h1, h2, this]
    · have h3 : ¬ k - 32 < 16 := by omega
      by_cases h4 : k < 60
      · have : k - 32 - 16 < 12 := by omega
        simp [h1, h2, h3, h4, this]
      · have h5 : ¬ k - 32 - 16 < 12 := by omega
        have h6 : k - 32 - 16 - 12 = k - 60 := by omega
        simp [h1, h2, h3, h4, h5, h6]

@[simp] theorem reqOp_requestWord (op : BitVec 4) (a1 : W16) (a0 : W32) : reqOp (requestWord op a1 a0) = op := by
  apply BitVec.eq_of_getLsbD_eq
  intro i hi
  have h1 : ¬ 60 + i < 32 := by omega
  have h2 : ¬ 60 + i < 48 := by omega
  have h3 : ¬ 60 + i < 60 := by omega
  rw [reqOp, BitVec.getLsbD_extractLsb', requestWord_bit]
  simp [hi, h1, h2]

@[simp] theorem reqRsv_requestWord (op : BitVec 4) (a1 : W16) (a0 : W32) :
    reqRsv (requestWord op a1 a0) = 0#12 := by
  apply BitVec.eq_of_getLsbD_eq
  intro i hi
  have h1 : ¬ 48 + i < 32 := by omega
  have h3 : 48 + i < 60 := by omega
  rw [reqRsv, BitVec.getLsbD_extractLsb', requestWord_bit]
  simp [h1, h3]

@[simp] theorem reqArg1_requestWord (op : BitVec 4) (a1 : W16) (a0 : W32) :
    reqArg1 (requestWord op a1 a0) = a1 := by
  apply BitVec.eq_of_getLsbD_eq
  intro i hi
  have h3 : 32 + i < 48 := by omega
  rw [reqArg1, BitVec.getLsbD_extractLsb', requestWord_bit]
  simp [hi, h3]

@[simp] theorem reqArg0_requestWord (op : BitVec 4) (a1 : W16) (a0 : W32) :
    reqArg0 (requestWord op a1 a0) = a0 := by
  apply BitVec.eq_of_getLsbD_eq
  intro i hi
  rw [reqArg0, BitVec.getLsbD_extractLsb', requestWord_bit]
  simp [hi]

@[simp] theorem reqArg0Hi_requestWord (op : BitVec 4) (a1 x y : W16) :
    reqArg0Hi (requestWord op a1 (x ++ y)) = x := by
  apply BitVec.eq_of_getLsbD_eq
  intro i hi
  have h1 : 16 + i < 32 := by omega
  rw [reqArg0Hi, BitVec.getLsbD_extractLsb', requestWord_bit, if_pos h1]
  show (decide (i < 16) && (x ++ y : BitVec (16 + 16)).getLsbD (16 + i)) = _
  rw [BitVec.getLsbD_append]
  simp [hi]

@[simp] theorem reqArg0Lo_requestWord (op : BitVec 4) (a1 x y : W16) :
    reqArg0Lo (requestWord op a1 (x ++ y)) = y := by
  apply BitVec.eq_of_getLsbD_eq
  intro i hi
  have h1 : i < 32 := by omega
  rw [reqArg0Lo, BitVec.getLsbD_extractLsb', requestWord_bit, Nat.zero_add, if_pos h1]
  show (decide (i < 16) && (x ++ y : BitVec (16 + 16)).getLsbD i) = _
  rw [BitVec.getLsbD_append]
  simp [hi]

theorem decodeEntry_entryWord (a d : W16) (p : Byte) : decodeEntry (entryWord a d p) = .wr a d p := by
  have hb : ∀ k, (entryWord a d p).getLsbD k =
      if k < 8 then p.getLsbD k else if k < 24 then d.getLsbD (k - 8) else a.getLsbD (k - 24) := by
    intro k
    show (a ++ d ++ p : BitVec (16 + 16 + 8)).getLsbD k = _
    simp only [BitVec.getLsbD_append]
    by_cases h1 : k < 8
    · simp [h1]
    · by_cases h2 : k < 24
      · have : k - 8 < 16 := by omega
        simp [h1, h2, this]
      · have h3 : ¬ k - 8 < 16 := by omega
        have h4 : k - 8 - 16 = k - 24 := by omega
        simp [h1, h2, h3, h4]
  have hcat : ∀ (e : BitVec 40) (lo : Nat) (x : W16), (∀ i, i < 16 → e.getLsbD (lo + i) = x.getLsbD i) →
      bigEndian (e.extractLsb' (lo + 8) 8) (e.extractLsb' lo 8) = x := by
    intro e lo x hx
    apply BitVec.eq_of_getLsbD_eq
    intro i hi
    show ((e.extractLsb' (lo + 8) 8) ++ (e.extractLsb' lo 8) : BitVec (8 + 8)).getLsbD i = _
    rw [BitVec.getLsbD_append, ← hx i hi]
    by_cases h : i < 8
    · simp [h]
    · have h2 : i - 8 < 8 := by omega
      have h3 : lo + 8 + (i - 8) = lo + i := by omega
      simp [h, h2, h3]
  unfold decodeEntry decodeEntryBytes
  congr 1
  · exact hcat _ 24 a fun i hi => by
      rw [hb]
      simp [show ¬ 24 + i < 8 by omega]
  · exact hcat _ 8 d fun i hi => by
      rw [hb]
      simp [show 8 + i < 24 by omega]
  · apply BitVec.eq_of_getLsbD_eq
    intro i hi
    rw [BitVec.getLsbD_extractLsb', hb]
    simp [hi]

theorem decodeDesc_descWord (p : W16) (n : Byte) : decodeDesc (descWord p n) = .desc p n := by
  have hb : ∀ k, (descWord p n).getLsbD k = if k < 8 then n.getLsbD k else p.getLsbD (k - 8) := by
    intro k
    show (p ++ n : BitVec (16 + 8)).getLsbD k = _
    rw [BitVec.getLsbD_append]
  unfold decodeDesc decodeDescBytes
  congr 1
  · apply BitVec.eq_of_getLsbD_eq
    intro i hi
    show ((descWord p n).extractLsb' 16 8 ++ (descWord p n).extractLsb' 8 8 : BitVec (8 + 8)).getLsbD i = _
    rw [BitVec.getLsbD_append, BitVec.getLsbD_extractLsb', BitVec.getLsbD_extractLsb', hb, hb]
    by_cases h : i < 8
    · simp [h]
    · have h2 : i - 8 < 8 := by omega
      have h3 : ¬ 16 + (i - 8) < 8 := by omega
      have h4 : 16 + (i - 8) - 8 = i := by omega
      simp [h, h2, h3, h4]
  · apply BitVec.eq_of_getLsbD_eq
    intro i hi
    rw [BitVec.getLsbD_extractLsb', hb]
    simp [hi]

/-- A big-endian pair as a number (20_memory.md R64). -/
theorem bigEndian_toNat (a b : Byte) : (bigEndian a b).toNat = 256 * a.toNat + b.toNat := by
  unfold bigEndian
  rw [BitVec.toNat_append, ← Nat.shiftLeft_add_eq_or_of_lt b.isLt, Nat.shiftLeft_eq]
  omega

/-! ## A word cut into its fields -/

/-- Every request word is put together from its fields. -/
theorem request_fields (q : Q64) :
    q = reqOp q ++ reqRsv q ++ reqArg1 q ++ reqArg0 q := by
  apply BitVec.eq_of_getLsbD_eq
  intro i hi
  show _ = (reqOp q ++ reqRsv q ++ reqArg1 q ++ reqArg0 q : BitVec (4 + 12 + 16 + 32)).getLsbD i
  simp only [BitVec.getLsbD_append, reqOp, reqRsv, reqArg1, reqArg0]
  by_cases h1 : i < 32
  · simp [h1]
  · by_cases h2 : i - 32 < 16
    · simp [h1, h2, show 32 + (i - 32) = i by omega]
    · by_cases h3 : i - 32 - 16 < 12
      · simp [h1, h2, h3, show 48 + (i - 32 - 16) = i by omega]
      · simp [h1, h2, h3, show 60 + (i - 32 - 16 - 12) = i by omega, show i - 32 - 16 - 12 < 4 by omega]

/-- Two words side by side are told apart side by side. -/
theorem append_eq_append {n m : Nat} (a b : BitVec n) (c d : BitVec m) :
    a ++ c = b ++ d ↔ a = b ∧ c = d := by
  constructor
  · intro h
    have h1 := congrArg (BitVec.extractLsb' m n) h
    have h2 := congrArg (BitVec.extractLsb' 0 m) h
    rw [BitVec.extractLsb'_append_eq_left, BitVec.extractLsb'_append_eq_left] at h1
    rw [BitVec.extractLsb'_append_eq_right, BitVec.extractLsb'_append_eq_right] at h2
    exact ⟨h1, h2⟩
  · rintro ⟨rfl, rfl⟩; rfl

/-- `Q AND mask = match`, field by field (30_encoding.md R91, R93). -/
theorem request_and (q mask val : Q64) (mo vo : BitVec 4) (mr vr : BitVec 12) (m1 v1 mh vh ml vl : W16)
    (hm : mask = mo ++ mr ++ m1 ++ (mh ++ ml : W32)) (hv : val = vo ++ vr ++ v1 ++ (vh ++ vl : W32)) :
    q &&& mask = val ↔
      reqOp q &&& mo = vo ∧ reqRsv q &&& mr = vr ∧ reqArg1 q &&& m1 = v1 ∧
        reqArg0Hi q &&& mh = vh ∧ reqArg0Lo q &&& ml = vl := by
  have h0 : reqArg0 q = (reqArg0Hi q ++ reqArg0Lo q : W32) := by
    apply BitVec.eq_of_getLsbD_eq
    intro i hi
    show _ = (reqArg0Hi q ++ reqArg0Lo q : BitVec (16 + 16)).getLsbD i
    simp only [BitVec.getLsbD_append, reqArg0Hi, reqArg0Lo, reqArg0]
    by_cases h1 : i < 16
    · simp [h1]; omega
    · simp [h1, hi, show i - 16 < 16 by omega, show 16 + (i - 16) = i by omega]
  have hq : q = (reqOp q ++ reqRsv q ++ reqArg1 q ++ (reqArg0Hi q ++ reqArg0Lo q : W32) : BitVec (4 + 12 + 16 + 32)) := by
    rw [← h0]; exact request_fields q
  have hq' : q &&& mask = ((reqOp q &&& mo) ++ (reqRsv q &&& mr) ++ (reqArg1 q &&& m1) ++
      ((reqArg0Hi q &&& mh) ++ (reqArg0Lo q &&& ml) : BitVec (16 + 16)) : BitVec (4 + 12 + 16 + 32)) := by
    rw [← BitVec.and_append, ← BitVec.and_append, ← BitVec.and_append, ← BitVec.and_append]
    exact congrArg₂ _ hq hm
  rw [hq', hv]
  refine (append_eq_append _ _ _ _).trans ?_
  rw [append_eq_append, append_eq_append]
  refine Iff.trans (and_congr_right fun _ => append_eq_append _ _ _ _) ?_
  tauto

end Sys2Proof
end

