-- ==== Sys2Proof/Laws/Memory.lean ====
section
/-! SUPPORT. The image memory: delivery gives the canonical form, and what a fetch returns. -/

namespace Sys2Proof.Machine

theorem Memory.loadFrom_wfFrom (bytes : List Byte) (o : Nat) :
    Memory.wfFrom o (Memory.loadFrom o bytes) = true := by
  induction bytes generalizing o with
  | nil => rfl
  | cons b bs ih => simp [Memory.loadFrom, Memory.wfFrom, ih]

/-- The one operation that makes an image gives it the canonical form. -/
@[simp] theorem Memory.load_wf (bytes : List Byte) : Memory.wf (Memory.load bytes) = true :=
  Memory.loadFrom_wfFrom bytes 0

@[simp] theorem Memory.load_size (bytes : List Byte) : Memory.size (Memory.load bytes) = bytes.length := by
  have h : ∀ o, (Memory.loadFrom o bytes).length = bytes.length := by
    induction bytes with
    | nil => intro o; rfl
    | cons b bs ih => intro o; simp [Memory.loadFrom, ih]
  exact h 0

/-- In the canonical form from `o` on, exactly the offsets of the cells hold a byte. -/
theorem Memory.read_isSome_of_wfFrom (m : Memory) (o a : Nat) (h : Memory.wfFrom o m = true) :
    (Memory.read m a).isSome = decide (o ≤ a ∧ a < o + m.length) := by
  induction m generalizing o with
  | nil => simp [Memory.read]
  | cons c rest ih =>
    obtain ⟨x, v⟩ := c
    simp only [Memory.wfFrom, Bool.and_eq_true, beq_iff_eq] at h
    obtain ⟨rfl, h⟩ := h
    unfold Memory.read
    by_cases hx : x = a
    · subst hx; simp
    · rw [if_neg hx, ih _ h]
      simp only [List.length_cons, decide_eq_decide]
      omega

/-- A fetch from a canonical image gives a byte exactly below `FW_LEN` (20_memory.md R62). -/
theorem Memory.read_isSome (m : Memory) (a : Nat) (h : Memory.wf m = true) :
    (Memory.read m a).isSome = decide (a < Memory.size m) := by
  rw [Memory.read_isSome_of_wfFrom m 0 a h]
  simp only [Nat.zero_le, true_and, Nat.zero_add]
  rfl

theorem Memory.read_of_lt (m : Memory) (a : Nat) (h : Memory.wf m = true) (ha : a < Memory.size m) :
    ∃ b, Memory.read m a = some b := by
  have := Memory.read_isSome m a h
  exact Option.isSome_iff_exists.mp (by simpa [ha] using this)

theorem Memory.read_of_le (m : Memory) (a : Nat) (h : Memory.wf m = true) (ha : Memory.size m ≤ a) :
    Memory.read m a = none := by
  have := Memory.read_isSome m a h
  simpa [Nat.not_lt.mpr ha] using this

/-- What was delivered is what is fetched. -/
theorem Memory.read_load (bytes : List Byte) (a : Nat) :
    Memory.read (Memory.load bytes) a = bytes[a]? := by
  have h : ∀ o k, Memory.read (Memory.loadFrom o bytes) (o + k) = bytes[k]? := by
    induction bytes with
    | nil => intro o k; rfl
    | cons b bs ih =>
      intro o k
      cases k with
      | zero => simp [Memory.loadFrom, Memory.read]
      | succ k =>
        have : o ≠ o + (k + 1) := by omega
        simpa [Memory.loadFrom, Memory.read, this, Nat.add_assoc, Nat.add_comm 1 k] using ih (o + 1) k
  have h0 := h 0 a
  rwa [Nat.zero_add] at h0

end Sys2Proof.Machine
end

