-- ==== Sys2Proof/Laws/State.lean ====
section
/-! SUPPORT. One lemma per field per update of the state, so that no later proof unfolds a record update. -/

namespace Sys2Proof.Machine

variable (s : State)

/-! ### `emit` -/

@[simp] theorem State.emit_modeSel (e : Event) :
    (s.emit e).modeSel = s.modeSel := rfl

@[simp] theorem State.emit_fw (e : Event) :
    (s.emit e).fw = s.fw := rfl

@[simp] theorem State.emit_seq (e : Event) :
    (s.emit e).seq = s.seq := rfl

@[simp] theorem State.emit_wr (e : Event) :
    (s.emit e).wr = s.wr := rfl

@[simp] theorem State.emit_trace (e : Event) :
    (s.emit e).trace = s.trace ++ [e] := rfl

@[simp] theorem State.emit_resp (e : Event) :
    (s.emit e).resp = s.resp := rfl

@[simp] theorem State.emit_requests (e : Event) :
    (s.emit e).requests = s.requests := rfl

@[simp] theorem State.emit_fwl (e : Event) :
    (s.emit e).fwl = s.fwl := rfl

@[simp] theorem State.emit_script (e : Event) :
    (s.emit e).script = s.script := rfl

@[simp] theorem State.emit_drawn (e : Event) :
    (s.emit e).drawn = s.drawn := rfl

@[simp] theorem State.emit_grain (e : Event) :
    (s.emit e).grain = s.grain := rfl

/-! ### `access` -/

@[simp] theorem State.access_modeSel (ev : Answer → Event) :
    (s.access ev).modeSel = s.modeSel := rfl

@[simp] theorem State.access_fw (ev : Answer → Event) :
    (s.access ev).fw = s.fw := rfl

@[simp] theorem State.access_seq (ev : Answer → Event) :
    (s.access ev).seq = s.seq := rfl

@[simp] theorem State.access_wr (ev : Answer → Event) :
    (s.access ev).wr = s.wr := rfl

@[simp] theorem State.access_trace (ev : Answer → Event) :
    (s.access ev).trace = s.trace ++ [ev s.answer] := rfl

@[simp] theorem State.access_resp (ev : Answer → Event) :
    (s.access ev).resp = s.resp := rfl

@[simp] theorem State.access_requests (ev : Answer → Event) :
    (s.access ev).requests = s.requests := rfl

@[simp] theorem State.access_fwl (ev : Answer → Event) :
    (s.access ev).fwl = s.fwl := rfl

@[simp] theorem State.access_script (ev : Answer → Event) :
    (s.access ev).script = s.script.tail := rfl

@[simp] theorem State.access_drawn (ev : Answer → Event) :
    (s.access ev).drawn = (match s.script with | _ :: _ => s.drawn | [] => s.drawn + 1) := rfl

@[simp] theorem State.access_grain (ev : Answer → Event) :
    (s.access ev).grain = s.grain := rfl

/-! ### `tread` -/

@[simp] theorem State.tread_modeSel (a : RegAddr) :
    (s.tread a).modeSel = s.modeSel := rfl

@[simp] theorem State.tread_fw (a : RegAddr) :
    (s.tread a).fw = s.fw := rfl

@[simp] theorem State.tread_seq (a : RegAddr) :
    (s.tread a).seq = s.seq := rfl

@[simp] theorem State.tread_wr (a : RegAddr) :
    (s.tread a).wr = s.wr := rfl

@[simp] theorem State.tread_trace (a : RegAddr) :
    (s.tread a).trace = s.trace ++ [.tr a s.answer] := rfl

@[simp] theorem State.tread_resp (a : RegAddr) :
    (s.tread a).resp = s.resp := rfl

@[simp] theorem State.tread_requests (a : RegAddr) :
    (s.tread a).requests = s.requests := rfl

@[simp] theorem State.tread_fwl (a : RegAddr) :
    (s.tread a).fwl = s.fwl := rfl

@[simp] theorem State.tread_script (a : RegAddr) :
    (s.tread a).script = s.script.tail := rfl

@[simp] theorem State.tread_drawn (a : RegAddr) :
    (s.tread a).drawn = (match s.script with | _ :: _ => s.drawn | [] => s.drawn + 1) := rfl

@[simp] theorem State.tread_grain (a : RegAddr) :
    (s.tread a).grain = s.grain := rfl

/-! ### `twrite` -/

@[simp] theorem State.twrite_modeSel (a : RegAddr) (v : W32) :
    (s.twrite a v).modeSel = s.modeSel := rfl

@[simp] theorem State.twrite_fw (a : RegAddr) (v : W32) :
    (s.twrite a v).fw = s.fw := rfl

@[simp] theorem State.twrite_seq (a : RegAddr) (v : W32) :
    (s.twrite a v).seq = s.seq := rfl

@[simp] theorem State.twrite_wr (a : RegAddr) (v : W32) :
    (s.twrite a v).wr = s.wr := rfl

@[simp] theorem State.twrite_trace (a : RegAddr) (v : W32) :
    (s.twrite a v).trace = s.trace ++ [.tw a v s.answer.err?] := rfl

@[simp] theorem State.twrite_resp (a : RegAddr) (v : W32) :
    (s.twrite a v).resp = s.resp := rfl

@[simp] theorem State.twrite_requests (a : RegAddr) (v : W32) :
    (s.twrite a v).requests = s.requests := rfl

@[simp] theorem State.twrite_fwl (a : RegAddr) (v : W32) :
    (s.twrite a v).fwl = s.fwl := rfl

@[simp] theorem State.twrite_script (a : RegAddr) (v : W32) :
    (s.twrite a v).script = s.script.tail := rfl

@[simp] theorem State.twrite_drawn (a : RegAddr) (v : W32) :
    (s.twrite a v).drawn = (match s.script with | _ :: _ => s.drawn | [] => s.drawn + 1) := rfl

@[simp] theorem State.twrite_grain (a : RegAddr) (v : W32) :
    (s.twrite a v).grain = s.grain := rfl

/-! ### `tupdate` -/

@[simp] theorem State.tupdate_modeSel (a : RegAddr) (m v : W32) :
    (s.tupdate a m v).modeSel = s.modeSel := rfl

@[simp] theorem State.tupdate_fw (a : RegAddr) (m v : W32) :
    (s.tupdate a m v).fw = s.fw := rfl

@[simp] theorem State.tupdate_seq (a : RegAddr) (m v : W32) :
    (s.tupdate a m v).seq = s.seq := rfl

@[simp] theorem State.tupdate_wr (a : RegAddr) (m v : W32) :
    (s.tupdate a m v).wr = s.wr := rfl

@[simp] theorem State.tupdate_trace (a : RegAddr) (m v : W32) :
    (s.tupdate a m v).trace = s.trace ++ [.tu a m v s.answer.err?] := rfl

@[simp] theorem State.tupdate_resp (a : RegAddr) (m v : W32) :
    (s.tupdate a m v).resp = s.resp := rfl

@[simp] theorem State.tupdate_requests (a : RegAddr) (m v : W32) :
    (s.tupdate a m v).requests = s.requests := rfl

@[simp] theorem State.tupdate_fwl (a : RegAddr) (m v : W32) :
    (s.tupdate a m v).fwl = s.fwl := rfl

@[simp] theorem State.tupdate_script (a : RegAddr) (m v : W32) :
    (s.tupdate a m v).script = s.script.tail := rfl

@[simp] theorem State.tupdate_drawn (a : RegAddr) (m v : W32) :
    (s.tupdate a m v).drawn = (match s.script with | _ :: _ => s.drawn | [] => s.drawn + 1) := rfl

@[simp] theorem State.tupdate_grain (a : RegAddr) (m v : W32) :
    (s.tupdate a m v).grain = s.grain := rfl

/-! ### `reportIf` -/

@[simp] theorem State.reportIf_modeSel (r : Result) :
    (s.reportIf r).modeSel = s.modeSel := rfl

@[simp] theorem State.reportIf_fw (r : Result) :
    (s.reportIf r).fw = s.fw := rfl

@[simp] theorem State.reportIf_seq (r : Result) :
    (s.reportIf r).seq = s.seq := rfl

@[simp] theorem State.reportIf_wr (r : Result) :
    (s.reportIf r).wr = s.wr := rfl

@[simp] theorem State.reportIf_trace (r : Result) :
    (s.reportIf r).trace = s.trace ++ reportsOfResult r := rfl

@[simp] theorem State.reportIf_resp (r : Result) :
    (s.reportIf r).resp = s.resp := rfl

@[simp] theorem State.reportIf_requests (r : Result) :
    (s.reportIf r).requests = s.requests := rfl

@[simp] theorem State.reportIf_fwl (r : Result) :
    (s.reportIf r).fwl = s.fwl := rfl

@[simp] theorem State.reportIf_script (r : Result) :
    (s.reportIf r).script = s.script := rfl

@[simp] theorem State.reportIf_drawn (r : Result) :
    (s.reportIf r).drawn = s.drawn := rfl

@[simp] theorem State.reportIf_grain (r : Result) :
    (s.reportIf r).grain = s.grain := rfl

/-! ### `updateOrReport` -/

@[simp] theorem State.updateOrReport_modeSel (a : RegAddr) (m v : W32) :
    (s.updateOrReport a m v).modeSel = s.modeSel := rfl

@[simp] theorem State.updateOrReport_fw (a : RegAddr) (m v : W32) :
    (s.updateOrReport a m v).fw = s.fw := rfl

@[simp] theorem State.updateOrReport_seq (a : RegAddr) (m v : W32) :
    (s.updateOrReport a m v).seq = s.seq := rfl

@[simp] theorem State.updateOrReport_wr (a : RegAddr) (m v : W32) :
    (s.updateOrReport a m v).wr = s.wr := rfl

@[simp] theorem State.updateOrReport_trace (a : RegAddr) (m v : W32) :
    (s.updateOrReport a m v).trace = s.trace ++ [.tu a m v s.answer.err?] ++ reportsOfAnswer s.answer := rfl

@[simp] theorem State.updateOrReport_resp (a : RegAddr) (m v : W32) :
    (s.updateOrReport a m v).resp = s.resp := rfl

@[simp] theorem State.updateOrReport_requests (a : RegAddr) (m v : W32) :
    (s.updateOrReport a m v).requests = s.requests := rfl

@[simp] theorem State.updateOrReport_fwl (a : RegAddr) (m v : W32) :
    (s.updateOrReport a m v).fwl = s.fwl := rfl

@[simp] theorem State.updateOrReport_script (a : RegAddr) (m v : W32) :
    (s.updateOrReport a m v).script = s.script.tail := rfl

@[simp] theorem State.updateOrReport_drawn (a : RegAddr) (m v : W32) :
    (s.updateOrReport a m v).drawn = (match s.script with | _ :: _ => s.drawn | [] => s.drawn + 1) := rfl

@[simp] theorem State.updateOrReport_grain (a : RegAddr) (m v : W32) :
    (s.updateOrReport a m v).grain = s.grain := rfl

/-! ### `setOperands` -/

@[simp] theorem State.setOperands_modeSel (a d : W16) :
    (s.setOperands a d).modeSel = s.modeSel := rfl

@[simp] theorem State.setOperands_fw (a d : W16) :
    (s.setOperands a d).fw = s.fw := rfl

@[simp] theorem State.setOperands_seq (a d : W16) :
    (s.setOperands a d).seq = s.seq := rfl

@[simp] theorem State.setOperands_wr (a d : W16) :
    (s.setOperands a d).wr = { s.wr with ra := some a, rd := some d } := rfl

@[simp] theorem State.setOperands_trace (a d : W16) :
    (s.setOperands a d).trace = s.trace := rfl

@[simp] theorem State.setOperands_resp (a d : W16) :
    (s.setOperands a d).resp = s.resp := rfl

@[simp] theorem State.setOperands_requests (a d : W16) :
    (s.setOperands a d).requests = s.requests := rfl

@[simp] theorem State.setOperands_fwl (a d : W16) :
    (s.setOperands a d).fwl = s.fwl := rfl

@[simp] theorem State.setOperands_script (a d : W16) :
    (s.setOperands a d).script = s.script := rfl

@[simp] theorem State.setOperands_drawn (a d : W16) :
    (s.setOperands a d).drawn = s.drawn := rfl

@[simp] theorem State.setOperands_grain (a d : W16) :
    (s.setOperands a d).grain = s.grain := rfl

/-! ### `setRA` -/

@[simp] theorem State.setRA_modeSel (a : W16) :
    (s.setRA a).modeSel = s.modeSel := rfl

@[simp] theorem State.setRA_fw (a : W16) :
    (s.setRA a).fw = s.fw := rfl

@[simp] theorem State.setRA_seq (a : W16) :
    (s.setRA a).seq = s.seq := rfl

@[simp] theorem State.setRA_wr (a : W16) :
    (s.setRA a).wr = { s.wr with ra := some a } := rfl

@[simp] theorem State.setRA_trace (a : W16) :
    (s.setRA a).trace = s.trace := rfl

@[simp] theorem State.setRA_resp (a : W16) :
    (s.setRA a).resp = s.resp := rfl

@[simp] theorem State.setRA_requests (a : W16) :
    (s.setRA a).requests = s.requests := rfl

@[simp] theorem State.setRA_fwl (a : W16) :
    (s.setRA a).fwl = s.fwl := rfl

@[simp] theorem State.setRA_script (a : W16) :
    (s.setRA a).script = s.script := rfl

@[simp] theorem State.setRA_drawn (a : W16) :
    (s.setRA a).drawn = s.drawn := rfl

@[simp] theorem State.setRA_grain (a : W16) :
    (s.setRA a).grain = s.grain := rfl

/-! ### `setRV` -/

@[simp] theorem State.setRV_modeSel (v : W32) :
    (s.setRV v).modeSel = s.modeSel := rfl

@[simp] theorem State.setRV_fw (v : W32) :
    (s.setRV v).fw = s.fw := rfl

@[simp] theorem State.setRV_seq (v : W32) :
    (s.setRV v).seq = s.seq := rfl

@[simp] theorem State.setRV_wr (v : W32) :
    (s.setRV v).wr = { s.wr with rv := some v } := rfl

@[simp] theorem State.setRV_trace (v : W32) :
    (s.setRV v).trace = s.trace := rfl

@[simp] theorem State.setRV_resp (v : W32) :
    (s.setRV v).resp = s.resp := rfl

@[simp] theorem State.setRV_requests (v : W32) :
    (s.setRV v).requests = s.requests := rfl

@[simp] theorem State.setRV_fwl (v : W32) :
    (s.setRV v).fwl = s.fwl := rfl

@[simp] theorem State.setRV_script (v : W32) :
    (s.setRV v).script = s.script := rfl

@[simp] theorem State.setRV_drawn (v : W32) :
    (s.setRV v).drawn = s.drawn := rfl

@[simp] theorem State.setRV_grain (v : W32) :
    (s.setRV v).grain = s.grain := rfl

/-! ### `setPCNT` -/

@[simp] theorem State.setPCNT_modeSel (n : BitVec 4) :
    (s.setPCNT n).modeSel = s.modeSel := rfl

@[simp] theorem State.setPCNT_fw (n : BitVec 4) :
    (s.setPCNT n).fw = s.fw := rfl

@[simp] theorem State.setPCNT_seq (n : BitVec 4) :
    (s.setPCNT n).seq = s.seq := rfl

@[simp] theorem State.setPCNT_wr (n : BitVec 4) :
    (s.setPCNT n).wr = { s.wr with pcnt := some n } := rfl

@[simp] theorem State.setPCNT_trace (n : BitVec 4) :
    (s.setPCNT n).trace = s.trace := rfl

@[simp] theorem State.setPCNT_resp (n : BitVec 4) :
    (s.setPCNT n).resp = s.resp := rfl

@[simp] theorem State.setPCNT_requests (n : BitVec 4) :
    (s.setPCNT n).requests = s.requests := rfl

@[simp] theorem State.setPCNT_fwl (n : BitVec 4) :
    (s.setPCNT n).fwl = s.fwl := rfl

@[simp] theorem State.setPCNT_script (n : BitVec 4) :
    (s.setPCNT n).script = s.script := rfl

@[simp] theorem State.setPCNT_drawn (n : BitVec 4) :
    (s.setPCNT n).drawn = s.drawn := rfl

@[simp] theorem State.setPCNT_grain (n : BitVec 4) :
    (s.setPCNT n).grain = s.grain := rfl

/-! ### `setMI` -/

@[simp] theorem State.setMI_modeSel (m : W32) :
    (s.setMI m).modeSel = s.modeSel := rfl

@[simp] theorem State.setMI_fw (m : W32) :
    (s.setMI m).fw = s.fw := rfl

@[simp] theorem State.setMI_seq (m : W32) :
    (s.setMI m).seq = s.seq := rfl

@[simp] theorem State.setMI_wr (m : W32) :
    (s.setMI m).wr = { s.wr with mi := some m } := rfl

@[simp] theorem State.setMI_trace (m : W32) :
    (s.setMI m).trace = s.trace := rfl

@[simp] theorem State.setMI_resp (m : W32) :
    (s.setMI m).resp = s.resp := rfl

@[simp] theorem State.setMI_requests (m : W32) :
    (s.setMI m).requests = s.requests := rfl

@[simp] theorem State.setMI_fwl (m : W32) :
    (s.setMI m).fwl = s.fwl := rfl

@[simp] theorem State.setMI_script (m : W32) :
    (s.setMI m).script = s.script := rfl

@[simp] theorem State.setMI_drawn (m : W32) :
    (s.setMI m).drawn = s.drawn := rfl

@[simp] theorem State.setMI_grain (m : W32) :
    (s.setMI m).grain = s.grain := rfl

/-! ### `setMC` -/

@[simp] theorem State.setMC_modeSel (n : Byte) :
    (s.setMC n).modeSel = s.modeSel := rfl

@[simp] theorem State.setMC_fw (n : Byte) :
    (s.setMC n).fw = s.fw := rfl

@[simp] theorem State.setMC_seq (n : Byte) :
    (s.setMC n).seq = s.seq := rfl

@[simp] theorem State.setMC_wr (n : Byte) :
    (s.setMC n).wr = { s.wr with mc := some n } := rfl

@[simp] theorem State.setMC_trace (n : Byte) :
    (s.setMC n).trace = s.trace := rfl

@[simp] theorem State.setMC_resp (n : Byte) :
    (s.setMC n).resp = s.resp := rfl

@[simp] theorem State.setMC_requests (n : Byte) :
    (s.setMC n).requests = s.requests := rfl

@[simp] theorem State.setMC_fwl (n : Byte) :
    (s.setMC n).fwl = s.fwl := rfl

@[simp] theorem State.setMC_script (n : Byte) :
    (s.setMC n).script = s.script := rfl

@[simp] theorem State.setMC_drawn (n : Byte) :
    (s.setMC n).drawn = s.drawn := rfl

@[simp] theorem State.setMC_grain (n : Byte) :
    (s.setMC n).grain = s.grain := rfl

/-! ### `setDesc` -/

@[simp] theorem State.setDesc_modeSel (p : W16) (n : Byte) :
    (s.setDesc p n).modeSel = s.modeSel := rfl

@[simp] theorem State.setDesc_fw (p : W16) (n : Byte) :
    (s.setDesc p n).fw = s.fw := rfl

@[simp] theorem State.setDesc_seq (p : W16) (n : Byte) :
    (s.setDesc p n).seq = s.seq := rfl

@[simp] theorem State.setDesc_wr (p : W16) (n : Byte) :
    (s.setDesc p n).wr = { s.wr with po := some p, ec := some n } := rfl

@[simp] theorem State.setDesc_trace (p : W16) (n : Byte) :
    (s.setDesc p n).trace = s.trace := rfl

@[simp] theorem State.setDesc_resp (p : W16) (n : Byte) :
    (s.setDesc p n).resp = s.resp := rfl

@[simp] theorem State.setDesc_requests (p : W16) (n : Byte) :
    (s.setDesc p n).requests = s.requests := rfl

@[simp] theorem State.setDesc_fwl (p : W16) (n : Byte) :
    (s.setDesc p n).fwl = s.fwl := rfl

@[simp] theorem State.setDesc_script (p : W16) (n : Byte) :
    (s.setDesc p n).script = s.script := rfl

@[simp] theorem State.setDesc_drawn (p : W16) (n : Byte) :
    (s.setDesc p n).drawn = s.drawn := rfl

@[simp] theorem State.setDesc_grain (p : W16) (n : Byte) :
    (s.setDesc p n).grain = s.grain := rfl

/-! ### `setEntry` -/

@[simp] theorem State.setEntry_modeSel (ei : BitVec 8) (ep : BitVec 17) :
    (s.setEntry ei ep).modeSel = s.modeSel := rfl

@[simp] theorem State.setEntry_fw (ei : BitVec 8) (ep : BitVec 17) :
    (s.setEntry ei ep).fw = s.fw := rfl

@[simp] theorem State.setEntry_seq (ei : BitVec 8) (ep : BitVec 17) :
    (s.setEntry ei ep).seq = s.seq := rfl

@[simp] theorem State.setEntry_wr (ei : BitVec 8) (ep : BitVec 17) :
    (s.setEntry ei ep).wr = { s.wr with ei := some ei, ep := some ep } := rfl

@[simp] theorem State.setEntry_trace (ei : BitVec 8) (ep : BitVec 17) :
    (s.setEntry ei ep).trace = s.trace := rfl

@[simp] theorem State.setEntry_resp (ei : BitVec 8) (ep : BitVec 17) :
    (s.setEntry ei ep).resp = s.resp := rfl

@[simp] theorem State.setEntry_requests (ei : BitVec 8) (ep : BitVec 17) :
    (s.setEntry ei ep).requests = s.requests := rfl

@[simp] theorem State.setEntry_fwl (ei : BitVec 8) (ep : BitVec 17) :
    (s.setEntry ei ep).fwl = s.fwl := rfl

@[simp] theorem State.setEntry_script (ei : BitVec 8) (ep : BitVec 17) :
    (s.setEntry ei ep).script = s.script := rfl

@[simp] theorem State.setEntry_drawn (ei : BitVec 8) (ep : BitVec 17) :
    (s.setEntry ei ep).drawn = s.drawn := rfl

@[simp] theorem State.setEntry_grain (ei : BitVec 8) (ep : BitVec 17) :
    (s.setEntry ei ep).grain = s.grain := rfl

/-! ### `setST` -/

@[simp] theorem State.setST_modeSel (r : Result) :
    (s.setST r).modeSel = s.modeSel := rfl

@[simp] theorem State.setST_fw (r : Result) :
    (s.setST r).fw = s.fw := rfl

@[simp] theorem State.setST_seq (r : Result) :
    (s.setST r).seq = s.seq := rfl

@[simp] theorem State.setST_wr (r : Result) :
    (s.setST r).wr = { s.wr with st := some r } := rfl

@[simp] theorem State.setST_trace (r : Result) :
    (s.setST r).trace = s.trace := rfl

@[simp] theorem State.setST_resp (r : Result) :
    (s.setST r).resp = s.resp := rfl

@[simp] theorem State.setST_requests (r : Result) :
    (s.setST r).requests = s.requests := rfl

@[simp] theorem State.setST_fwl (r : Result) :
    (s.setST r).fwl = s.fwl := rfl

@[simp] theorem State.setST_script (r : Result) :
    (s.setST r).script = s.script := rfl

@[simp] theorem State.setST_drawn (r : Result) :
    (s.setST r).drawn = s.drawn := rfl

@[simp] theorem State.setST_grain (r : Result) :
    (s.setST r).grain = s.grain := rfl

/-! ### `finish`, `goto`, `call` -/

@[simp] theorem finish_modeSel (r : Result) : (finish r s).modeSel = s.modeSel := rfl

@[simp] theorem finish_fw (r : Result) : (finish r s).fw = s.fw := rfl

@[simp] theorem finish_seq (r : Result) : (finish r s).seq = .idle := rfl

@[simp] theorem finish_wr (r : Result) : (finish r s).wr = .empty := rfl

@[simp] theorem finish_trace (r : Result) : (finish r s).trace = s.trace := rfl

@[simp] theorem finish_resp (r : Result) : (finish r s).resp = some (respond r) := rfl

@[simp] theorem finish_requests (r : Result) : (finish r s).requests = s.requests := rfl

@[simp] theorem finish_fwl (r : Result) : (finish r s).fwl = s.fwl := rfl

@[simp] theorem finish_script (r : Result) : (finish r s).script = s.script := rfl

@[simp] theorem finish_drawn (r : Result) : (finish r s).drawn = s.drawn := rfl

@[simp] theorem finish_grain (r : Result) : (finish r s).grain = s.grain := rfl

@[simp] theorem goto_modeSel (op : Instr) (stack : List Label) (l : Label) :
    (goto op stack l s).modeSel = s.modeSel := rfl

@[simp] theorem goto_fw (op : Instr) (stack : List Label) (l : Label) :
    (goto op stack l s).fw = s.fw := rfl

@[simp] theorem goto_seq (op : Instr) (stack : List Label) (l : Label) :
    (goto op stack l s).seq = .running op l stack := rfl

@[simp] theorem goto_wr (op : Instr) (stack : List Label) (l : Label) :
    (goto op stack l s).wr = s.wr := rfl

@[simp] theorem goto_trace (op : Instr) (stack : List Label) (l : Label) :
    (goto op stack l s).trace = s.trace := rfl

@[simp] theorem goto_resp (op : Instr) (stack : List Label) (l : Label) :
    (goto op stack l s).resp = s.resp := rfl

@[simp] theorem goto_requests (op : Instr) (stack : List Label) (l : Label) :
    (goto op stack l s).requests = s.requests := rfl

@[simp] theorem goto_fwl (op : Instr) (stack : List Label) (l : Label) :
    (goto op stack l s).fwl = s.fwl := rfl

@[simp] theorem goto_script (op : Instr) (stack : List Label) (l : Label) :
    (goto op stack l s).script = s.script := rfl

@[simp] theorem goto_drawn (op : Instr) (stack : List Label) (l : Label) :
    (goto op stack l s).drawn = s.drawn := rfl

@[simp] theorem goto_grain (op : Instr) (stack : List Label) (l : Label) :
    (goto op stack l s).grain = s.grain := rfl

@[simp] theorem call_modeSel (op : Instr) (stack : List Label) (caller entry : Label) :
    (call op stack caller entry s).modeSel = s.modeSel := rfl

@[simp] theorem call_fw (op : Instr) (stack : List Label) (caller entry : Label) :
    (call op stack caller entry s).fw = s.fw := rfl

@[simp] theorem call_seq (op : Instr) (stack : List Label) (caller entry : Label) :
    (call op stack caller entry s).seq = .running op entry (caller :: stack) := rfl

@[simp] theorem call_wr (op : Instr) (stack : List Label) (caller entry : Label) :
    (call op stack caller entry s).wr = s.wr := rfl

@[simp] theorem call_trace (op : Instr) (stack : List Label) (caller entry : Label) :
    (call op stack caller entry s).trace = s.trace := rfl

@[simp] theorem call_resp (op : Instr) (stack : List Label) (caller entry : Label) :
    (call op stack caller entry s).resp = s.resp := rfl

@[simp] theorem call_requests (op : Instr) (stack : List Label) (caller entry : Label) :
    (call op stack caller entry s).requests = s.requests := rfl

@[simp] theorem call_fwl (op : Instr) (stack : List Label) (caller entry : Label) :
    (call op stack caller entry s).fwl = s.fwl := rfl

@[simp] theorem call_script (op : Instr) (stack : List Label) (caller entry : Label) :
    (call op stack caller entry s).script = s.script := rfl

@[simp] theorem call_drawn (op : Instr) (stack : List Label) (caller entry : Label) :
    (call op stack caller entry s).drawn = s.drawn := rfl

@[simp] theorem call_grain (op : Instr) (stack : List Label) (caller entry : Label) :
    (call op stack caller entry s).grain = s.grain := rfl

@[simp] theorem ret_result (r : Result) : (ret r s).1 = r := rfl

@[simp] theorem ret_state (r : Result) : (ret r s).2 = s.setST r := rfl

/-! ### `andThen`, `readReg` -/

@[simp] theorem andThen_next {α β : Type} (a : α) (k : α → Out β) : andThen (.next a) k = k a := rfl

@[simp] theorem andThen_fault {α β : Type} (f : Fault) (k : α → Out β) :
    andThen (.fault f : Out α) k = .fault f := rfl

@[simp] theorem andThen_refused {α β : Type} (r : Refusal) (k : α → Out β) :
    andThen (.refused r : Out α) k = .refused r := rfl

@[simp] theorem readReg_some {α : Type} (n : RegName) (v : α) : readReg n (some v) = .next v := rfl

@[simp] theorem readReg_none {α : Type} (n : RegName) :
    readReg n (none : Option α) = .fault (.unwrittenRegister n) := rfl

/-! ### `tick` touches the image and the pending delivery only -/

@[simp] theorem State.tick_modeSel : s.tick.modeSel = s.modeSel := by
  unfold State.tick; split <;> try rfl
  split <;> rfl

@[simp] theorem State.tick_seq : s.tick.seq = s.seq := by
  unfold State.tick; split <;> try rfl
  split <;> rfl

@[simp] theorem State.tick_wr : s.tick.wr = s.wr := by
  unfold State.tick; split <;> try rfl
  split <;> rfl

@[simp] theorem State.tick_trace : s.tick.trace = s.trace := by
  unfold State.tick; split <;> try rfl
  split <;> rfl

@[simp] theorem State.tick_resp : s.tick.resp = s.resp := by
  unfold State.tick; split <;> try rfl
  split <;> rfl

@[simp] theorem State.tick_requests : s.tick.requests = s.requests := by
  unfold State.tick; split <;> try rfl
  split <;> rfl

@[simp] theorem State.tick_script : s.tick.script = s.script := by
  unfold State.tick; split <;> try rfl
  split <;> rfl

@[simp] theorem State.tick_drawn : s.tick.drawn = s.drawn := by
  unfold State.tick; split <;> try rfl
  split <;> rfl

@[simp] theorem State.tick_grain : s.tick.grain = s.grain := by
  unfold State.tick; split <;> try rfl
  split <;> rfl

@[simp] theorem State.tick_answer : s.tick.answer = s.answer := by
  simp [State.answer]

end Sys2Proof.Machine
end

