-- ==== Sys2Proof/Laws/Run.lean ====
section
/-! SUPPORT. What a part of an operation can do: the relation `Ran` (lines performed, calls answered, events
appended, everything else kept but the working registers), and one lemma per operation that says so. -/

namespace Sys2Proof.Machine

/-! ## The loader behind the lines -/

/-- What `tick` does to the image and the pending delivery. -/
def tickFw (p : Option Memory × Option Delivery) : Option Memory × Option Delivery :=
  match p.2 with
  | none => p
  | some ⟨n + 1, bytes⟩ => (p.1, some ⟨n, bytes⟩)
  | some ⟨0, bytes⟩ =>
    match p.1 with
    | none => (some (Memory.load bytes), none)
    | some _ => p

/-- `tickFw`, `j` times. -/
def tickFwN : Nat → Option Memory × Option Delivery → Option Memory × Option Delivery
  | 0, p => p
  | j + 1, p => tickFwN j (tickFw p)

theorem tickFwN_add (j k : Nat) (p : Option Memory × Option Delivery) :
    tickFwN (j + k) p = tickFwN k (tickFwN j p) := by
  induction j generalizing p with
  | zero => rw [Nat.zero_add]; rfl
  | succ j ih => rw [Nat.succ_add]; exact ih (tickFw p)

theorem State.tick_loader (s : State) : (s.tick.fw, s.tick.fwl) = tickFw (s.fw, s.fwl) := by
  unfold State.tick tickFw
  split <;> rename_i h
  · simp [h]
  · simp [h]
  · simp only [h]
    cases hf : s.fw <;> simp [hf, h]

/-- Once an image is present the lines leave it alone. -/
theorem tickFwN_present (j : Nat) (m : Memory) (d : Option Delivery) :
    (tickFwN j (some m, d)).1 = some m := by
  induction j generalizing d with
  | zero => rfl
  | succ j ih =>
    unfold tickFwN tickFw
    match d with
    | none => exact ih none
    | some ⟨0, bytes⟩ => exact ih _
    | some ⟨n + 1, bytes⟩ => exact ih _

theorem tickFwN_idle (j : Nat) (m : Option Memory) : tickFwN j (m, none) = (m, none) := by
  induction j with
  | zero => rfl
  | succ j ih => exact ih

/-- The image is kept, or it is the pending delivery's (Safety.lean `imageKept`). -/
theorem tickFwN_kept (j : Nat) (m : Option Memory) (d : Option Delivery) :
    (tickFwN j (m, d)).1 = m ∨
      (m = none ∧ (tickFwN j (m, d)).2 = none ∧
        ∃ d', d = some d' ∧ (tickFwN j (m, d)).1 = some (Memory.load d'.bytes)) := by
  induction j generalizing d with
  | zero => exact .inl rfl
  | succ j ih =>
    match m, d with
    | some m, d => exact .inl (tickFwN_present _ _ _)
    | none, none => exact .inl (by rw [tickFwN_idle])
    | none, some ⟨0, bytes⟩ =>
      have h : tickFwN (j + 1) (none, some ⟨0, bytes⟩) = (some (Memory.load bytes), none) :=
        tickFwN_idle j _
      rw [h]
      exact .inr ⟨rfl, rfl, _, rfl, rfl⟩
    | none, some ⟨n + 1, bytes⟩ =>
      have h : tickFwN (j + 1) (none, some ⟨n + 1, bytes⟩) = tickFwN j (none, some ⟨n, bytes⟩) := rfl
      rw [h]
      rcases ih (some ⟨n, bytes⟩) with h1 | ⟨h0, h1, d', h2, h3⟩
      · exact .inl h1
      · cases h2
        exact .inr ⟨rfl, h1, _, rfl, h3⟩

/-! ## The relation -/

/-- From `s` to `t`, `n` transport calls were answered and `evs` appended; only the trace, the answers, the
working registers and, by the loader, the image can differ. -/
structure Ran (s : State) (n : Nat) (evs : List Event) (t : State) : Prop where
  trace : t.trace = s.trace ++ evs
  script : t.script = s.script.drop n
  drawn : t.drawn = s.drawn + (n - s.script.length)
  modeSel : t.modeSel = s.modeSel
  seq : t.seq = s.seq
  resp : t.resp = s.resp
  requests : t.requests = s.requests
  grain : t.grain = s.grain
  loader : ∃ j, (t.fw, t.fwl) = tickFwN j (s.fw, s.fwl)

variable {s t u : State} {n m : Nat} {e e' : List Event}

theorem Ran.refl (s : State) : Ran s 0 [] s :=
  ⟨by simp, by simp, by simp, rfl, rfl, rfl, rfl, rfl, 0, rfl⟩

theorem Ran.trans (h : Ran s n e t) (h' : Ran t m e' u) : Ran s (n + m) (e ++ e') u where
  trace := by rw [h'.trace, h.trace, List.append_assoc]
  script := by rw [h'.script, h.script, List.drop_drop]
  drawn := by
    have : t.script.length = s.script.length - n := by rw [h.script, List.length_drop]
    rw [h'.drawn, h.drawn, this]; omega
  modeSel := h'.modeSel.trans h.modeSel
  seq := h'.seq.trans h.seq
  resp := h'.resp.trans h.resp
  requests := h'.requests.trans h.requests
  grain := h'.grain.trans h.grain
  loader := by
    obtain ⟨j, hj⟩ := h.loader
    obtain ⟨k, hk⟩ := h'.loader
    exact ⟨j + k, by rw [hk, hj, tickFwN_add]⟩

theorem Ran.tick (h : Ran s n e t) : Ran s n e t.tick where
  trace := by simpa using h.trace
  script := by simpa using h.script
  drawn := by simpa using h.drawn
  modeSel := by simpa using h.modeSel
  seq := by simpa using h.seq
  resp := by simpa using h.resp
  requests := by simpa using h.requests
  grain := by simpa using h.grain
  loader := by
    obtain ⟨j, hj⟩ := h.loader
    refine ⟨j + 1, ?_⟩
    rw [State.tick_loader, hj, tickFwN_add]; rfl

/-- A change of working registers only. -/
theorem Ran.regs (h : Ran s n e t) (w : WorkRegs) : Ran s n e { t with wr := w } :=
  ⟨h.trace, h.script, h.drawn, h.modeSel, h.seq, h.resp, h.requests, h.grain, h.loader⟩

theorem Ran.setOperands (h : Ran s n e t) (a d : W16) : Ran s n e (t.setOperands a d) := h.regs _

theorem Ran.setRA (h : Ran s n e t) (a : W16) : Ran s n e (t.setRA a) := h.regs _

theorem Ran.setRV (h : Ran s n e t) (v : W32) : Ran s n e (t.setRV v) := h.regs _

theorem Ran.setPCNT (h : Ran s n e t) (k : BitVec 4) : Ran s n e (t.setPCNT k) := h.regs _

theorem Ran.setMI (h : Ran s n e t) (x : W32) : Ran s n e (t.setMI x) := h.regs _

theorem Ran.setMC (h : Ran s n e t) (k : Byte) : Ran s n e (t.setMC k) := h.regs _

theorem Ran.setDesc (h : Ran s n e t) (p : W16) (k : Byte) : Ran s n e (t.setDesc p k) := h.regs _

theorem Ran.setEntry (h : Ran s n e t) (ei : BitVec 8) (ep : BitVec 17) : Ran s n e (t.setEntry ei ep) := h.regs _

theorem Ran.setST (h : Ran s n e t) (r : Result) : Ran s n e (t.setST r) := h.regs _

theorem Ran.access (h : Ran s n e t) (ev : Answer → Event) :
    Ran s (n + 1) (e ++ [ev t.answer]) (t.access ev) where
  trace := by rw [State.access_trace, h.trace, List.append_assoc]
  script := by rw [State.access_script, h.script, List.tail_drop]
  drawn := by
    have hl : t.script.length = s.script.length - n := by rw [h.script, List.length_drop]
    rw [State.access_drawn, h.drawn]
    cases ht : t.script with
    | nil => simp [ht] at hl; simp; omega
    | cons a l => simp [ht] at hl; simp; omega
  modeSel := h.modeSel
  seq := h.seq
  resp := h.resp
  requests := h.requests
  grain := h.grain
  loader := h.loader

theorem Ran.tread (h : Ran s n e t) (a : RegAddr) :
    Ran s (n + 1) (e ++ [.tr a t.answer]) (t.tread a) := h.access fun ans => .tr a ans

theorem Ran.twrite (h : Ran s n e t) (a : RegAddr) (v : W32) :
    Ran s (n + 1) (e ++ [.tw a v t.answer.err?]) (t.twrite a v) :=
  h.access fun ans => .tw a v ans.err?

theorem Ran.emit (h : Ran s n e t) (ev : Event) : Ran s n (e ++ [ev]) (t.emit ev) :=
  ⟨by rw [State.emit_trace, h.trace, List.append_assoc], h.script, h.drawn, h.modeSel, h.seq, h.resp,
    h.requests, h.grain, h.loader⟩

theorem Ran.reportIf (h : Ran s n e t) (r : Result) :
    Ran s n (e ++ reportsOfResult r) (t.reportIf r) :=
  ⟨by rw [State.reportIf_trace, h.trace, List.append_assoc], h.script, h.drawn, h.modeSel, h.seq, h.resp,
    h.requests, h.grain, h.loader⟩

theorem Ran.updateOrReport (h : Ran s n e t) (a : RegAddr) (x v : W32) :
    Ran s (n + 1) (e ++ ([.tu a x v t.answer.err?] ++ reportsOfAnswer t.answer)) (t.updateOrReport a x v) := by
  have h1 := h.access fun ans => .tu a x v ans.err?
  exact ⟨by rw [State.updateOrReport_trace, h.trace]; simp, h1.script, h1.drawn, h1.modeSel, h1.seq, h1.resp,
    h1.requests, h1.grain, h1.loader⟩

/-! ## Answers -/

theorem State.upcoming_zero (s : State) : s.upcoming 0 = s.answer := by
  unfold State.upcoming State.answer
  cases s.script <;> simp

theorem Ran.upcoming (h : Ran s n e t) (k : Nat) : t.upcoming k = s.upcoming (n + k) := by
  unfold State.upcoming
  rw [h.script, h.drawn, List.getElem?_drop, List.length_drop]
  cases hk : s.script[n + k]? with
  | some a => rfl
  | none =>
    have : s.script.length ≤ n + k := List.getElem?_eq_none_iff.mp hk
    simp only
    congr 1
    omega

theorem Ran.answer (h : Ran s n e t) : t.answer = s.upcoming n := by
  rw [← State.upcoming_zero, h.upcoming]; rfl

theorem State.nextAnswers_succ (s : State) (n : Nat) :
    s.nextAnswers (n + 1) = s.upcoming 0 :: (List.range n).map (fun k => s.upcoming (k + 1)) := by
  simp [State.nextAnswers, List.range_succ_eq_map, Function.comp_def]

theorem State.willAnswer_nil (s : State) : s.willAnswer [] := rfl

/-- The first answer of a list to come, and the rest after one call. -/
theorem State.willAnswer_cons (s : State) (a : Answer) (l : List Answer) (ev : Answer → Event) :
    s.willAnswer (a :: l) ↔ s.answer = a ∧ (s.access ev).willAnswer l := by
  have h := (Ran.refl s).access ev
  unfold State.willAnswer
  rw [List.length_cons, State.nextAnswers_succ, List.cons.injEq, State.upcoming_zero]
  refine and_congr_right fun _ => ?_
  unfold State.nextAnswers
  have : (fun k => s.upcoming (k + 1)) = (s.access ev).upcoming := by
    funext k; rw [h.upcoming, Nat.zero_add, Nat.add_comm]
  rw [this]

/-- What is to come depends on the answers alone. -/
theorem State.willAnswer_congr (l : List Answer) (hs : t.script = s.script) (hd : t.drawn = s.drawn) :
    t.willAnswer l ↔ s.willAnswer l := by
  unfold State.willAnswer State.nextAnswers State.upcoming
  rw [hs, hd]

/-- A list of answers to come, split at a point that has been reached. -/
theorem Ran.willAnswer_append (h : Ran s n e t) (l l' : List Answer) (hn : n = l.length) :
    s.willAnswer (l ++ l') ↔ s.willAnswer l ∧ t.willAnswer l' := by
  subst hn
  unfold State.willAnswer State.nextAnswers
  have ht : t.upcoming = fun k => s.upcoming (l.length + k) := funext h.upcoming
  have hsplit : ∀ k, (List.range (l.length + k)).map s.upcoming =
      (List.range l.length).map s.upcoming ++ (List.range k).map t.upcoming := by
    intro k
    rw [List.range_add, List.map_append, List.map_map, ht]
    rfl
  rw [List.length_append, hsplit]
  constructor
  · intro hx
    exact List.append_inj hx (by simp)
  · rintro ⟨h1, h2⟩
    rw [h1, h2]

/-- A state whose script begins with `l` will answer `l`. -/
theorem State.willAnswer_of_script (s : State) (l rest : List Answer) (h : s.script = l ++ rest) :
    s.willAnswer l := by
  unfold State.willAnswer State.nextAnswers
  apply List.ext_getElem
  · simp
  · intro k h1 h2
    have hk : k < l.length := by simpa using h1
    simp [State.upcoming, h, List.getElem?_append_left hk, List.getElem?_eq_getElem hk]

/-! ## Frames -/

theorem Ran.imageKept (h : Ran s n e t) : imageKept s t := by
  obtain ⟨j, hj⟩ := h.loader
  have h1 : t.fw = (tickFwN j (s.fw, s.fwl)).1 := congrArg Prod.fst hj
  have h2 : t.fwl = (tickFwN j (s.fw, s.fwl)).2 := congrArg Prod.snd hj
  rcases tickFwN_kept j s.fw s.fwl with hk | ⟨h0, hn, d, hd, hb⟩
  · exact .inl (h1.trans hk)
  · exact .inr ⟨h0, h2.trans hn, d, hd, h1.trans hb⟩

theorem Ran.fw_present (h : Ran s n e t) {m : Memory} (hm : s.fw = some m) : t.fw = some m := by
  obtain ⟨j, hj⟩ := h.loader
  have h1 : t.fw = (tickFwN j (s.fw, s.fwl)).1 := congrArg Prod.fst hj
  rw [h1, hm, tickFwN_present]

/-- The frame of a finished operation. -/
theorem Ran.opFrame {w : Option Response} (h : Ran { s with resp := w } n e t) (r : Result) :
    OpFrame s (finish r t) where
  modeSel := h.modeSel
  image := h.imageKept
  idle := rfl
  noValues := rfl
  requests := h.requests
  grain := h.grain

/-- A host operation taken by an idle sequencer is its body, finished. -/
theorem hostOp_idle (body : State → Out (Result × State)) (s : State) (h : s.seq = .idle) :
    hostOp body s = andThen (body { s with resp := none }) fun p => .next (finish p.1 p.2) := by
  unfold hostOp; rw [h]

theorem hostOp_running (body : State → Out (Result × State)) (s : State) {op upc stack}
    (h : s.seq = .running op upc stack) : hostOp body s = .refused .requestWhileRunning := by
  unfold hostOp; rw [h]

/-- When a host operation answers a next state, its body did, from an idle sequencer. -/
theorem hostOp_next {body : State → Out (Result × State)} {s t : State} (h : hostOp body s = .next t) :
    s.seq = .idle ∧ ∃ p, body { s with resp := none } = .next p ∧ t = finish p.1 p.2 := by
  cases hs : s.seq with
  | running op upc stack => rw [hostOp_running body s hs] at h; cases h
  | idle =>
    rw [hostOp_idle body s hs] at h
    refine ⟨rfl, ?_⟩
    rw [hs] at h
    revert h
    cases body { s with seq := .idle, resp := none } with
    | next p => intro h; cases h; exact ⟨p, rfl, rfl⟩
    | fault f => intro h; cases h
    | refused r => intro h; cases h

end Sys2Proof.Machine
end

