-- ==== Sys2Proof/Laws/Engine.lean ====
section
/-! SUPPORT. What `wait_ready`, `write` and `read` do, by the device's answers
(spec/40_command_poll.md R131, R136, R140). -/

namespace Sys2Proof.Machine

/-! ## The busy test -/

theorem busyMask_ne_zero (c : Cfg) : busyMask c ≠ 0#32 := by
  have h : ∀ b : Fin 32, (1#32 <<< b.val) ≠ 0#32 := by decide
  exact h c.busyBit

/-- The word with every bit set is busy, whichever bit is the busy bit. -/
@[simp] theorem busy_allOnes (c : Cfg) : busy c (BitVec.allOnes 32) = true := by
  unfold busy
  rw [BitVec.allOnes_and]
  simpa using busyMask_ne_zero c

/-- The word with no bit set is idle. -/
@[simp] theorem busy_zero (c : Cfg) : busy c 0#32 = false := by
  simp [busy]

/-! ## Polling -/

variable {c : Cfg} {s : State}

theorem isBusy_ok {a : Answer} (h : isBusy c a = true) : ∃ v, a = .ok v ∧ busy c v = true := by
  cases a with
  | ok v => exact ⟨v, rfl, h⟩
  | err e => cases h

theorem isIdle_ok {a : Answer} (h : isIdle c a = true) : ∃ v, a = .ok v ∧ busy c v = false := by
  cases a with
  | ok v => exact ⟨v, rfl, by simpa [isIdle] using h⟩
  | err e => cases h

/-- What `poll` does with the first answer. -/
theorem poll_succ (c : Cfg) (n : Nat) (s : State) :
    poll c (n + 1) s =
      match s.answer with
      | .err e => ret (.err (.io e)) (s.tick.tread c.regStatus)
      | .ok v =>
        if busy c v then
          poll c n (((s.tick.tread c.regStatus).setRV v).setPCNT
            (BitVec.ofNat 4 (Config.pollMax - n))).tick.tick
        else ret (.ok none) (((s.tick.tread c.regStatus).setRV v).setPCNT
            (BitVec.ofNat 4 (Config.pollMax - n))).tick := by
  cases h : s.answer <;> simp only [poll, State.tick_answer, h]

/-- Three ways for a wait to end: the read after some busy ones is idle, it fails, or all were busy
(40_command_poll.md R133). -/
inductive WaitEnd (c : Cfg) (n : Nat) : List Answer → Result → Prop where
  | idle (l : List Answer) (v : W32) (hl : ∀ a ∈ l, isBusy c a = true) (hn : l.length < n)
      (hv : busy c v = false) : WaitEnd c n (l ++ [.ok v]) (.ok none)
  | failed (l : List Answer) (e : IoErr) (hl : ∀ a ∈ l, isBusy c a = true) (hn : l.length < n) :
      WaitEnd c n (l ++ [.err e]) (.err (.io e))
  | exhausted (l : List Answer) (hl : ∀ a ∈ l, isBusy c a = true) (hn : l.length = n) :
      WaitEnd c n l (.err .busy)

theorem WaitEnd.cons {n : Nat} {l : List Answer} {r : Result} {a : Answer} (ha : isBusy c a = true)
    (h : WaitEnd c n l r) : WaitEnd c (n + 1) (a :: l) r := by
  have hmem : ∀ l : List Answer, (∀ x ∈ l, isBusy c x = true) → ∀ x ∈ a :: l, isBusy c x = true := by
    intro l hl x hx
    rcases List.mem_cons.mp hx with rfl | hx
    · exact ha
    · exact hl x hx
  cases h with
  | idle l v hl hn hv => exact .idle (a :: l) v (hmem l hl) (by simpa using hn) hv
  | failed l e hl hn => exact .failed (a :: l) e (hmem l hl) (by simpa using hn)
  | exhausted l hl hn => exact .exhausted (a :: l) (hmem _ hl) (by simpa using hn)

@[simp] theorem statusEvents_cons (c : Cfg) (a : Answer) (l : List Answer) :
    statusEvents c (a :: l) = .tr c.regStatus a :: statusEvents c l := rfl

@[simp] theorem statusEvents_nil (c : Cfg) : statusEvents c [] = [] := rfl

@[simp] theorem statusEvents_append (c : Cfg) (l l' : List Answer) :
    statusEvents c (l ++ l') = statusEvents c l ++ statusEvents c l' := by
  simp [statusEvents]

/-- What `poll` can do, given what it starts from. -/
theorem poll_ran (c : Cfg) (n : Nat) {s0 : State} {n0 : Nat} {e0 : List Event} {s : State}
    (h : Ran s0 n0 e0 s) :
    ∃ l, WaitEnd c n l (poll c n s).1 ∧ s.willAnswer l ∧
      Ran s0 (n0 + l.length) (e0 ++ statusEvents c l) (poll c n s).2 := by
  induction n generalizing n0 e0 s with
  | zero =>
    have h0 : Ran s0 n0 (e0 ++ []) (s.setST (.err .busy)) := by
      rw [List.append_nil]; exact h.setST _
    exact ⟨[], .exhausted [] (by simp) rfl, State.willAnswer_nil s, h0⟩
  | succ n ih =>
    rw [poll_succ]
    have h1 := h.tick.tread c.regStatus
    rw [State.tick_answer] at h1
    have hone : ∀ a, s.answer = a → s.willAnswer [a] := fun a ha =>
      (State.willAnswer_cons s a [] fun ans => .tr c.regStatus ans).mpr ⟨ha, State.willAnswer_nil _⟩
    cases ha : s.answer with
    | err e =>
      rw [ha] at h1
      exact ⟨[] ++ [Answer.err e], .failed [] e (by simp) (by simp), hone _ ha, h1.setST (.err (.io e))⟩
    | ok v =>
      rw [ha] at h1
      simp only
      by_cases hb : busy c v = true
      · rw [if_pos hb]
        obtain ⟨l, hw, hl, hr⟩ :=
          ih (((h1.setRV v).setPCNT (BitVec.ofNat 4 (Config.pollMax - n))).tick.tick)
        refine ⟨.ok v :: l, hw.cons hb, ?_, ?_⟩
        · refine (State.willAnswer_cons s _ _ fun ans => .tr c.regStatus ans).mpr ⟨ha, ?_⟩
          exact (State.willAnswer_congr l (by simp) (by simp)).mp hl
        · rw [List.length_cons, Nat.add_comm l.length 1, ← Nat.add_assoc, statusEvents_cons,
            List.append_cons]
          exact hr
      · rw [if_neg hb]
        exact ⟨[] ++ [Answer.ok v], .idle [] v (by simp) (by simp) (by simpa using hb), hone _ ha,
          ((h1.setRV v).setPCNT _).tick.setST (.ok none)⟩

/-- What `wait_ready` can do (40_command_poll.md R131, R133). -/
theorem waitReady_ran (c : Cfg) {s0 : State} {n0 : Nat} {e0 : List Event} {s : State}
    (h : Ran s0 n0 e0 s) :
    ∃ l, WaitEnd c 11 l (waitReady c s).1 ∧ s.willAnswer l ∧
      Ran s0 (n0 + l.length) (e0 ++ statusEvents c l) (waitReady c s).2 := by
  obtain ⟨l, hw, hl, hr⟩ := poll_ran c Config.pollMax (h.tick.setPCNT 0#4)
  refine ⟨l, hw, ?_, hr⟩
  exact (State.willAnswer_congr l (by simp) (by simp)).mp hl

/-- A wait ends in one way only: of two ends to the same answers, neither list goes beyond the other. -/
theorem WaitEnd.unique {n : Nat} {l l' x x' : List Answer} {r r' : Result} (h : WaitEnd c n l r)
    (h' : WaitEnd c n l' r') (hx : l ++ x = l' ++ x') : l = l' ∧ r = r' := by
  have stop : ∀ (k : List Answer) (a : Answer) (k' : List Answer) (b : Answer) (y y' : List Answer),
      (∀ z ∈ k, isBusy c z = true) → (∀ z ∈ k', isBusy c z = true) → isBusy c a = false →
      isBusy c b = false → (k ++ [a]) ++ y = (k' ++ [b]) ++ y' → k = k' ∧ a = b := by
    intro k
    induction k with
    | nil =>
      intro a k' b y y' _ hk' ha hb he
      cases k' with
      | nil => simpa using (by simpa using he : a = b ∧ y = y').1
      | cons z k' =>
        simp at he
        rw [he.1, hk' z (by simp)] at ha
        cases ha
    | cons z k ih =>
      intro a k' b y y' hk hk' ha hb he
      cases k' with
      | nil =>
        simp at he
        rw [← he.1, hk z (by simp)] at hb
        cases hb
      | cons z' k' =>
        simp only [List.cons_append, List.cons.injEq] at he
        obtain ⟨rfl, he⟩ := he
        obtain ⟨rfl, rfl⟩ := ih a k' b y y' (fun w hw => hk w (by simp [hw]))
          (fun w hw => hk' w (by simp [hw])) ha hb he
        exact ⟨rfl, rfl⟩
  have past : ∀ (k k' : List Answer) (b : Answer) (y y' : List Answer), (∀ z ∈ k, isBusy c z = true) →
      isBusy c b = false → k'.length < k.length → k ++ y = (k' ++ [b]) ++ y' → False := by
    intro k k' b y y' hk hb hlt he
    have h1 : (k ++ y)[k'.length]? = some b := by rw [he]; simp
    rw [List.getElem?_append_left hlt] at h1
    have := hk b (List.mem_of_getElem? h1)
    rw [this] at hb
    cases hb
  have hok : ∀ v, busy c v = false → isBusy c (.ok v) = false := fun v hv => hv
  have herr : ∀ e, isBusy c (.err e) = false := fun e => rfl
  cases h with
  | idle k v hk hn hv =>
    cases h' with
    | idle k' v' hk' hn' hv' =>
      obtain ⟨rfl, h2⟩ := stop _ _ _ _ _ _ hk hk' (hok _ hv) (hok _ hv') hx
      cases h2
      exact ⟨rfl, rfl⟩
    | failed k' e' hk' hn' =>
      obtain ⟨rfl, h2⟩ := stop _ _ _ _ _ _ hk hk' (hok _ hv) (herr _) hx
      cases h2
    | exhausted k' hk' hn' => exact (past _ _ _ _ _ hk' (hok _ hv) (by omega) hx.symm).elim
  | failed k e hk hn =>
    cases h' with
    | idle k' v' hk' hn' hv' =>
      obtain ⟨rfl, h2⟩ := stop _ _ _ _ _ _ hk hk' (herr _) (hok _ hv') hx
      cases h2
    | failed k' e' hk' hn' =>
      obtain ⟨rfl, h2⟩ := stop _ _ _ _ _ _ hk hk' (herr _) (herr _) hx
      cases h2
      exact ⟨rfl, rfl⟩
    | exhausted k' hk' hn' => exact (past _ _ _ _ _ hk' (herr _) (by omega) hx.symm).elim
  | exhausted k hk hn =>
    cases h' with
    | idle k' v' hk' hn' hv' => exact (past _ _ _ _ _ hk (hok _ hv') (by omega) hx).elim
    | failed k' e' hk' hn' => exact (past _ _ _ _ _ hk (herr _) (by omega) hx).elim
    | exhausted k' hk' hn' => exact ⟨(List.append_inj hx (by omega)).1, rfl⟩

/-- Two lists of answers to come: one begins the other. -/
theorem willAnswer_comparable {l l' : List Answer} (hl : s.willAnswer l) (hl' : s.willAnswer l') :
    ∃ x x', l ++ x = l' ++ x' := by
  rcases Nat.le_total l.length l'.length with hle | hle
  · refine ⟨l'.drop l.length, [], ?_⟩
    have : l = l'.take l.length := by
      rw [← hl, ← hl']
      simp [State.nextAnswers, ← List.map_take, List.take_range, Nat.min_eq_left hle]
    rw [List.append_nil]
    conv => lhs; lhs; rw [this]
    exact List.take_append_drop _ _
  · refine ⟨[], l.drop l'.length, ?_⟩
    have : l' = l.take l'.length := by
      rw [← hl, ← hl']
      simp [State.nextAnswers, ← List.map_take, List.take_range, Nat.min_eq_left hle]
    rw [List.append_nil]
    conv => rhs; lhs; rw [this]
    exact (List.take_append_drop _ _).symm

/-- `wait_ready` on answers that are known. -/
theorem waitReady_of {l : List Answer} {r : Result} (hw : WaitEnd c 11 l r) (hl : s.willAnswer l) :
    (waitReady c s).1 = r ∧ Ran s l.length (statusEvents c l) (waitReady c s).2 := by
  obtain ⟨l', hw', hl', hr⟩ := waitReady_ran c (Ran.refl s)
  obtain ⟨x, x', hx⟩ := willAnswer_comparable hl hl'
  obtain ⟨rfl, rfl⟩ := hw.unique hw' hx
  exact ⟨rfl, by simpa using hr⟩

/-! ## Lines that write, and calls of `wait_ready` -/

theorem writeThen_ok (a : RegAddr) (v x : W32) (k : State → Result × State) (h : s.answer = .ok x) :
    writeThen a v s k = k (s.tick.twrite a v) := by
  simp [writeThen, h]

theorem writeThen_err (a : RegAddr) (v : W32) (k : State → Result × State) {e : IoErr} (h : s.answer = .err e) :
    writeThen a v s k = ret (.err (.io e)) (s.tick.twrite a v) := by
  simp [writeThen, h]

theorem waitThen_ok (k : State → Result × State) {p : Option W32} (h : (waitReady c s.tick).1 = .ok p) :
    waitThen c s k = k (waitReady c s.tick).2 := by
  unfold waitThen
  split
  · rename_i hw; rw [hw] at h; cases h
  · rename_i hw; rw [hw]

theorem waitThen_err (k : State → Result × State) {x : ErrKind} (h : (waitReady c s.tick).1 = .err x) :
    waitThen c s k = waitReady c s.tick := by
  unfold waitThen
  split
  · rename_i hw; rw [hw]
  · rename_i hw; rw [hw] at h; cases h

/-- How a DSP write ends: the abort table of 40_command_poll.md R136. -/
inductive WriteEnd (c : Cfg) (a d : W16) : List Answer → Result → List Event → Prop where
  | address (e : IoErr) : WriteEnd c a d [.err e] (.err (.io e)) [.tw c.regAddr (zext32 a) (some e)]
  | data (x : W32) (e : IoErr) :
      WriteEnd c a d [.ok x, .err e] (.err (.io e)) [evA c a, .tw c.regData (zext32 d) (some e)]
  | command (x y : W32) (e : IoErr) :
      WriteEnd c a d [.ok x, .ok y, .err e] (.err (.io e))
        [evA c a, evD c d, .tw c.regCmd (zext32 c.cwMw) (some e)]
  | waited (x y z : W32) (l : List Answer) (r : Result) (hw : WaitEnd c 11 l r) :
      WriteEnd c a d (.ok x :: .ok y :: .ok z :: l) r
        (evA c a :: evD c d :: evC c c.cwMw :: statusEvents c l)

/-- What `write` can do (40_command_poll.md R135, R136). -/
theorem write_ran (c : Cfg) (a d : W16) {s0 : State} {n0 : Nat} {e0 : List Event} {s : State}
    (h : Ran s0 n0 e0 s) :
    ∃ l evs, WriteEnd c a d l (write c a d s).1 evs ∧ s.willAnswer l ∧
      Ran s0 (n0 + l.length) (e0 ++ evs) (write c a d s).2 := by
  have key : ∃ l evs, WriteEnd c a d l (write c a d s).1 evs ∧ s.willAnswer l ∧
      Ran s l.length evs (write c a d s).2 := by
    unfold write
    have h0 := (Ran.refl s).tick.setOperands a d
    generalize hs0 : s.tick.setOperands a d = s0 at h0
    have h1 := h0.tick.twrite c.regAddr (zext32 a)
    rw [State.tick_answer] at h1
    have hw : ∀ l, s.willAnswer l ↔ s0.willAnswer l := fun l => by
      refine State.willAnswer_congr l ?_ ?_ <;> simp [← hs0]
    cases ha : s0.answer with
    | err e =>
      rw [writeThen_err _ _ _ ha]
      rw [ha] at h1
      exact ⟨_, _, .address e, by
        rw [hw, State.willAnswer_cons s0 _ _ fun ans => .tr c.regAddr ans]
        exact ⟨ha, State.willAnswer_nil _⟩, h1.setST _⟩
    | ok x =>
      rw [writeThen_ok _ _ x _ ha]
      rw [ha] at h1
      generalize s0.tick.twrite c.regAddr (zext32 a) = s1 at h1
      have a0 : s.willAnswer [.ok x] := by
        rw [hw, State.willAnswer_cons s0 _ _ fun ans => .tr c.regAddr ans]
        exact ⟨ha, State.willAnswer_nil _⟩
      have h2 := h1.tick.twrite c.regData (zext32 d)
      rw [State.tick_answer] at h2
      have ext : ∀ (t : State) (n : Nat) (e : List Event) (p : List Answer) (b : Answer), Ran s n e t →
          n = p.length → s.willAnswer p → t.answer = b → s.willAnswer (p ++ [b]) := by
        intro t n e p b ht hn hp hb
        refine (ht.willAnswer_append p [b] hn).mpr ⟨hp, ?_⟩
        rw [State.willAnswer_cons t _ _ fun ans => .tr c.regAddr ans]
        exact ⟨hb, State.willAnswer_nil _⟩
      cases ha1 : s1.answer with
      | err e =>
        rw [writeThen_err _ _ _ ha1]
        rw [ha1] at h2
        exact ⟨_, _, .data x e, ext s1 _ _ [.ok x] _ h1 rfl a0 ha1, h2.setST _⟩
      | ok y =>
        rw [writeThen_ok _ _ y _ ha1]
        rw [ha1] at h2
        have a1 := ext s1 _ _ [.ok x] _ h1 rfl a0 ha1
        generalize s1.tick.twrite c.regData (zext32 d) = s2 at h2
        have h3 := h2.tick.twrite c.regCmd (zext32 c.cwMw)
        rw [State.tick_answer] at h3
        cases ha2 : s2.answer with
        | err e =>
          rw [writeThen_err _ _ _ ha2]
          rw [ha2] at h3
          exact ⟨_, _, .command x y e, ext s2 _ _ [.ok x, .ok y] _ h2 rfl a1 ha2, h3.setST _⟩
        | ok z =>
          rw [writeThen_ok _ _ z _ ha2]
          rw [ha2] at h3
          have a2 := ext s2 _ _ [.ok x, .ok y] _ h2 rfl a1 ha2
          generalize s2.tick.twrite c.regCmd (zext32 c.cwMw) = s3 at h3
          obtain ⟨l, hend, hl, hr⟩ := waitReady_ran c h3.tick
          have hall : s.willAnswer ([.ok x, .ok y, .ok z] ++ l) := by
            refine (h3.tick.willAnswer_append [.ok x, .ok y, .ok z] l rfl).mpr ⟨a2, hl⟩
          have hlen : 0 + 1 + 1 + 1 + l.length = (.ok x :: .ok y :: .ok z :: l : List Answer).length := by
            simp only [List.length_cons]; omega
          cases hr1 : (waitReady c s3.tick).1 with
          | err k =>
            rw [waitThen_err _ hr1]
            refine ⟨_, _, .waited x y z l _ (hr1 ▸ hend), hall, ?_⟩
            rw [hlen] at hr
            simpa [evA, evD, evC, Answer.err?] using hr
          | ok p =>
            rw [waitThen_ok _ hr1]
            have hp : p = none := by rw [hr1] at hend; cases hend; rfl
            subst hp
            refine ⟨_, _, .waited x y z l _ (hr1 ▸ hend), hall, ?_⟩
            rw [hlen] at hr
            exact (by simpa [evA, evD, evC, Answer.err?] using hr.tick.setST (.ok none) :
              Ran s _ _ _)
  obtain ⟨l, evs, h1, h2, h3⟩ := key
  exact ⟨l, evs, h1, h2, h.trans h3⟩

/-- A DSP write ends in one way only. -/
theorem WriteEnd.unique {a d : W16} {l l' x x' : List Answer} {r r' : Result} {e e' : List Event}
    (h : WriteEnd c a d l r e) (h' : WriteEnd c a d l' r' e')
    (hx : l ++ x = l' ++ x') : l = l' ∧ r = r' ∧ e = e' := by
  cases h <;> cases h' <;> simp at hx <;> try (simp_all; done)
  rename_i x1 y1 z1 l1 hw1 x2 y2 z2 l2 hw2
  obtain ⟨rfl, rfl, rfl, hx⟩ := hx
  obtain ⟨rfl, rfl⟩ := hw1.unique hw2 hx
  simp

/-- `write` on answers that are known. -/
theorem write_of {a d : W16} {l : List Answer} {r : Result} {e : List Event} (hw : WriteEnd c a d l r e)
    (hl : s.willAnswer l) :
    (write c a d s).1 = r ∧ Ran s l.length e (write c a d s).2 := by
  obtain ⟨l', e', hw', hl', hr⟩ := write_ran c a d (Ran.refl s)
  obtain ⟨x, x', hx⟩ := willAnswer_comparable hl hl'
  obtain ⟨rfl, rfl, rfl⟩ := WriteEnd.unique hw hw' hx
  exact ⟨rfl, by simpa using hr⟩

/-- The first answers of a longer list to come. -/
theorem willAnswer_left {l l' : List Answer} (h : s.willAnswer (l ++ l')) : s.willAnswer l := by
  have := congrArg (List.take l.length) h
  simpa [State.willAnswer, State.nextAnswers, ← List.map_take, List.take_range] using this

/-- A call of `wait_ready` on known answers that end in an error. -/
theorem waitThen_stop {s0 : State} {n : Nat} {e : List Event} {l : List Answer} {x : ErrKind}
    {k : State → Result × State} (hr : Ran s0 n e s) (hw : WaitEnd c 11 l (.err x)) (hl : s.willAnswer l) :
    ∃ t, waitThen c s k = (.err x, t) ∧ Ran s0 (n + l.length) (e ++ statusEvents c l) t := by
  have hl' : s.tick.willAnswer l := (State.willAnswer_congr _ (by simp) (by simp)).mpr hl
  obtain ⟨h1, h2⟩ := waitReady_of hw hl'
  exact ⟨_, (waitThen_err k h1).trans (Prod.ext h1 rfl), hr.tick.trans h2⟩

/-- A call of `wait_ready` on known answers that end idle. -/
theorem waitThen_of {s0 : State} {n : Nat} {e : List Event} {l rest : List Answer}
    {k : State → Result × State}
    (hr : Ran s0 n e s) (hw : WaitEnd c 11 l (.ok none)) (hl : s.willAnswer (l ++ rest)) :
    ∃ t, waitThen c s k = k t ∧ Ran s0 (n + l.length) (e ++ statusEvents c l) t ∧ t.willAnswer rest := by
  have hl' : s.tick.willAnswer (l ++ rest) := (State.willAnswer_congr _ (by simp) (by simp)).mpr hl
  obtain ⟨h1, h2⟩ := waitReady_of hw (willAnswer_left hl')
  refine ⟨_, waitThen_ok k h1, hr.tick.trans h2, ?_⟩
  exact ((h2.willAnswer_append l rest rfl).mp hl').2

/-- A writing line on a known answer that succeeds. -/
theorem writeThen_of {s0 : State} {n : Nat} {e : List Event} {a : RegAddr} {v x : W32} {rest : List Answer}
    {k : State → Result × State}
    (hr : Ran s0 n e s) (hl : s.willAnswer (.ok x :: rest)) :
    ∃ t, writeThen a v s k = k t ∧ Ran s0 (n + 1) (e ++ [.tw a v none]) t ∧ t.willAnswer rest := by
  have hl' : s.tick.willAnswer (.ok x :: rest) := (State.willAnswer_congr _ (by simp) (by simp)).mpr hl
  obtain ⟨h1, h2⟩ := (State.willAnswer_cons s.tick _ _ fun ans => .tw a v ans.err?).mp hl'
  rw [State.tick_answer] at h1
  have h3 := hr.tick.twrite a v
  rw [State.tick_answer, h1] at h3
  exact ⟨_, writeThen_ok _ _ _ _ h1, h3, h2⟩

end Sys2Proof.Machine
end

