-- ==== Sys2Proof/Laws/Trail.lean ====
section
/-! SUPPORT. What every procedure has in common, whatever the device answers: it appends at most so many
events, all of them allowed, a failed transport call is the last of them and its error is the result
(spec/60_exceptions.md R233; spec/70_reset_and_hazards.md R277). -/

namespace Sys2Proof.Machine

/-- A failed call ends the events, and the result is its error. -/
def Clean (r : Result) (evs : List Event) : Prop :=
  (∀ ev ∈ evs.dropLast, ev.failure = none) ∧
    ∀ e, r = .err (.io e) ↔ evs.getLast?.bind Event.failure = some e

theorem Clean.prepend {r : Result} {evs : List Event} (pre : List Event) (hp : ∀ ev ∈ pre, ev.failure = none)
    (h : Clean r evs) : Clean r (pre ++ evs) := by
  cases evs with
  | nil =>
    refine ⟨fun ev hev => hp ev ?_, fun e => ?_⟩
    · rw [List.append_nil] at hev; exact List.dropLast_subset _ hev
    · rw [h.2 e, List.append_nil]
      cases hl : pre.getLast? with
      | none => simp
      | some x => simp [hp x (List.mem_of_getLast? hl)]
  | cons a l =>
    refine ⟨fun ev hev => ?_, fun e => ?_⟩
    · rw [List.dropLast_append_of_ne_nil (by simp)] at hev
      rcases List.mem_append.mp hev with h1 | h1
      · exact hp ev h1
      · exact h.1 ev h1
    · rw [h.2 e, List.getLast?_append_of_ne_nil _ (by simp)]

theorem Clean.nil {r : Result} (h : ∀ e, r ≠ .err (.io e)) : Clean r [] :=
  ⟨by simp, fun e => by simp [h e]⟩

theorem Clean.failed {e : IoErr} {ev : Event} (h : ev.failure = some e) : Clean (.err (.io e)) [ev] :=
  ⟨by simp, fun x => by simp [h]⟩

theorem Clean.passed {r : Result} {ev : Event} (h : ev.failure = none) (hr : ∀ e, r ≠ .err (.io e)) :
    Clean r [ev] :=
  ⟨by simp, fun x => by simp [h, hr x]⟩

/-- From `s` the procedure answered `p`: its events are at most `n`, allowed and clean. -/
def Trail (c : Cfg) (n : Nat) (s : State) (p : Result × State) : Prop :=
  ∃ k evs, Ran s k evs p.2 ∧ evs.length ≤ n ∧ (∀ ev ∈ evs, allowedEvent c ev) ∧ Clean p.1 evs

theorem Trail.mono {c : Cfg} {n m : Nat} {s : State} {p : Result × State} (h : Trail c n s p) (hm : n ≤ m) :
    Trail c m s p := by
  obtain ⟨k, evs, h1, h2, h3⟩ := h
  exact ⟨k, evs, h1, h2.trans hm, h3⟩

/-- Events without a failure in front of a trail. -/
theorem Trail.prepend {c : Cfg} {n m k : Nat} {s t : State} {evs : List Event} {p : Result × State}
    (hr : Ran s k evs t) (hl : evs.length ≤ m) (ha : ∀ ev ∈ evs, allowedEvent c ev)
    (hf : ∀ ev ∈ evs, ev.failure = none) (h : Trail c n t p) : Trail c (m + n) s p := by
  obtain ⟨k', evs', h1, h2, h3, h4⟩ := h
  refine ⟨k + k', evs ++ evs', hr.trans h1, ?_, ?_, h4.prepend evs hf⟩
  · rw [List.length_append]; omega
  · intro ev hev
    rcases List.mem_append.mp hev with h5 | h5
    · exact ha ev h5
    · exact h3 ev h5

/-- A part that makes no event in front of a trail. -/
theorem Trail.silent {c : Cfg} {n k : Nat} {s t : State} {p : Result × State} (hr : Ran s k [] t)
    (h : Trail c n t p) : Trail c n s p := by
  have := Trail.prepend (m := 0) hr (by simp) (by simp) (by simp) h
  rwa [Nat.zero_add] at this

/-- A result that is no transport error, returned at once. -/
theorem Trail.ret {c : Cfg} {r : Result} (s : State) (hr : ∀ e, r ≠ .err (.io e)) : Trail c 0 s (ret r s) :=
  ⟨0, [], (Ran.refl s).setST r, by simp, by simp, Clean.nil hr⟩

theorem allowed_addr (c : Cfg) (x : W16) (f : Option IoErr) : allowedEvent c (.tw c.regAddr (zext32 x) f) :=
  .inl ⟨x, rfl, .inl rfl⟩

theorem allowed_data (c : Cfg) (x : W16) (f : Option IoErr) : allowedEvent c (.tw c.regData (zext32 x) f) :=
  .inl ⟨x, rfl, .inr rfl⟩

theorem allowed_cwMw (c : Cfg) (f : Option IoErr) : allowedEvent c (.tw c.regCmd (zext32 c.cwMw) f) :=
  .inr ⟨rfl, .inl rfl⟩

theorem allowed_cwMr (c : Cfg) (f : Option IoErr) : allowedEvent c (.tw c.regCmd (zext32 c.cwMr) f) :=
  .inr ⟨rfl, .inr (.inl rfl)⟩

theorem allowed_cwRr (c : Cfg) (f : Option IoErr) : allowedEvent c (.tw c.regCmd (zext32 c.cwRr) f) :=
  .inr ⟨rfl, .inr (.inr rfl)⟩

theorem allowed_status (c : Cfg) (a : Answer) : allowedEvent c (.tr c.regStatus a) := .inl rfl

theorem allowed_dout (c : Cfg) (a : Answer) : allowedEvent c (.tr c.regDout a) := .inr rfl

theorem Event.tr_failure (a : RegAddr) (ans : Answer) : (Event.tr a ans).failure = ans.err? := by
  cases ans <;> rfl

variable {c : Cfg} {s : State}

theorem waitReady_trail (c : Cfg) (s : State) : Trail c 11 s (waitReady c s) := by
  obtain ⟨l, hw, -, hr⟩ := waitReady_ran c (Ran.refl s)
  have hbusy : ∀ l : List Answer, (∀ a ∈ l, isBusy c a = true) →
      ∀ ev ∈ statusEvents c l, ev.failure = none := by
    intro l hl ev hev
    obtain ⟨a, ha, rfl⟩ := List.mem_map.mp hev
    obtain ⟨v, rfl, -⟩ := isBusy_ok (hl a ha)
    rfl
  have hall : ∀ l : List Answer, ∀ ev ∈ statusEvents c l, allowedEvent c ev := by
    intro l ev hev
    obtain ⟨a, -, rfl⟩ := List.mem_map.mp hev
    exact allowed_status c a
  have hlen : ∀ l : List Answer, (statusEvents c l).length = l.length := fun l => List.length_map _
  rw [Nat.zero_add, List.nil_append] at hr
  refine ⟨_, _, hr, ?_, hall l, ?_⟩
  · rw [hlen]
    revert hw
    generalize (waitReady c s).1 = r
    intro hw
    cases hw <;> (try rw [List.length_append, List.length_singleton]) <;> omega
  · revert hw
    generalize (waitReady c s).1 = r
    intro hw
    cases hw with
    | idle l v hl hn hv =>
      rw [statusEvents_append]
      exact Clean.prepend _ (hbusy l hl) (Clean.passed rfl (by simp))
    | failed l e hl hn =>
      rw [statusEvents_append]
      exact Clean.prepend _ (hbusy l hl) (Clean.failed rfl)
    | exhausted l hl hn =>
      rw [← List.append_nil (statusEvents c l)]
      exact Clean.prepend _ (hbusy l hl) (Clean.nil (by simp))

theorem writeThen_trail {n : Nat} {a : RegAddr} {v : W32} {k : State → Result × State}
    (ha : ∀ f, allowedEvent c (.tw a v f)) (hk : ∀ t, Trail c n t (k t)) :
    Trail c (n + 1) s (writeThen a v s k) := by
  have h1 := (Ran.refl s).tick.twrite a v
  rw [State.tick_answer] at h1
  cases h : s.answer with
  | err e =>
    rw [writeThen_err _ _ _ h]
    rw [h] at h1
    exact ⟨_, _, h1.setST _, by simp, by simpa using ha _, Clean.failed rfl⟩
  | ok x =>
    rw [writeThen_ok _ _ x _ h]
    rw [h] at h1
    rw [Nat.add_comm]
    exact Trail.prepend h1 (by simp) (by simpa using ha _) (by simp [Answer.err?, Event.failure]) (hk _)

theorem Clean.not_io {evs : List Event} {p : Option W32} (h : Clean (.ok p) evs) :
    ∀ ev ∈ evs, ev.failure = none := by
  intro ev hev
  by_cases hne : evs = []
  · subst hne; cases hev
  · rw [← List.dropLast_concat_getLast hne] at hev
    rcases List.mem_append.mp hev with h1 | h1
    · exact h.1 ev h1
    · have h2 : ev = evs.getLast hne := by simpa using h1
      cases hf : ev.failure with
      | none => rfl
      | some e =>
        have := (h.2 e).mpr (by rw [List.getLast?_eq_getLast_of_ne_nil hne]; simpa [← h2] using hf)
        cases this

/-- A trail whose result is `Ok`, in front of another. -/
theorem Trail.andThen {n m : Nat} {t : State} {x : Option W32} {p : Result × State}
    (h : Trail c n s (.ok x, t)) (h' : Trail c m t p) : Trail c (n + m) s p := by
  obtain ⟨k, evs, h1, h2, h3, h4⟩ := h
  exact Trail.prepend h1 h2 h3 h4.not_io h'

theorem waitThen_trail {n : Nat} {k : State → Result × State} (hk : ∀ t, Trail c n t (k t)) :
    Trail c (11 + n) s (waitThen c s k) := by
  have h := waitReady_trail c s.tick
  refine Trail.silent ((Ran.refl s).tick) ?_
  unfold waitThen
  generalize waitReady c s.tick = p at h
  obtain ⟨r, t⟩ := p
  cases r with
  | err x => exact h.mono (by omega)
  | ok x => exact h.andThen (hk t)

theorem write_trail (c : Cfg) (a d : W16) (s : State) : Trail c 14 s (write c a d s) := by
  refine Trail.silent ((Ran.refl s).tick.setOperands a d) ?_
  refine writeThen_trail (n := 13) (allowed_addr c a) fun t => ?_
  refine writeThen_trail (n := 12) (allowed_data c d) fun t => ?_
  refine writeThen_trail (n := 11) (allowed_cwMw c) fun t => ?_
  refine waitThen_trail (n := 0) fun t => ?_
  exact Trail.silent (Ran.refl t).tick (Trail.ret _ (by simp))

theorem readOut_trail (c : Cfg) (s : State) : Trail c 1 s (readOut c s) := by
  have h1 := (Ran.refl s).tick.tread c.regDout
  rw [State.tick_answer] at h1
  unfold readOut
  rw [State.tick_answer]
  cases h : s.answer with
  | err e =>
    rw [h] at h1
    exact ⟨_, _, h1.setST (.err (.io e)), by simp, by simpa using allowed_dout c _, Clean.failed rfl⟩
  | ok v =>
    rw [h] at h1
    exact ⟨_, _, (h1.setRV v).tick.setST (.ok (some v)), by simp, by simpa using allowed_dout c _,
      Clean.passed rfl (by simp)⟩

theorem read_trail (c : Cfg) (r : W16) (s : State) : Trail c 51 s (read c r s) := by
  refine Trail.silent ((Ran.refl s).tick.setRA r) ?_
  refine waitThen_trail (n := 40) fun t => ?_
  refine writeThen_trail (n := 39) (allowed_addr c r) fun t => ?_
  refine writeThen_trail (n := 38) (allowed_cwMr c) fun t => ?_
  refine waitThen_trail (n := 27) fun t => ?_
  refine writeThen_trail (n := 26) (allowed_addr c _) fun t => ?_
  refine writeThen_trail (n := 25) (allowed_cwRr c) fun t => ?_
  refine waitThen_trail (n := 14) fun t => ?_
  refine writeThen_trail (n := 13) (allowed_addr c _) fun t => ?_
  refine writeThen_trail (n := 12) (allowed_cwRr c) fun t => ?_
  exact waitThen_trail (n := 1) fun t => readOut_trail c t

end Sys2Proof.Machine
end

