-- ==== Sys2Proof/Laws/Firmware.lean ====
section
/-! SUPPORT. What `apply_mode` and its parts do: the checks in their order, and the replay of the entries
(spec/41_firmware_replay.md R165, R167, R170, R172). -/

namespace Sys2Proof.Machine

variable {c : Cfg} {s : State}

/-! ## Fetches -/

theorem memRead_absent (o : Nat) : memRead none o = .fault (.imgFetch o) := rfl

theorem memRead_some {m : Memory} {o : Nat} {b : Byte} (h : Memory.read m o = some b) :
    memRead (some m) o = .next b := by simp [memRead, h]

theorem memRead_none {m : Memory} {o : Nat} (h : Memory.read m o = none) :
    memRead (some m) o = .fault (.imgFetch o) := by simp [memRead, h]

/-- A fetch answers a byte or the fault that names its offset. -/
theorem memRead_cases (fw : Option Memory) (o : Nat) :
    (∃ b, memRead fw o = .next b) ∨ memRead fw o = .fault (.imgFetch o) := by
  cases fw with
  | none => exact .inr rfl
  | some m =>
    cases h : Memory.read m o with
    | none => exact .inr (memRead_none h)
    | some b => exact .inl ⟨b, memRead_some h⟩

theorem fetchHdr_some {m : Memory} {n : Byte} (h : Memory.read m 0 = some n) :
    fetchHdr (some m) = .next n := memRead_some h

theorem fetchDesc_some {m : Memory} {d : Nat} {b0 b1 b2 : Byte} (h0 : Memory.read m d = some b0)
    (h1 : Memory.read m (d + 1) = some b1) (h2 : Memory.read m (d + 2) = some b2) :
    fetchDesc (some m) d = .next (bigEndian b0 b1, b2) := by
  simp [fetchDesc, memRead_some h0, memRead_some h1, memRead_some h2]

theorem fetchEntry_some {m : Memory} {e : Nat} {b0 b1 b2 b3 : Byte} (h0 : Memory.read m e = some b0)
    (h1 : Memory.read m (e + 1) = some b1) (h2 : Memory.read m (e + 2) = some b2)
    (h3 : Memory.read m (e + 3) = some b3) :
    fetchEntry (some m) e = .next (bigEndian b0 b1, bigEndian b2 b3) := by
  simp [fetchEntry, memRead_some h0, memRead_some h1, memRead_some h2, memRead_some h3]

/-- A descriptor beyond the image faults at its first byte that the image does not have. -/
theorem fetchDesc_short {m : Memory} {d : Nat} (hw : Memory.wf m = true) (h : Memory.size m < d + 3) :
    fetchDesc (some m) d = .fault (.imgFetch (max d (Memory.size m))) := by
  unfold fetchDesc
  by_cases h0 : d < Memory.size m
  · obtain ⟨b0, hb0⟩ := Memory.read_of_lt m d hw h0
    rw [memRead_some hb0, andThen_next]
    by_cases h1 : d + 1 < Memory.size m
    · obtain ⟨b1, hb1⟩ := Memory.read_of_lt m (d + 1) hw h1
      rw [memRead_some hb1, andThen_next, memRead_none (Memory.read_of_le m (d + 2) hw (by omega)), andThen_fault]
      congr 2; omega
    · rw [memRead_none (Memory.read_of_le m (d + 1) hw (by omega)), andThen_fault]
      congr 2; omega
  · rw [memRead_none (Memory.read_of_le m d hw (by omega)), andThen_fault]
    congr 2; omega

/-- An entry inside the image is fetched. -/
theorem fetchEntry_inside {m : Memory} {e : Nat} (hw : Memory.wf m = true) (h : e + 4 ≤ Memory.size m) :
    ∃ b0 b1 b2 b3, Memory.read m e = some b0 ∧ Memory.read m (e + 1) = some b1 ∧
      Memory.read m (e + 2) = some b2 ∧ Memory.read m (e + 3) = some b3 ∧
      fetchEntry (some m) e = .next (bigEndian b0 b1, bigEndian b2 b3) := by
  obtain ⟨b0, h0⟩ := Memory.read_of_lt m e hw (by omega)
  obtain ⟨b1, h1⟩ := Memory.read_of_lt m (e + 1) hw (by omega)
  obtain ⟨b2, h2⟩ := Memory.read_of_lt m (e + 2) hw (by omega)
  obtain ⟨b3, h3⟩ := Memory.read_of_lt m (e + 3) hw (by omega)
  exact ⟨b0, b1, b2, b3, h0, h1, h2, h3, fetchEntry_some h0 h1 h2 h3⟩

theorem andThen_eq_next {α β : Type} {x : Out α} {k : α → Out β} {b : β} (h : andThen x k = .next b) :
    ∃ a, x = .next a ∧ k a = .next b := by
  cases x with
  | next a => exact ⟨a, rfl, h⟩
  | fault f => cases h
  | refused r => cases h

/-! ## Events -/

theorem writeEntry_trail (c : Cfg) (a d : W16) (s : State) : Trail c 14 s (writeEntry c a d s) :=
  Trail.silent ((Ran.refl s).tick.setOperands a d).tick (write_trail c a d _)

theorem replayEntry_trail (c : Cfg) (ei : BitVec 8) (ep : BitVec 17) (a d : W16) (s : State) :
    Trail c 14 s (replayEntry c ei ep a d s) := by
  have h := writeEntry_trail c a d s
  unfold replayEntry
  generalize writeEntry c a d s = p at h
  obtain ⟨r, t⟩ := p
  cases r with
  | err x => exact h
  | ok x =>
    obtain ⟨k, evs, h1, h2⟩ := h
    exact ⟨k, evs, h1.tick.setEntry _ _, h2⟩

theorem replay_trail (c : Cfg) (n : Nat) (ei : BitVec 8) (ep : BitVec 17) (s : State) (p : Result × State)
    (h : replay c n ei ep s = .next p) : Trail c (14 * n) s p := by
  induction n generalizing ei ep s with
  | zero =>
    cases h
    exact Trail.silent (Ran.refl s).tick (Trail.ret _ (by simp))
  | succ n ih =>
    unfold replay at h
    obtain ⟨entry, -, h⟩ := andThen_eq_next h
    have h1 := replayEntry_trail c ei ep entry.1 entry.2 s.tick
    refine Trail.silent (Ran.refl s).tick ?_
    revert h
    generalize replayEntry c ei ep entry.1 entry.2 s.tick = q at h1
    obtain ⟨r, t⟩ := q
    cases r with
    | err x => intro h; cases h; exact h1.mono (by omega)
    | ok x => intro h; exact (h1.andThen (ih _ _ _ h)).mono (by omega)

theorem checkAndReplay_trail (c : Cfg) (p : W16) (n : Byte) (s : State) (q : Result × State)
    (h : checkAndReplay c p n s = .next q) : Trail c (255 * 14) s q := by
  unfold checkAndReplay at h
  split at h
  · cases h
    exact (Trail.silent (Ran.refl s).tick (Trail.ret _ (by simp))).mono (by omega)
  · refine (Trail.silent ((Ran.refl s).tick.tick.setEntry _ _) (replay_trail _ _ _ _ _ _ h)).mono ?_
    have : n.toNat < 256 := n.isLt
    omega

theorem applyMode_trail (c : Cfg) (index : W32) (s : State) (q : Result × State)
    (h : applyMode c index s = .next q) : Trail c (255 * 14) s q := by
  unfold applyMode at h
  refine Trail.silent ((Ran.refl s).tick.setMI index).tick ?_
  revert h
  generalize (s.tick.setMI index).tick = s1
  intro h
  simp only at h
  split at h
  · cases h; exact (Trail.ret _ (by simp)).mono (by omega)
  · unfold countAndReplay at h
    obtain ⟨n, -, h⟩ := andThen_eq_next h
    refine Trail.silent ((Ran.refl s1).tick.setMC n).tick ?_
    simp only at h
    split at h
    · cases h; exact (Trail.ret _ (by simp)).mono (by omega)
    · unfold lookUpAndReplay at h
      split at h
      · cases h; exact (Trail.silent (Ran.refl _).tick (Trail.ret _ (by simp))).mono (by omega)
      · obtain ⟨p, -, h⟩ := andThen_eq_next h
        exact Trail.silent ((Ran.refl _).tick.tick.setDesc _ _) (checkAndReplay_trail _ _ _ _ _ h)

/-! ## No refusal, and the replay inside its bounds -/

theorem andThen_ne_refused {α β : Type} {x : Out α} {k : α → Out β} {r : Refusal}
    (hx : ∀ r, x ≠ .refused r) (hk : ∀ a r, k a ≠ .refused r) : andThen x k ≠ .refused r := by
  cases x with
  | next a => exact hk a r
  | fault f => simp
  | refused r => exact absurd rfl (hx r)

theorem memRead_ne_refused (fw : Option Memory) (o : Nat) (r : Refusal) : memRead fw o ≠ .refused r := by
  rcases memRead_cases fw o with ⟨b, h⟩ | h <;> rw [h] <;> simp

theorem fetchDesc_ne_refused (fw : Option Memory) (d : Nat) (r : Refusal) : fetchDesc fw d ≠ .refused r :=
  andThen_ne_refused (memRead_ne_refused _ _) fun _ _ =>
  andThen_ne_refused (memRead_ne_refused _ _) fun _ _ =>
  andThen_ne_refused (memRead_ne_refused _ _) fun _ _ => by simp

theorem fetchEntry_ne_refused (fw : Option Memory) (e : Nat) (r : Refusal) : fetchEntry fw e ≠ .refused r :=
  andThen_ne_refused (memRead_ne_refused _ _) fun _ _ =>
  andThen_ne_refused (memRead_ne_refused _ _) fun _ _ =>
  andThen_ne_refused (memRead_ne_refused _ _) fun _ _ =>
  andThen_ne_refused (memRead_ne_refused _ _) fun _ _ => by simp

theorem replay_ne_refused (c : Cfg) (n : Nat) (ei : BitVec 8) (ep : BitVec 17) (s : State) (r : Refusal) :
    replay c n ei ep s ≠ .refused r := by
  induction n generalizing ei ep s r with
  | zero => simp [replay]
  | succ n ih =>
    unfold replay
    refine andThen_ne_refused (fetchEntry_ne_refused _ _) fun entry r => ?_
    split
    · simp
    · exact ih _ _ _ _

/-- `apply_mode` is never refused. -/
theorem applyMode_ne_refused (c : Cfg) (index : W32) (s : State) (r : Refusal) :
    applyMode c index s ≠ .refused r := by
  unfold applyMode
  simp only
  split
  · simp
  · refine andThen_ne_refused (memRead_ne_refused _ _) fun n r => ?_
    simp only
    split
    · simp
    · unfold lookUpAndReplay
      split
      · simp
      · refine andThen_ne_refused (fetchDesc_ne_refused _ _) fun p r => ?_
        unfold checkAndReplay
        split
        · simp
        · exact replay_ne_refused _ _ _ _ _ _

/-- The register writes of some events: a beginning of `ws`, all of it when the result is `Ok`. -/
def WritesUpTo (r : Result) (evs : List Event) (ws : List (RegAddr × W32)) : Prop :=
  writesOf evs <+: ws ∧ ∀ p, r = .ok p → writesOf evs = ws

theorem writesOf_append (e e' : List Event) : writesOf (e ++ e') = writesOf e ++ writesOf e' :=
  List.filterMap_append

theorem writesOf_status (c : Cfg) (l : List Answer) : writesOf (statusEvents c l) = [] := by
  induction l with
  | nil => rfl
  | cons a l ih => exact ih

/-- The register writes of one DSP write (40_command_poll.md R135, R136). -/
theorem WriteEnd.writes {a d : W16} {l : List Answer} {r : Result} {evs : List Event}
    (h : WriteEnd c a d l r evs) : WritesUpTo r evs (writesOfEntry c a d) := by
  cases h with
  | address e => exact ⟨⟨[_, _], rfl⟩, by simp⟩
  | data x e => exact ⟨⟨[_], rfl⟩, by simp⟩
  | command x y e => exact ⟨⟨[], rfl⟩, by simp⟩
  | waited x y z l r hw =>
    have : writesOf (evA c a :: evD c d :: evC c c.cwMw :: statusEvents c l) = writesOfEntry c a d := by
      show writesOf ([evA c a, evD c d, evC c c.cwMw] ++ statusEvents c l) = _
      rw [writesOf_append, writesOf_status]; rfl
    exact ⟨by rw [this], fun _ _ => this⟩

theorem Ran.fw_of {m : Memory} {n : Nat} {e : List Event} {t : State} (h : Ran s n e t)
    (hm : s.fw = some m) : t.fw = some m := h.fw_present hm

/-- Inside the bounds the replay neither faults nor writes anything but its entries, in order
(41_firmware_replay.md R167, R170, R172). -/
theorem replay_inside (c : Cfg) (m : Memory) (hw : Memory.wf m = true) (n : Nat) (ei : BitVec 8)
    (ep : BitVec 17) (s : State) (hm : s.fw = some m) (hin : ep.toNat + 5 * n ≤ Memory.size m)
    (h17 : ep.toNat + 5 * n < 2 ^ 17) :
    ∃ p, replay c n ei ep s = .next p ∧ ∃ k evs, Ran s k evs p.2 ∧
      WritesUpTo p.1 evs (writesOfEntries c m n ep.toNat) := by
  induction n generalizing ei ep s with
  | zero =>
    exact ⟨_, rfl, 0, [], (Ran.refl s).tick.setST _, ⟨[], rfl⟩, fun _ _ => rfl⟩
  | succ n ih =>
    obtain ⟨b0, b1, b2, b3, h0, h1, h2, h3, hf⟩ := fetchEntry_inside (e := ep.toNat) hw (by omega)
    have htm : s.tick.fw = some m := (Ran.refl s).tick.fw_present hm
    have hws : writesOfEntries c m (n + 1) ep.toNat =
        writesOfEntry c (bigEndian b0 b1) (bigEndian b2 b3) ++ writesOfEntries c m n (ep.toNat + 5) := by
      simp [writesOfEntries, h0, h1, h2, h3]
    rw [hws]
    unfold replay
    rw [htm, hf, andThen_next]
    have hr0 := ((Ran.refl s).tick.tick.setOperands (bigEndian b0 b1) (bigEndian b2 b3)).tick
    obtain ⟨l, evs, hend, -, hran⟩ := write_ran c (bigEndian b0 b1) (bigEndian b2 b3) hr0
    unfold replayEntry writeEntry
    revert hend hran
    generalize write c (bigEndian b0 b1) (bigEndian b2 b3)
      (s.tick.tick.setOperands (bigEndian b0 b1) (bigEndian b2 b3)).tick = q
    obtain ⟨r, t⟩ := q
    intro hend hran
    have hwr := hend.writes
    cases r with
    | err x =>
      refine ⟨_, rfl, _, _, hran, ?_, by simp⟩
      exact hwr.1.trans ⟨_, rfl⟩
    | ok x =>
      have hep : (ep + 5#17).toNat = ep.toNat + 5 := by
        rw [BitVec.toNat_add]
        show (ep.toNat + 5) % 2 ^ 17 = _
        omega
      have hran' := hran.tick.setEntry (ei + 1#8) (ep + 5#17)
      obtain ⟨p, hp, k, evs', hr', hu⟩ := ih (ei + 1#8) (ep + 5#17) _ (hran'.fw_present hm)
        (by rw [hep]; omega) (by rw [hep]; omega)
      rw [hep] at hu
      refine ⟨p, hp, _, _, hran'.trans hr', ?_, ?_⟩
      · rw [List.nil_append, writesOf_append, hwr.2 _ rfl]
        exact (List.prefix_append_right_inj _).mpr hu.1
      · intro y hy
        rw [List.nil_append, writesOf_append, hwr.2 _ rfl, hu.2 y hy]

/-! ## The checks, one by one (30_encoding.md R115) -/

variable {m : Memory}

/-- The state in which AM.2's fetch is made, and the ones behind it. -/
theorem Ran.toCount (s : State) (index : W32) : Ran s 0 [] (s.tick.setMI index).tick :=
  ((Ran.refl s).tick.setMI index).tick

theorem Ran.toIndexCheck (s : State) (n : Byte) : Ran s 0 [] (s.tick.setMC n).tick :=
  ((Ran.refl s).tick.setMC n).tick

theorem applyMode_present (c : Cfg) (index : W32) (h : s.fw = some m) :
    applyMode c index s = countAndReplay c index (s.tick.setMI index).tick := by
  have := (Ran.toCount s index).fw_present h
  unfold applyMode
  simp only [this]

/-- AM.1: no image. -/
theorem applyMode_absent (c : Cfg) (index : W32) (h : (s.tick.setMI index).tick.fw = none) :
    applyMode c index s = .next (ret (.err .noFirmware) (s.tick.setMI index).tick) := by
  unfold applyMode
  simp only [h]

/-- AM.2: an empty image. -/
theorem countAndReplay_empty (c : Cfg) (index : W32) (h : s.fw = some m) (h0 : Memory.read m 0 = none) :
    countAndReplay c index s = .fault (.imgFetch 0) := by
  have := (Ran.refl s).tick.fw_present h
  unfold countAndReplay fetchHdr
  rw [this, show Config.countOff = 0 from rfl, memRead_none h0, andThen_fault]

theorem countAndReplay_some (c : Cfg) (index : W32) {n : Byte} (h : s.fw = some m)
    (h0 : Memory.read m 0 = some n) :
    countAndReplay c index s =
      if n.toNat < index.toNat then .next (ret (.err .invalidMode) (s.tick.setMC n).tick)
      else lookUpAndReplay c index (s.tick.setMC n).tick := by
  have := (Ran.refl s).tick.fw_present h
  unfold countAndReplay
  rw [this, fetchHdr_some h0, andThen_next]
  have hz : (index > zextCount n) ↔ n.toNat < index.toNat := by
    show zextCount n < index ↔ _
    rw [BitVec.lt_def, zextCount, BitVec.toNat_setWidth_of_le (by omega)]
  simp only [hz]

theorem lookUpAndReplay_none (c : Cfg) (index : W32) (s : State) (h : descOff c index = none) :
    lookUpAndReplay c index s = .next (ret (.ok none) s.tick) := by
  unfold lookUpAndReplay; rw [h]

theorem lookUpAndReplay_short (c : Cfg) (index : W32) {d : Nat} (h : s.fw = some m)
    (hw : Memory.wf m = true) (hd : descOff c index = some d) (hs : Memory.size m < d + 3) :
    lookUpAndReplay c index s = .fault (.imgFetch (max d (Memory.size m))) := by
  have := (Ran.refl s).tick.tick.fw_present h
  unfold lookUpAndReplay
  simp only [hd]
  rw [this, fetchDesc_short hw hs, andThen_fault]

theorem lookUpAndReplay_some (c : Cfg) (index : W32) {d : Nat} {b0 b1 b2 : Byte} (h : s.fw = some m)
    (hd : descOff c index = some d) (h0 : Memory.read m d = some b0)
    (h1 : Memory.read m (d + 1) = some b1) (h2 : Memory.read m (d + 2) = some b2) :
    lookUpAndReplay c index s =
      checkAndReplay c (bigEndian b0 b1) b2 (s.tick.tick.setDesc (bigEndian b0 b1) b2) := by
  have := (Ran.refl s).tick.tick.fw_present h
  unfold lookUpAndReplay
  simp only [hd]
  rw [this, fetchDesc_some h0 h1 h2, andThen_next]

theorem regionEnd_bigEndian (b0 b1 b2 : Byte) :
    regionEnd (bigEndian b0 b1) b2 = 256 * b0.toNat + b1.toNat + 5 * b2.toNat := by
  unfold regionEnd
  rw [bigEndian_toNat]; rfl

theorem checkAndReplay_outside (c : Cfg) {p : W16} {n : Byte} (h : s.fw = some m)
    (hx : Memory.size m < regionEnd p n) :
    checkAndReplay c p n s = .next (ret (.err .outOfBounds) s.tick) := by
  have := (Ran.refl s).tick.fw_present h
  unfold checkAndReplay
  rw [this]
  exact if_pos hx

/-- AM.6 to AM.11 with the region inside the image. -/
theorem checkAndReplay_inside (c : Cfg) {p : W16} {n : Byte} (h : s.fw = some m) (hw : Memory.wf m = true)
    (hx : regionEnd p n ≤ Memory.size m) :
    ∃ q, checkAndReplay c p n s = .next q ∧ ∃ k evs, Ran s k evs q.2 ∧
      WritesUpTo q.1 evs (writesOfEntries c m n.toNat p.toNat) := by
  have hm := (Ran.refl s).tick.fw_present h
  have hr := (Ran.refl s).tick.tick.setEntry 0#8 (p.setWidth 17)
  have hp : (p.setWidth 17).toNat = p.toNat := BitVec.toNat_setWidth_of_le (by omega)
  have hn : n.toNat < 256 := n.isLt
  have hp16 : p.toNat < 65536 := p.isLt
  unfold regionEnd Config.entrySize at hx
  unfold checkAndReplay
  rw [hm, if_neg (by simp only [regionEnd, Config.entrySize, fwLen]; omega)]
  obtain ⟨q, hq, k, evs, h1, h2⟩ := replay_inside c m hw n.toNat 0#8 (p.setWidth 17) _ (hr.fw_present h)
    (by rw [hp]; exact hx) (by rw [hp]; omega)
  rw [hp] at h2
  refine ⟨q, hq, _, _, hr.trans h1, ?_⟩
  rw [List.nil_append]; exact h2

/-! ## The replay's registers across its callees (10_state.md R28) -/

theorem poll_keeps (c : Cfg) (n : Nat) (s : State) : SameReplay s (poll c n s).2 := by
  unfold SameReplay
  induction n generalizing s with
  | zero => simp [poll, ret, State.setST]
  | succ n ih =>
    rw [poll_succ]
    split
    · simp [ret, State.setST]
    · split
      · have := ih (((s.tick.tread c.regStatus).setRV ‹_›).setPCNT (BitVec.ofNat 4 (Config.pollMax - n))).tick.tick
        simpa [State.setRV, State.setPCNT] using this
      · simp [ret, State.setST, State.setRV, State.setPCNT]

theorem waitReady_keeps (c : Cfg) (s : State) : SameReplay s (waitReady c s).2 := by
  have := poll_keeps c Config.pollMax (s.tick.setPCNT 0#4)
  simpa [SameReplay, waitReady, State.setPCNT] using this

theorem writeThen_keeps {a : RegAddr} {v : W32} {k : State → Result × State} (s : State)
    (hk : ∀ t, SameReplay t (k t).2) : SameReplay s (writeThen a v s k).2 := by
  unfold writeThen
  split
  · simp [SameReplay, ret, State.setST]
  · have := hk (s.tick.twrite a v)
    simpa [SameReplay] using this

theorem write_keeps (c : Cfg) (a d : W16) (s : State) : SameReplay s (write c a d s).2 := by
  have h : SameReplay (s.tick.setOperands a d) (write c a d s).2 :=
    writeThen_keeps _ fun t => writeThen_keeps _ fun t => writeThen_keeps _ fun t => by
      have h := waitReady_keeps c t.tick
      unfold waitThen
      generalize waitReady c t.tick = p at h
      obtain ⟨r, u⟩ := p
      cases r <;> simpa [SameReplay, ret, State.setST] using h
  simpa [SameReplay, State.setOperands] using h

theorem writeEntry_keeps (c : Cfg) (a d : W16) (s : State) : SameReplay s (writeEntry c a d s).2 := by
  simpa [SameReplay, State.setOperands, writeEntry] using write_keeps c a d (s.tick.setOperands a d).tick

theorem replayEntry_keeps (c : Cfg) (ei : BitVec 8) (ep : BitVec 17) (a d : W16) (s : State) :
    SameReplay s (replayEntry c ei ep a d s).2 := by
  have h := writeEntry_keeps c a d s
  unfold replayEntry
  generalize writeEntry c a d s = p at h
  obtain ⟨r, u⟩ := p
  cases r <;> simpa [SameReplay, State.setEntry] using h

end Sys2Proof.Machine
end

