-- ==== Sys2Proof/Laws/Events.lean ====
section
/-! SUPPORT. What the host events and their sub-procedures do (spec/42_mode_state_events.md R195 to R205), and
every host operation as one body behind `hostOp`. -/

namespace Sys2Proof.Machine

variable {c : Cfg} {s t u : State} {n m : Nat}

/-- From `s` to `t`: at most `n` events, all allowed. -/
def Span (c : Cfg) (n : Nat) (s t : State) : Prop :=
  ∃ k evs, Ran s k evs t ∧ evs.length ≤ n ∧ ∀ ev ∈ evs, allowedEvent c ev

theorem Trail.span {p : Result × State} (h : Trail c n s p) : Span c n s p.2 := by
  obtain ⟨k, evs, h1, h2, h3, -⟩ := h
  exact ⟨k, evs, h1, h2, h3⟩

theorem Ran.span {k : Nat} (h : Ran s k [] t) : Span c 0 s t := ⟨k, [], h, by simp, by simp⟩

theorem Span.trans (h : Span c n s t) (h' : Span c m t u) : Span c (n + m) s u := by
  obtain ⟨k, evs, h1, h2, h3⟩ := h
  obtain ⟨k', evs', h1', h2', h3'⟩ := h'
  refine ⟨_, _, h1.trans h1', by rw [List.length_append]; omega, fun ev hev => ?_⟩
  rcases List.mem_append.mp hev with h4 | h4
  · exact h3 ev h4
  · exact h3' ev h4

theorem Span.mono (h : Span c n s t) (hn : n ≤ m) : Span c m s t := by
  obtain ⟨k, evs, h1, h2, h3⟩ := h
  exact ⟨k, evs, h1, h2.trans hn, h3⟩

theorem Span.tick (h : Span c n s t) : Span c n s t.tick := by
  obtain ⟨k, evs, h1, h2⟩ := h
  exact ⟨k, evs, h1.tick, h2⟩

theorem Span.setST (h : Span c n s t) (r : Result) : Span c n s (t.setST r) := by
  obtain ⟨k, evs, h1, h2⟩ := h
  exact ⟨k, evs, h1.setST r, h2⟩

theorem Span.emit (h : Span c n s t) {ev : Event} (ha : allowedEvent c ev) : Span c (n + 1) s (t.emit ev) :=
  h.trans ⟨0, [ev], (Ran.refl t).emit ev, by simp, by simpa using ha⟩

theorem reportsOfAnswer_length (a : Answer) : (reportsOfAnswer a).length ≤ 1 := by cases a <;> simp [reportsOfAnswer]

theorem reportsOfResult_length (r : Result) : (reportsOfResult r).length ≤ 1 := by cases r <;> simp [reportsOfResult]

theorem reportsOfAnswer_allowed (c : Cfg) (a : Answer) : ∀ ev ∈ reportsOfAnswer a, allowedEvent c ev := by
  cases a <;> simp [reportsOfAnswer, allowedEvent]

theorem reportsOfResult_allowed (c : Cfg) (r : Result) : ∀ ev ∈ reportsOfResult r, allowedEvent c ev := by
  cases r <;> simp [reportsOfResult, allowedEvent]

theorem Span.reportIf (h : Span c n s t) (r : Result) : Span c (n + 1) s (t.reportIf r) :=
  h.trans ⟨0, reportsOfResult r, (Ran.refl t).reportIf r, reportsOfResult_length r, reportsOfResult_allowed c r⟩

theorem Span.updateOrReport (h : Span c n s t) {a : RegAddr} {x v : W32}
    (ha : ∀ f, allowedEvent c (.tu a x v f)) : Span c (n + 2) s (t.updateOrReport a x v) := by
  refine h.trans ⟨_, _, (Ran.refl t).updateOrReport a x v, ?_, ?_⟩
  · have := reportsOfAnswer_length t.answer
    simp only [List.nil_append, List.length_append, List.length_singleton]; omega
  · intro ev hev
    rw [List.nil_append, List.mem_append, List.mem_singleton] at hev
    rcases hev with rfl | hev
    · exact ha _
    · exact reportsOfAnswer_allowed c _ ev hev

theorem allowed_rstOn (c : Cfg) (f : Option IoErr) : allowedEvent c (.tu c.rstReg c.rstMask c.rstAssert f) :=
  .inl ⟨rfl, rfl, .inl rfl⟩

theorem allowed_rstOff (c : Cfg) (f : Option IoErr) : allowedEvent c (.tu c.rstReg c.rstMask c.rstDeassert f) :=
  .inl ⟨rfl, rfl, .inr rfl⟩

theorem allowed_resetSettle (c : Cfg) : allowedEvent c (.dl c.tResetSettle) := Or.inl rfl

theorem allowed_pwrOn (c : Cfg) (f : Option IoErr) : allowedEvent c (.tu c.pwrReg c.pwrMask c.pwrOn f) :=
  .inr ⟨rfl, rfl, .inl rfl⟩

theorem allowed_pwrOff (c : Cfg) (f : Option IoErr) : allowedEvent c (.tu c.pwrReg c.pwrMask c.pwrOff f) :=
  .inr ⟨rfl, rfl, .inr rfl⟩

/-! ## The events and their sub-procedures -/

theorem resetPulse_span (c : Cfg) (s : State) : Span c 5 s (resetPulse c s) :=
  ((((Ran.refl s).tick.span.updateOrReport (allowed_rstOn c)).tick.emit
    (allowed_resetSettle c)).tick.updateOrReport
    (allowed_rstOff c)).tick

theorem pdWrite_span (c : Cfg) (s : State) : Span c 15 s (pdWrite c s) :=
  (((Ran.refl s).tick.span.trans (write_trail c c.pdAddr c.pdValue s.tick).span).mono
    (by omega : 0 + 14 ≤ 14)).tick.reportIf _ |>.tick

theorem powerDown_span (c : Cfg) (s : State) : Span c 15 s (powerDown c s).2 :=
  (((Ran.refl s).tick.span.trans (pdWrite_span c s.tick)).mono (by omega : 0 + 15 ≤ 15)).tick.setST _

theorem powerUp_next (c : Cfg) (s : State) (p : Result × State) (h : powerUp c s = .next p) :
    p.1 = .ok none ∧ Span c 3576 s p.2 := by
  unfold powerUp at h
  obtain ⟨q, hq, h⟩ := andThen_eq_next h
  cases h
  refine ⟨rfl, ?_⟩
  have h1 := ((Ran.refl s).tick.span.trans (resetPulse_span c s.tick)).tick
  have h2 := (h1.trans (applyMode_trail c _ _ _ hq).span).tick.reportIf q.1
  exact (h2.tick.setST (.ok none)).mono (by omega)

theorem probeTail_span (c : Cfg) (s : State) : Span c 19 s (probeTail c s).2 := by
  have h1 := ((Ran.refl s).tick.span.emit (c := c) (ev := .dl c.tProbeSettle) (Or.inr rfl)).tick
  have h2 := (h1.trans (pdWrite_span c _)).tick.updateOrReport (allowed_pwrOff c)
  have h3 : Span c (0 + 1 + 15 + 2 + 1) s _ := h2.tick.emit (ev := .fq c.fwName) rfl
  exact h3.tick.setST (.ok none)

theorem probe_next (c : Cfg) (s : State) (p : Result × State) (h : probe c s = .next p) :
    p.1 = .ok none ∧ Span c 3596 s p.2 := by
  unfold probe at h
  obtain ⟨q, hq, h⟩ := andThen_eq_next h
  cases h
  refine ⟨rfl, ?_⟩
  have h1 := ((Ran.refl s).tick.span.updateOrReport (allowed_pwrOn c)).tick
  have h2 := ((h1.trans (resetPulse_span c _)).tick.trans (applyMode_trail c _ _ _ hq).span)
  exact (h2.trans (probeTail_span c q.2)).mono (by omega)

/-! ## Every host operation as one body -/

/-- What a host operation runs between the taking of its request and its response. -/
def opBody (c : Cfg) (i : Instr) (s : State) : Out (Result × State) :=
  match i with
  | .waitReady => .next (waitReady c s)
  | .dspWrite a d => .next (write c a d s)
  | .dspRead r => .next (read c r s)
  | .applyMode m => applyMode c m s
  | .modeGet => .next (modeGet s)
  | .modeSet v => .next (modeSet v s)
  | .evPowerUp => powerUp c s
  | .evPowerDown => .next (powerDown c s)
  | .evProbe => probe c s
  | .wr _ _ _ => .refused .notAtItsLine
  | .desc _ _ => .refused .notAtItsLine
  | .hdr _ => .refused .notAtItsLine
  | .cwMw => .refused .notAtItsLine
  | .cwMr => .refused .notAtItsLine
  | .cwRr => .refused .notAtItsLine
  | .fwDeliver _ => .refused .notAtItsLine

theorem exec_hostRequest (i : Instr) (s : State) (h : i.isHostRequest = true) :
    exec i s = hostOp (opBody Config.cfg i) s := by
  cases i <;> first | rfl | cases h

/-- A host operation that answers a next state: its body did. -/
theorem exec_hostRequest_next {i : Instr} {s t : State} (h : i.isHostRequest = true) (he : exec i s = .next t) :
    s.seq = .idle ∧ ∃ p, opBody Config.cfg i { s with resp := none } = .next p ∧ t = finish p.1 p.2 := by
  rw [exec_hostRequest i s h] at he
  exact hostOp_next he

/-- The events of every host operation but `MODE_SET` (70_reset_and_hazards.md R277). -/
theorem opBody_span (c : Cfg) (i : Instr) (s : State) (p : Result × State) (hv : ∀ v, i ≠ .modeSet v)
    (h : opBody c i s = .next p) : Span c (eventBound i) s p.2 := by
  cases i with
  | waitReady => cases h; exact (waitReady_trail c s).span
  | dspWrite a d => cases h; exact (write_trail c a d s).span
  | dspRead r => cases h; exact (read_trail c r s).span
  | applyMode x => exact (applyMode_trail c x s p h).span
  | modeGet => cases h; exact ((Ran.refl s).tick.setST _).span
  | modeSet v => exact absurd rfl (hv v)
  | evPowerUp => exact (powerUp_next c s p h).2
  | evPowerDown => cases h; exact powerDown_span c s
  | evProbe => exact (probe_next c s p h).2
  | wr _ _ _ => cases h
  | desc _ _ => cases h
  | hdr _ => cases h
  | cwMw => cases h
  | cwMr => cases h
  | cwRr => cases h
  | fwDeliver _ => cases h

/-- The frame of a host operation but `MODE_SET`. -/
theorem opBody_frame (s : State) (i : Instr) (p : Result × State) (hv : ∀ v, i ≠ .modeSet v)
    (h : opBody Config.cfg i { s with resp := none } = .next p) : OpFrame s (finish p.1 p.2) := by
  obtain ⟨k, evs, h1, -⟩ := opBody_span _ _ _ _ hv h
  exact h1.opFrame _

/-- A host operation on an idle sequencer whose body answers. -/
theorem exec_of_body {i : Instr} {s : State} {p : Result × State} (h : i.isHostRequest = true)
    (hs : s.seq = .idle) (hp : opBody Config.cfg i { s with resp := none } = .next p) :
    exec i s = .next (finish p.1 p.2) := by
  rw [exec_hostRequest i s h, hostOp_idle _ _ hs, hp]; rfl

/-- The same with its events, its response and its frame. -/
theorem exec_of_ran {i : Instr} {s : State} {p : Result × State} {k : Nat} {evs : List Event}
    (h : i.isHostRequest = true) (hs : s.seq = .idle) (hv : ∀ v, i ≠ .modeSet v)
    (hp : opBody Config.cfg i { s with resp := none } = .next p)
    (hr : Ran { s with resp := none } k evs p.2) :
    ∃ t, exec i s = .next t ∧ t.trace = s.trace ++ evs ∧ t.resp = some (respond p.1) ∧ OpFrame s t :=
  ⟨_, exec_of_body h hs hp, hr.trace, rfl, opBody_frame s i p hv hp⟩

/-! ## Responses -/

@[simp] theorem respond_ok_none : respond (.ok none) = respOk := rfl
@[simp] theorem respond_ok_some (v : W32) : respond (.ok (some v)) = respVal v := rfl
@[simp] theorem respond_io (e : IoErr) : respond (.err (.io e)) = respIo e := rfl
@[simp] theorem respond_busy : respond (.err .busy) = respBusy := rfl
@[simp] theorem respond_invalidMode : respond (.err .invalidMode) = respInvalidMode := rfl
@[simp] theorem respond_outOfBounds : respond (.err .outOfBounds) = respOutOfBounds := rfl
@[simp] theorem respond_noFirmware : respond (.err .noFirmware) = respNoFirmware := rfl

theorem respond_eq_respIo (r : Result) (e : IoErr) : respond r = respIo e ↔ r = .err (.io e) := by
  cases r with
  | ok p => simp [respond, respIo, stCode]
  | err k => cases k <;> simp [respIo, respBusy, respInvalidMode, respOutOfBounds, respNoFirmware]

theorem respond_eq_respBusy (r : Result) : respond r = respBusy ↔ r = .err .busy := by
  cases r with
  | ok p => simp [respond, respBusy, stCode]
  | err k => cases k <;> simp [respIo, respBusy, respInvalidMode, respOutOfBounds, respNoFirmware]

theorem respond_eq_respOk {r : Result} (h : respond r = respOk) : ∃ p, r = .ok p := by
  cases r with
  | ok p => exact ⟨p, rfl⟩
  | err k => cases k <;> simp [respOk, respIo, respBusy, respInvalidMode, respOutOfBounds, respNoFirmware] at h

/-- The report of a response is the report of the result it carries (60_exceptions.md R236). -/
@[simp] theorem reportOf_respond (r : Result) : reportOf (respond r) = reportsOfResult r := by
  cases r with
  | ok p => rfl
  | err k => cases k <;> rfl

/-! ## The same answers give the same events -/

/-- A DSP write from two states with the same answers to come. -/
theorem write_agree {c : Cfg} {a d : W16} {s s' : State} (h1 : s'.script = s.script) (h2 : s'.drawn = s.drawn) :
    ∃ l r e, (write c a d s).1 = r ∧ (write c a d s').1 = r ∧ Ran s l e (write c a d s).2 ∧
      Ran s' l e (write c a d s').2 := by
  obtain ⟨l, e, hw, hl, hr⟩ := write_ran c a d (Ran.refl s)
  have hl' : s'.willAnswer l := (State.willAnswer_congr l h1 h2).mpr hl
  obtain ⟨e1, e2⟩ := write_of hw hl'
  exact ⟨l.length, _, e, rfl, e1, by simpa using hr, e2⟩

theorem Ran.agree {s s' t t' : State} {l : Nat} {e : List Event} (h : Ran s l e t) (h' : Ran s' l e t')
    (h1 : s'.script = s.script) (h2 : s'.drawn = s.drawn) (h3 : s'.trace = s.trace) :
    t'.script = t.script ∧ t'.drawn = t.drawn ∧ t'.trace = t.trace :=
  ⟨by rw [h.script, h'.script, h1], by rw [h.drawn, h'.drawn, h1, h2], by rw [h.trace, h'.trace, h3]⟩

/-- Without an image and without a delivery to come, there is none later. -/
theorem Ran.noLoader {s t : State} {n : Nat} {e : List Event} (h : Ran s n e t) (hf : s.fw = none)
    (hd : s.fwl = none) : t.fw = none ∧ t.fwl = none := by
  obtain ⟨j, hj⟩ := h.loader
  rw [hf, hd, tickFwN_idle] at hj
  exact ⟨congrArg Prod.fst hj, congrArg Prod.snd hj⟩

/-- An update on a known answer. -/
theorem updateOrReport_of (c : Cfg) {s0 s : State} {n : Nat} {e : List Event} {x : Answer} {rest : List Answer}
    {a : RegAddr} {m v : W32} (hr : Ran s0 n e s) (h : s.willAnswer (x :: rest)) :
    Ran s0 (n + 1) (e ++ ([.tu a m v x.err?] ++ reportsOfAnswer x)) (s.updateOrReport a m v) ∧
      (s.updateOrReport a m v).willAnswer rest := by
  have hx : s.answer = x := ((State.willAnswer_cons s _ _ fun ans => .tr c.regStatus ans).mp h).1
  have h1 := hr.updateOrReport a m v
  rw [hx] at h1
  exact ⟨h1, (((Ran.refl s).updateOrReport a m v).willAnswer_append [x] rest rfl).mp h |>.2⟩

/-- The reset pulse on known answers (42_mode_state_events.md R195). -/
theorem resetPulse_of (c : Cfg) {s0 s : State} {n : Nat} {e : List Event} {x y : Answer} {rest : List Answer}
    (hr : Ran s0 n e s) (h : s.willAnswer (x :: y :: rest)) :
    Ran s0 (n + 2) (e ++ ([.tu c.rstReg c.rstMask c.rstAssert x.err?] ++ reportsOfAnswer x ++
      [.dl c.tResetSettle] ++ [.tu c.rstReg c.rstMask c.rstDeassert y.err?] ++ reportsOfAnswer y))
      (resetPulse c s) ∧ (resetPulse c s).willAnswer rest := by
  have ht : ∀ {u : State} {l : List Answer}, u.willAnswer l → u.tick.willAnswer l := fun hu =>
    (State.willAnswer_congr _ (by simp) (by simp)).mpr hu
  obtain ⟨r1, a1⟩ := updateOrReport_of c (a := c.rstReg) (m := c.rstMask) (v := c.rstAssert) hr.tick (ht h)
  have r2 := r1.tick.emit (.dl c.tResetSettle)
  have a2 : State.willAnswer (State.emit (State.tick _) (.dl c.tResetSettle)) _ := ht a1
  obtain ⟨r3, a3⟩ := updateOrReport_of c (a := c.rstReg) (m := c.rstMask) (v := c.rstDeassert) r2.tick (ht a2)
  refine ⟨?_, ht a3⟩
  have := r3.tick
  simpa [resetPulse] using this

/-! ## The response port plays no part in an operation -/

/-- The state with another response port. -/
def State.withResp (s : State) (r : Option Response) : State := { s with resp := r }

theorem State.tick_withResp (s : State) (r : Option Response) : (s.withResp r).tick = s.tick.withResp r := by
  unfold State.tick State.withResp
  split <;> rename_i h <;> simp only at h <;> simp [h]
  cases hf : s.fw <;> simp [hf, h]

theorem resetPulse_withResp (c : Cfg) (s : State) (r : Option Response) :
    resetPulse c (s.withResp r) = (resetPulse c s).withResp r := by
  have h1 : ∀ (u : State) a m v, (u.withResp r).updateOrReport a m v = (u.updateOrReport a m v).withResp r :=
    fun _ _ _ _ => rfl
  have h2 : ∀ (u : State) e, (u.withResp r).emit e = (u.emit e).withResp r := fun _ _ => rfl
  simp only [resetPulse, State.tick_withResp, h1, h2]

end Sys2Proof.Machine
end

