-- ==== Sys2Proof/Laws/Lines.lean ====
section
/-! SUPPORT. What one line of the sequencer can do: a part of an operation (`Ran`), then a new place, new
registers or a response; and what returning does (spec/10_state.md R33; spec/60_exceptions.md R233). -/

namespace Sys2Proof.Machine

variable {c : Cfg} {s t : State} {evs : List Event}

/-- From `s` to `t` the events `evs` were appended; the place, the working registers and the response are
new, the rest is as `Ran` says. -/
def Moved (s : State) (evs : List Event) (t : State) : Prop :=
  ∃ n u q w r, Ran s n evs u ∧ t = { u with seq := q, wr := w, resp := r }

theorem Ran.moved {n : Nat} (h : Ran s n evs t) : Moved s evs t := ⟨n, t, t.seq, t.wr, t.resp, h, rfl⟩

theorem Moved.regs (h : Moved s evs t) (q : Seq) (w : WorkRegs) (r : Option Response) :
    Moved s evs { t with seq := q, wr := w, resp := r } := by
  obtain ⟨n, u, q', w', r', h1, rfl⟩ := h
  exact ⟨n, u, q, w, r, h1, rfl⟩

theorem Moved.trace (h : Moved s evs t) : t.trace = s.trace ++ evs := by
  obtain ⟨n, u, q, w, r, h1, rfl⟩ := h
  exact h1.trace

theorem Moved.imageKept (h : Moved s evs t) : imageKept s t := by
  obtain ⟨n, u, q, w, r, h1, rfl⟩ := h
  exact h1.imageKept

theorem Moved.frame (h : Moved s evs t) : LineFrame s t := by
  refine ⟨?_, h.imageKept, ?_, ?_⟩ <;> obtain ⟨n, u, q, w, r, h1, rfl⟩ := h
  · exact h1.modeSel
  · exact h1.requests
  · exact h1.grain

theorem Moved.fw_present (h : Moved s evs t) {m : Memory} (hm : s.fw = some m) : t.fw = some m := by
  obtain ⟨n, u, q, w, r, h1, rfl⟩ := h
  exact h1.fw_present hm

/-- What returning can be: the end of the operation, or a place behind a calling line. -/
theorem returnTo_cases (op : Instr) (r : Result) (s : State) (stack : List Label) :
    returnTo op r s stack = finish r s ∨
      ∃ l rest pre, stack = pre ++ l :: rest ∧
        ∃ next, (afterCall l = .goOn next ∨ afterCall l = .propagate next) ∧
          returnTo op r s stack = goto op rest next s := by
  induction stack with
  | nil => exact .inl rfl
  | cons l stack ih =>
    have hup : returnTo op r s stack = finish r s ∨
        ∃ l' rest pre, l :: stack = pre ++ l' :: rest ∧
          ∃ next, (afterCall l' = .goOn next ∨ afterCall l' = .propagate next) ∧
            returnTo op r s stack = goto op rest next s := by
      rcases ih with h | ⟨l', rest, pre, h1, h2⟩
      · exact .inl h
      · exact .inr ⟨l', rest, l :: pre, by rw [h1]; rfl, h2⟩
    unfold returnTo
    split
    · exact .inr ⟨l, stack, [], rfl, _, .inl (by assumption), rfl⟩
    · cases r with
      | ok p => exact .inr ⟨l, stack, [], rfl, _, .inr (by assumption), rfl⟩
      | err x => exact hup
    · exact hup

theorem Moved.returnTo (h : Moved s evs t) (op : Instr) (r : Result) (stack : List Label) :
    Moved s evs (returnTo op r t stack) := by
  rcases returnTo_cases op r t stack with h1 | ⟨l, rest, pre, -, next, -, h1⟩ <;> rw [h1]
  · exact h.regs _ _ _
  · exact h.regs _ _ _

theorem Ran.retLine {n : Nat} (h : Ran s n evs t) (op : Instr) (stack : List Label) (r : Result) :
    Moved s evs (retLine op stack r t) := (h.setST r).moved.returnTo op r stack

theorem Ran.goto {n : Nat} (h : Ran s n evs t) (op : Instr) (stack : List Label) (l : Label) :
    Moved s evs (goto op stack l t) := h.moved.regs _ _ _

theorem Ran.call {n : Nat} (h : Ran s n evs t) (op : Instr) (stack : List Label) (l l' : Label) :
    Moved s evs (call op stack l l' t) := h.moved.regs _ _ _

/-- A line that answers a next state makes no event, one that is allowed, or an allowed one and its report. -/
def LineEvents (c : Cfg) (p : Proc) (evs : List Event) : Prop :=
  (∀ ev ∈ evs, allowedEvent c ev) ∧
    (evs.length ≤ 1 ∨ (p ∈ [Proc.rs, Proc.pb] ∧ ∃ ev x, evs = [ev, Event.rp x]))

theorem LineEvents.none (c : Cfg) (p : Proc) : LineEvents c p [] := ⟨by simp, .inl (by simp)⟩

theorem LineEvents.one {p : Proc} {ev : Event} (h : allowedEvent c ev) : LineEvents c p [ev] :=
  ⟨by simpa using h, .inl (by simp)⟩

theorem LineEvents.update {p : Proc} {a : RegAddr} {x v : W32} (hp : p ∈ [Proc.rs, Proc.pb])
    (h : ∀ f, allowedEvent c (.tu a x v f)) (ans : Answer) :
    LineEvents c p ([.tu a x v ans.err?] ++ reportsOfAnswer ans) := by
  refine ⟨fun ev hev => ?_, ?_⟩
  · rw [List.mem_append, List.mem_singleton] at hev
    rcases hev with rfl | hev
    · exact h _
    · exact reportsOfAnswer_allowed c _ ev hev
  · cases ans with
    | ok y => exact .inl (by simp [reportsOfAnswer])
    | err e => exact .inr ⟨hp, _, _, rfl⟩

theorem LineEvents.report (c : Cfg) (p : Proc) (r : Result) : LineEvents c p (reportsOfResult r) :=
  ⟨reportsOfResult_allowed c r, .inl (reportsOfResult_length r)⟩

theorem writeLine_moved {p : Proc} (op : Instr) (stack : List Label) {a : RegAddr} {v : W32} (next : Label)
    (s : State) (ha : ∀ f, allowedEvent c (.tw a v f)) :
    ∃ evs, Moved s evs (writeLine op stack a v next s) ∧ LineEvents c p evs := by
  have h := (Ran.refl s).twrite a v
  unfold writeLine
  split
  · exact ⟨_, h.retLine _ _ _, .one (ha _)⟩
  · exact ⟨_, h.goto _ _ _, .one (ha _)⟩

/-- What a line does, `MODE_SET`'s second line apart, which alone writes the selection. -/
theorem lineAt_moved (c : Cfg) (op : Instr) (upc : Label) (stack : List Label) (s t : State)
    (hne : upc ≠ .ms .l1) (h : lineAt c op upc stack s = .next t) :
    ∃ evs, Moved s evs t ∧ LineEvents c upc.proc evs := by
  have R := Ran.refl s
  cases upc with
  | wt l =>
    cases l with
    | l0 => cases h; exact ⟨[], (R.setPCNT _).goto _ _ _, .none _ _⟩
    | l1 =>
      unfold lineAt lineWt at h
      simp only at h
      split at h
      · cases h; exact ⟨_, (R.tread _).retLine _ _ _, .one (allowed_status c _)⟩
      · obtain ⟨n, -, h⟩ := andThen_eq_next h
        cases h; exact ⟨_, (((R.tread _).setRV _).setPCNT _).goto _ _ _, .one (allowed_status c _)⟩
    | l2 =>
      obtain ⟨v, -, h⟩ := andThen_eq_next h
      cases h
      refine ⟨[], ?_, .none _ _⟩
      split
      · exact R.goto _ _ _
      · exact R.retLine _ _ _
    | l3 =>
      obtain ⟨v, -, h⟩ := andThen_eq_next h
      cases h
      refine ⟨[], ?_, .none _ _⟩
      split
      · exact R.retLine _ _ _
      · exact R.goto _ _ _
  | dw l =>
    cases l with
    | l0 =>
      obtain ⟨v, -, h⟩ := andThen_eq_next h
      cases h; exact ⟨[], (R.setOperands _ _).goto _ _ _, .none _ _⟩
    | l1 =>
      obtain ⟨v, -, h⟩ := andThen_eq_next h
      cases h; exact writeLine_moved _ _ _ _ (allowed_addr c v)
    | l2 =>
      obtain ⟨v, -, h⟩ := andThen_eq_next h
      cases h; exact writeLine_moved _ _ _ _ (allowed_data c v)
    | l3 => cases h; exact writeLine_moved _ _ _ _ (allowed_cwMw c)
    | l4 => cases h; exact ⟨[], R.call _ _ _ _, .none _ _⟩
    | l5 => cases h; exact ⟨[], R.retLine _ _ _, .none _ _⟩
  | dr l =>
    cases l with
    | l0 =>
      obtain ⟨v, -, h⟩ := andThen_eq_next h
      cases h; exact ⟨[], (R.setRA _).goto _ _ _, .none _ _⟩
    | l1 => cases h; exact ⟨[], R.call _ _ _ _, .none _ _⟩
    | l2 =>
      obtain ⟨v, -, h⟩ := andThen_eq_next h
      cases h; exact writeLine_moved _ _ _ _ (allowed_addr c v)
    | l3 => cases h; exact writeLine_moved _ _ _ _ (allowed_cwMr c)
    | l4 => cases h; exact ⟨[], R.call _ _ _ _, .none _ _⟩
    | l5 => cases h; exact writeLine_moved _ _ _ _ (allowed_addr c _)
    | l6 => cases h; exact writeLine_moved _ _ _ _ (allowed_cwRr c)
    | l7 => cases h; exact ⟨[], R.call _ _ _ _, .none _ _⟩
    | l8 => cases h; exact writeLine_moved _ _ _ _ (allowed_addr c _)
    | l9 => cases h; exact writeLine_moved _ _ _ _ (allowed_cwRr c)
    | l10 => cases h; exact ⟨[], R.call _ _ _ _, .none _ _⟩
    | l11 =>
      unfold lineAt lineDr at h
      simp only at h
      split at h
      · cases h; exact ⟨_, (R.tread _).retLine _ _ _, .one (allowed_dout c _)⟩
      · cases h; exact ⟨_, ((R.tread _).setRV _).goto _ _ _, .one (allowed_dout c _)⟩
    | l12 =>
      obtain ⟨v, -, h⟩ := andThen_eq_next h
      cases h; exact ⟨[], R.retLine _ _ _, .none _ _⟩
  | am l =>
    cases l with
    | l0 =>
      obtain ⟨v, -, h⟩ := andThen_eq_next h
      cases h; exact ⟨[], (R.setMI _).goto _ _ _, .none _ _⟩
    | l1 =>
      unfold lineAt lineAm at h
      simp only at h
      split at h <;> cases h
      · exact ⟨[], R.retLine _ _ _, .none _ _⟩
      · exact ⟨[], R.goto _ _ _, .none _ _⟩
    | l2 =>
      obtain ⟨v, -, h⟩ := andThen_eq_next h
      cases h; exact ⟨[], (R.setMC _).goto _ _ _, .none _ _⟩
    | l3 =>
      obtain ⟨v, -, h⟩ := andThen_eq_next h
      obtain ⟨w, -, h⟩ := andThen_eq_next h
      cases h
      refine ⟨[], ?_, .none _ _⟩
      split
      · exact R.retLine _ _ _
      · exact R.goto _ _ _
    | l4 =>
      obtain ⟨v, -, h⟩ := andThen_eq_next h
      cases h
      refine ⟨[], ?_, .none _ _⟩
      split
      · exact R.retLine _ _ _
      · exact R.goto _ _ _
    | l5 =>
      obtain ⟨v, -, h⟩ := andThen_eq_next h
      split at h
      · cases h; exact ⟨[], R.retLine _ _ _, .none _ _⟩
      · obtain ⟨w, -, h⟩ := andThen_eq_next h
        cases h; exact ⟨[], (R.setDesc _ _).goto _ _ _, .none _ _⟩
    | l6 =>
      obtain ⟨v, -, h⟩ := andThen_eq_next h
      obtain ⟨w, -, h⟩ := andThen_eq_next h
      cases h
      refine ⟨[], ?_, .none _ _⟩
      split
      · exact R.retLine _ _ _
      · exact R.goto _ _ _
    | l7 =>
      obtain ⟨v, -, h⟩ := andThen_eq_next h
      cases h; exact ⟨[], (R.setEntry _ _).goto _ _ _, .none _ _⟩
    | l8 =>
      obtain ⟨v, -, h⟩ := andThen_eq_next h
      obtain ⟨w, -, h⟩ := andThen_eq_next h
      cases h
      refine ⟨[], ?_, .none _ _⟩
      split
      · exact R.retLine _ _ _
      · exact R.goto _ _ _
    | l9 =>
      obtain ⟨v, -, h⟩ := andThen_eq_next h
      obtain ⟨w, -, h⟩ := andThen_eq_next h
      cases h; exact ⟨[], (R.setOperands _ _).goto _ _ _, .none _ _⟩
    | l10 =>
      obtain ⟨v, -, h⟩ := andThen_eq_next h
      cases h; exact ⟨[], R.call _ _ _ _, .none _ _⟩
    | l11 =>
      obtain ⟨v, -, h⟩ := andThen_eq_next h
      obtain ⟨w, -, h⟩ := andThen_eq_next h
      cases h; exact ⟨[], (R.setEntry _ _).goto _ _ _, .none _ _⟩
  | mg => cases h; exact ⟨[], R.retLine _ _ _, .none _ _⟩
  | ms l =>
    cases l with
    | l0 =>
      cases h
      refine ⟨[], ?_, .none _ _⟩
      split
      · exact R.retLine _ _ _
      · exact R.goto _ _ _
    | l1 => exact absurd rfl hne
    | l2 => cases h; exact ⟨[], R.retLine _ _ _, .none _ _⟩
  | rs l =>
    cases l with
    | l0 =>
      cases h
      exact ⟨_, (R.updateOrReport _ _ _).goto _ _ _, .update (by simp [Label.proc]) (allowed_rstOn c) _⟩
    | l1 => cases h; exact ⟨_, (R.emit _).goto _ _ _, .one (allowed_resetSettle c)⟩
    | l2 =>
      cases h
      exact ⟨_, (R.updateOrReport _ _ _).goto _ _ _, .update (by simp [Label.proc]) (allowed_rstOff c) _⟩
    | l3 => cases h; exact ⟨[], R.moved.returnTo _ _ _, .none _ _⟩
  | pw l =>
    cases l with
    | l0 => cases h; exact ⟨[], R.call _ _ _ _, .none _ _⟩
    | l1 =>
      obtain ⟨v, -, h⟩ := andThen_eq_next h
      cases h; exact ⟨_, (R.reportIf _).goto _ _ _, .report c _ _⟩
    | l2 => cases h; exact ⟨[], R.moved.returnTo _ _ _, .none _ _⟩
  | pd l =>
    cases l with
    | l0 => cases h; exact ⟨[], R.call _ _ _ _, .none _ _⟩
    | l1 => cases h; exact ⟨[], R.retLine _ _ _, .none _ _⟩
  | pu l =>
    cases l with
    | l0 => cases h; exact ⟨[], R.call _ _ _ _, .none _ _⟩
    | l1 => cases h; exact ⟨[], R.call _ _ _ _, .none _ _⟩
    | l2 =>
      obtain ⟨v, -, h⟩ := andThen_eq_next h
      cases h; exact ⟨_, (R.reportIf _).goto _ _ _, .report c _ _⟩
    | l3 => cases h; exact ⟨[], R.retLine _ _ _, .none _ _⟩
  | pb l =>
    cases l with
    | l0 =>
      cases h
      exact ⟨_, (R.updateOrReport _ _ _).goto _ _ _, .update (by simp [Label.proc]) (allowed_pwrOn c) _⟩
    | l1 => cases h; exact ⟨[], R.call _ _ _ _, .none _ _⟩
    | l2 => cases h; exact ⟨[], R.call _ _ _ _, .none _ _⟩
    | l3 => cases h; exact ⟨_, (R.emit (.dl c.tProbeSettle)).goto _ _ _, .one (Or.inr rfl)⟩
    | l4 => cases h; exact ⟨[], R.call _ _ _ _, .none _ _⟩
    | l5 =>
      cases h
      exact ⟨_, (R.updateOrReport _ _ _).goto _ _ _, .update (by simp [Label.proc]) (allowed_pwrOff c) _⟩
    | l6 => cases h; exact ⟨_, (R.emit (.fq c.fwName)).goto _ _ _, .one rfl⟩
    | l7 => cases h; exact ⟨[], R.retLine _ _ _, .none _ _⟩

/-- `MODE_SET`'s second line. -/
theorem lineAt_ms1 (c : Cfg) (op : Instr) (stack : List Label) (s : State) :
    lineAt c op (.ms .l1) stack s =
      .next (goto op stack (.ms .l2) { s with modeSel := setArg op s }) := rfl

end Sys2Proof.Machine
end

