-- ==== Sys2Proof/Laws/Step.lean ====
section
/-! SUPPORT. Everything a step can be, said once: a delivery, an idle step, a host operation, the taking of a
request, a line, or a whole entry of the replay (spec/10_state.md R21, R33, R40). -/

namespace Sys2Proof.Machine

variable {s t : State}

theorem decodeRequest_isHostRequest {q : Q64} {i : Instr} (h : decodeRequest q = .instr i) :
    i.isHostRequest = true := by
  unfold decodeRequest at h
  split at h
  · unfold decodeByOp provided at h
    split at h <;> (try split at h) <;> cases h <;> rfl
  · cases h

theorem begin_idle (i : Instr) (s : State) (h : s.seq = .idle) (hi : i.isHostRequest = true) :
    ∃ l, entryLine i = some l ∧ begin i s = .next { s with seq := .running i l [], resp := none } := by
  unfold begin
  rw [h]
  cases i <;> first | exact ⟨_, rfl, rfl⟩ | cases hi

/-- With no second delivery to come the grain is the state's own. -/
theorem State.stepGrain_own (h : s.fw = none ∨ s.fwl = none) : s.stepGrain = s.grain := by
  unfold State.stepGrain
  rcases h with h | h <;> rw [h]
  cases s.fw <;> rfl

/-- With a second delivery to come a step is one line. -/
theorem State.stepGrain_line (h : s.grain = .line ∨ (s.fw ≠ none ∧ s.fwl ≠ none)) : s.stepGrain = .line := by
  unfold State.stepGrain
  rcases h with h | ⟨h1, h2⟩
  · split
    · rfl
    · exact h
  · obtain ⟨m, hm⟩ := Option.ne_none_iff_exists'.mp h1
    obtain ⟨d, hd⟩ := Option.ne_none_iff_exists'.mp h2
    rw [hm, hd]

/-- What a step that answers a next state was. -/
inductive StepKind (s t : State) : Prop where
  | delivery (bytes : List Byte) (hd : s.dueDelivery = some bytes) (hf : s.fw = none)
      (ht : t = { s with fw := some (Memory.load bytes), fwl := none })
  | waiting (hs : s.seq = .idle) (hr : s.requests = []) (ht : t = s.tick)
  | operation (q : Q64) (rest : List Q64) (i : Instr) (hs : s.seq = .idle) (hr : s.requests = q :: rest)
      (hq : decodeRequest q = .instr i) (hi : i.isHostRequest = true)
      (ht : exec i { s with requests := rest } = .next t)
  | taken (q : Q64) (rest : List Q64) (i : Instr) (l : Label) (hs : s.seq = .idle)
      (hr : s.requests = q :: rest) (hq : decodeRequest q = .instr i) (hl : entryLine i = some l)
      (ht : t = { s with requests := rest, seq := .running i l [], resp := none })
  | line (op : Instr) (upc : Label) (stack : List Label) (hs : s.seq = .running op upc stack)
      (ht : lineAt Config.cfg op upc stack s.tick = .next t)
  | entry (op : Instr) (stack : List Label) (ep : BitVec 17) (a d : W16)
      (hs : s.seq = .running op (.am .l9) stack) (hep : s.wr.ep = some ep)
      (hf : fetchEntry s.fw ep.toNat = .next (a, d)) (ht : opWr Config.cfg a d s = .next t)

theorem readReg_eq_next {α : Type} {n : RegName} {r : Option α} {v : α} (h : readReg n r = .next v) :
    r = some v := by
  cases r with
  | none => cases h
  | some w => cases h; rfl

/-- An image that gave a byte is there, and the loader leaves it alone. -/
theorem memRead_next_tick {o : Nat} {b : Byte} (h : memRead s.fw o = .next b) : s.tick.fw = s.fw := by
  cases hf : s.fw with
  | none => rw [hf] at h; cases h
  | some m => exact (Ran.refl s).tick.fw_present hf

theorem fetchDesc_next_tick {d : Nat} {p : W16 × Byte} (h : fetchDesc s.fw d = .next p) :
    s.tick.fw = s.fw := by
  obtain ⟨b, hb, -⟩ := andThen_eq_next h
  exact memRead_next_tick hb

/-- At AM.2 the item and the line are the same. -/
theorem hdr_item_is_line {op : Instr} {stack : List Label} {n : Byte} (hs : s.seq = .running op (.am .l2) stack)
    (h : fetchHdr s.fw = .next n) : exec (.hdr n) s = lineAt Config.cfg op (.am .l2) stack s.tick := by
  have : fetchHdr s.tick.fw = .next n := by rw [memRead_next_tick h]; exact h
  simp [exec, execHdr, hs, lineAt, lineAm, this]

/-- At AM.5 the item and the line are the same. -/
theorem desc_item_is_line {op : Instr} {stack : List Label} {m : W32} {d : Nat} {p : W16} {n : Byte}
    (hs : s.seq = .running op (.am .l5) stack) (hm : s.wr.mi = some m) (hd : descOff Config.cfg m = some d)
    (h : fetchDesc s.fw d = .next (p, n)) :
    exec (.desc p n) s = lineAt Config.cfg op (.am .l5) stack s.tick := by
  have : fetchDesc s.tick.fw d = .next (p, n) := by rw [fetchDesc_next_tick h]; exact h
  simp [exec, execDesc, hs, lineAt, lineAm, hm, hd, this]

/-- What the item of a line can be. -/
inductive ItemKind (s : State) (op : Instr) (upc : Label) (stack : List Label) (i : Instr) : Prop where
  | asLine (h : exec i s = lineAt Config.cfg op upc stack s.tick)
  | entry (ep : BitVec 17) (a d : W16) (pad : Byte) (hu : upc = .am .l9) (hep : s.wr.ep = some ep)
      (hf : fetchEntry s.fw ep.toNat = .next (a, d)) (hi : i = .wr a d pad)

theorem fetchItem_kind {op : Instr} {upc : Label} {stack : List Label} {i : Instr}
    (hs : s.seq = .running op upc stack) (h : fetchItem Config.cfg s = some (.next i)) :
    ItemKind s op upc stack i := by
  unfold fetchItem at h
  rw [hs] at h
  split at h
  · rename_i hc; cases hc
    obtain ⟨n, hn, h⟩ := andThen_eq_next (Option.some.inj h)
    cases h
    exact .asLine (hdr_item_is_line hs hn)
  · rename_i hc; cases hc
    split at h
    · cases h
    · rename_i hd
      obtain ⟨m, hm, hd⟩ := Option.bind_eq_some_iff.mp hd
      obtain ⟨p, hp, h⟩ := andThen_eq_next (Option.some.inj h)
      cases h
      exact .asLine (desc_item_is_line hs hm hd hp)
  · rename_i hc; cases hc
    obtain ⟨ep, hep, h⟩ := andThen_eq_next (Option.some.inj h)
    obtain ⟨e, he, h⟩ := andThen_eq_next h
    cases h
    exact .entry ep e.1 e.2 _ rfl (readReg_eq_next hep) he rfl
  · rename_i hc; cases hc; cases h
    exact .asLine (by simp only [exec, execCwMw, hs]; rfl)
  · rename_i hc; cases hc; cases h
    exact .asLine (by simp only [exec, execCwMr, hs]; rfl)
  · rename_i hc; cases hc; cases h
    exact .asLine (by simp only [exec, execCwRr, hs]; rfl)
  · rename_i hc; cases hc; cases h
    exact .asLine (by simp only [exec, execCwRr, hs]; rfl)
  · cases h

/-! ## A whole entry -/

/-- An entry runs at line AM.9 only. -/
theorem opWr_elsewhere (c : Cfg) (a d : W16) (h : ∀ op stack, s.seq ≠ .running op (.am .l9) stack) :
    opWr c a d s = .refused .notAtItsLine := by
  unfold opWr
  split
  · rename_i hs; exact absurd hs (h _ _)
  · rfl

/-- At line AM.9 with a value in `EP`: the write, then the return of its error or line AM.11. -/
theorem opWr_at {c : Cfg} {op : Instr} {stack : List Label} {a d : W16} {ep : BitVec 17}
    (hs : s.seq = .running op (.am .l9) stack) (hep : s.wr.ep = some ep) :
    opWr c a d s =
      match writeEntry c a d s with
      | (.err x, s') => .next (returnTo op (.err x) s' stack)
      | (.ok _, s') => advanceEntry op stack s'.tick := by
  rw [opWr, hs]
  show (andThen (readReg .ep s.wr.ep) fun _ => _) = _
  rw [hep]
  rfl

/-- What line AM.11 does when it completes. -/
theorem advanceEntry_next {op : Instr} {stack : List Label} (h : advanceEntry op stack s = .next t) :
    ∃ ei ep, s.wr.ei = some ei ∧ s.wr.ep = some ep ∧
      t = goto op stack (.am .l8) (s.setEntry (ei + 1#8) (ep + 5#17)) := by
  obtain ⟨ei, hei, h⟩ := andThen_eq_next h
  obtain ⟨ep, hep, h⟩ := andThen_eq_next h
  cases h
  exact ⟨ei, ep, readReg_eq_next hei, readReg_eq_next hep, rfl⟩

/-- Everything an entry that completes can have done: its write failed and the error was returned, or it
succeeded and line AM.11 advanced. -/
theorem opWr_next {c : Cfg} {a d : W16} (h : opWr c a d s = .next t) :
    ∃ op stack ep, s.seq = .running op (.am .l9) stack ∧ s.wr.ep = some ep ∧
      ((∃ x, (writeEntry c a d s).1 = .err x ∧ t = returnTo op (.err x) (writeEntry c a d s).2 stack) ∨
        ∃ p, (writeEntry c a d s).1 = .ok p ∧
          advanceEntry op stack (writeEntry c a d s).2.tick = .next t) := by
  unfold opWr at h
  split at h
  · rename_i op stack hs
    obtain ⟨ep, hep, h⟩ := andThen_eq_next h
    refine ⟨op, stack, ep, hs, readReg_eq_next hep, ?_⟩
    generalize writeEntry c a d s = p at h
    obtain ⟨r, u⟩ := p
    cases r with
    | err x => cases h; exact .inl ⟨x, rfl, rfl⟩
    | ok x => exact .inr ⟨x, rfl, h⟩
  · cases h

theorem step_kind (h : step s = .next t) : StepKind s t := by
  unfold step at h
  split at h
  · rename_i bytes hd
    have : exec (.fwDeliver bytes) { s with fwl := none } = deliver bytes { s with fwl := none } := rfl
    rw [this] at h
    unfold deliver at h
    split at h <;> cases h
    exact .delivery bytes hd (by assumption) rfl
  · split at h
    · rename_i hs
      unfold stepIdle at h
      split at h
      · cases h; exact .waiting hs (by assumption) rfl
      · split at h
        · cases h
        · rename_i _ q rest hr _ i hq
          have hi := decodeRequest_isHostRequest hq
          split at h
          · exact .operation q rest i hs hr hq hi h
          · obtain ⟨l, hl, hb⟩ := begin_idle i { s with requests := rest } hs hi
            rw [hb] at h; cases h
            exact .taken q rest i l hs hr hq hl rfl
    · rename_i op upc stack hs
      have hline : seqStep Config.cfg s = .next t → StepKind s t := by
        intro h
        simp only [seqStep, hs] at h
        exact .line op upc stack hs h
      unfold stepRunning at h
      split at h
      · exact hline h
      · split at h
        · exact hline h
        · rename_i x hx
          obtain ⟨i, hi', h'⟩ := andThen_eq_next h
          clear h
          subst hi'
          rename' h' => h
          cases fetchItem_kind hs hx with
          | asLine he => rw [he] at h; exact .line op upc stack hs h
          | entry ep a d pad hu hep hf hi =>
            subst hu hi
            exact .entry op stack ep a d hs hep hf h

/-- A whole entry of the replay moves the machine as lines do. -/
theorem opWr_moved {c : Cfg} {a d : W16} (h : opWr c a d s = .next t) :
    ∃ evs, Moved s evs t ∧ evs.length ≤ 14 ∧ ∀ ev ∈ evs, allowedEvent c ev := by
  obtain ⟨k, evs, h1, h2, h3, -⟩ := writeEntry_trail c a d s
  refine ⟨evs, ?_, h2, h3⟩
  obtain ⟨op, stack, -, -, -, ⟨x, -, rfl⟩ | ⟨p, -, h⟩⟩ := opWr_next h
  · exact h1.moved.returnTo _ _ _
  · obtain ⟨ei, ep, -, -, rfl⟩ := advanceEntry_next h
    exact (h1.tick.setEntry _ _).goto _ _ _

/-- What happens in front of a line belongs to the loader. -/
theorem Moved.of_tick {evs : List Event} (h : Moved s.tick evs t) : Moved s evs t := by
  obtain ⟨n, u, q, w, r, h1, rfl⟩ := h
  refine ⟨n, u, q, w, r, ?_, rfl⟩
  have := (Ran.refl s).tick.trans h1
  rwa [Nat.zero_add, List.nil_append] at this

end Sys2Proof.Machine
end

