-- ==== Sys2Proof/Laws/Invariant.lean ====
section
/-! SUPPORT. The invariant's parts: what the loader, a call, a step within a procedure and a return do to a
running sequencer's well-formedness (spec/10_state.md R28, R31, R33; Safety.lean `seqWf`). -/

namespace Sys2Proof.Machine

variable {c : Cfg} {s t : State}

/-! ## The image -/

theorem imageWf_of_kept (h : imageWf s = true) (hk : imageKept s t) : imageWf t = true := by
  unfold imageWf at *
  rcases hk with hk | ⟨-, -, d, -, hk⟩
  · rw [hk]; exact h
  · rw [hk]; exact Memory.load_wf _

theorem tick_kept (s : State) : imageKept s s.tick := (Ran.refl s).tick.imageKept

/-! ## Readiness -/

/-- A line finds its values also behind a delivery. -/
theorem lineReady_of_fw (l : Label) (hw : t.wr = s.wr) (hf : t.fw = s.fw ∨ s.fw = none)
    (h : lineReady c s l = true) : lineReady c t l = true := by
  rcases hf with hf | hf
  · have : ∀ l, lineReady c t l = lineReady c s l := by
      intro l
      cases l with
      | wt l => cases l <;> simp [lineReady, hw]
      | dw l => cases l <;> simp [lineReady, hw]
      | dr l => cases l <;> simp [lineReady, hw]
      | am l => cases l <;> simp [lineReady, replayAt, hw, hf]
      | pw l => cases l <;> simp [lineReady, hw]
      | pu l => cases l <;> simp [lineReady, hw]
      | _ => rfl
    rw [this]; exact h
  · revert h
    cases l with
    | wt l => cases l <;> simp [lineReady, hw]
    | dw l => cases l <;> simp [lineReady, hw]
    | dr l => cases l <;> simp [lineReady, hw]
    | am l => cases l <;> simp +contextual [lineReady, replayAt, hw, hf]
    | pw l => cases l <;> simp [lineReady, hw]
    | pu l => cases l <;> simp [lineReady, hw]
    | _ => exact fun _ => rfl

theorem tick_fw_or (s : State) : s.tick.fw = s.fw ∨ s.fw = none := by
  rcases tick_kept s with h | ⟨h, -⟩
  · exact .inl h
  · exact .inr h

theorem lineReady_tick (l : Label) (h : lineReady c s l = true) : lineReady c s.tick l = true :=
  lineReady_of_fw l (State.tick_wr s) (tick_fw_or s) h

theorem all_lineReady_tick (stack : List Label) (h : stack.all (lineReady c s) = true) :
    stack.all (lineReady c s.tick) = true := by
  rw [List.all_eq_true] at *
  exact fun l hl => lineReady_tick l (h l hl)

/-- What a callee leaves of its callers' values (10_state.md R28). -/
structure CallersKept (s t : State) : Prop where
  fw : t.fw = s.fw
  po : t.wr.po = s.wr.po
  ec : t.wr.ec = s.wr.ec
  ei : t.wr.ei = s.wr.ei
  ep : t.wr.ep = s.wr.ep
  ra : s.wr.ra.isSome = true → t.wr.ra.isSome = true
  rd : s.wr.rd.isSome = true → t.wr.rd.isSome = true

theorem CallersKept.refl (s : State) : CallersKept s s := ⟨rfl, rfl, rfl, rfl, rfl, id, id⟩

/-- A calling line stays ready while its callee runs. -/
theorem caller_ready (l : Label) {p : Proc} (hl : calledProc l = some p) (hk : CallersKept s t)
    (h : lineReady c s l = true) : lineReady c t l = true := by
  unfold calledProc at hl
  have ham : lineReady c s (.am .l10) = true → lineReady c t (.am .l10) = true := by
    intro h
    have he : replayAt false t = replayAt false s := by
      simp only [replayAt, hk.fw, hk.po, hk.ec, hk.ei, hk.ep]
    simp only [lineReady, Bool.and_eq_true, he] at h ⊢
    exact ⟨⟨h.1.1, hk.ra h.1.2⟩, hk.rd h.2⟩
  split at hl <;> cases hl <;> first | rfl | exact hk.ra h | exact ham h

/-- The labels on a chain are calling lines. -/
theorem chain_calls (op : Instr) (p : Proc) (stack : List Label) (h : chainOk op p stack = true) :
    ∀ l ∈ stack, ∃ q, calledProc l = some q := by
  induction stack generalizing p with
  | nil => intro l hl; cases hl
  | cons a stack ih =>
    simp only [chainOk, Bool.and_eq_true, beq_iff_eq] at h
    intro l hl
    rcases List.mem_cons.mp hl with rfl | hl
    · exact ⟨p, h.1⟩
    · exact ih _ h.2 l hl

theorem stack_ready {op : Instr} {p : Proc} {stack : List Label} (hc : chainOk op p stack = true)
    (hk : CallersKept s t) (h : stack.all (lineReady c s) = true) : stack.all (lineReady c t) = true := by
  rw [List.all_eq_true] at *
  intro l hl
  obtain ⟨q, hq⟩ := chain_calls op p stack hc l hl
  exact caller_ready l hq hk (h l hl)

/-- The procedures nobody calls. -/
theorem chain_top {op : Instr} {p : Proc} {stack : List Label}
    (hp : p ∈ [Proc.dr, Proc.mg, Proc.ms, Proc.pd, Proc.pu, Proc.pb])
    (h : chainOk op p stack = true) : stack = [] := by
  cases stack with
  | nil => rfl
  | cons l stack =>
    simp only [chainOk, Bool.and_eq_true, beq_iff_eq] at h
    have := h.1
    unfold calledProc at this
    split at this <;> cases this <;> simp at hp

/-- Only the two events call `apply_mode`, and `EV_POWER_UP` and `EV_PROBE` are called by nobody. -/
theorem chain_am {op : Instr} {stack : List Label} (h : chainOk op .am stack = true) :
    (stack = [] ∧ ∃ m, op = .applyMode m) ∨ stack = [.pu .l1] ∨ stack = [.pb .l2] := by
  cases stack with
  | nil =>
    cases op <;> simp [chainOk, entryLine, Label.proc] at h ⊢
  | cons l stack =>
    simp only [chainOk, Bool.and_eq_true, beq_iff_eq] at h
    obtain ⟨h1, h2⟩ := h
    unfold calledProc at h1
    split at h1 <;> cases h1
    · have := chain_top (p := .pu) (by simp) h2
      subst this; simp
    · have := chain_top (p := .pb) (by simp) h2
      subst this; simp

/-- The values a caller of `apply_mode` needs are never those of the replay. -/
theorem stack_ready_am {op : Instr} {stack : List Label} (hc : chainOk op .am stack = true) (t : State) :
    stack.all (lineReady c t) = true := by
  rcases chain_am hc with ⟨rfl, -⟩ | rfl | rfl <;> rfl

/-! ## Places -/

theorem seqWf_running {op : Instr} {upc : Label} {stack : List Label} (hs : s.seq = .running op upc stack) :
    seqWf c s = true ↔
      chainOk op upc.proc stack = true ∧ lineReady c s upc = true ∧ stack.all (lineReady c s) = true := by
  unfold seqWf
  rw [hs]
  simp only [Bool.and_eq_true, and_assoc]

/-- A delivery, or nothing at all, in front of a well-formed place. -/
theorem seqWf_of_fw (hw : t.wr = s.wr) (hf : t.fw = s.fw ∨ s.fw = none) (hq : t.seq = s.seq)
    (h : seqWf c s = true) : seqWf c t = true := by
  cases hs : s.seq with
  | idle =>
    rw [hs] at hq
    unfold seqWf at h ⊢
    rw [hs] at h
    rw [hq]
    simp only [hw] at *
    exact h
  | running op upc stack =>
    rw [hs] at hq
    obtain ⟨h1, h2, h3⟩ := (seqWf_running hs).mp h
    refine (seqWf_running hq).mpr ⟨h1, lineReady_of_fw _ hw hf h2, ?_⟩
    rw [List.all_eq_true] at *
    exact fun l hl => lineReady_of_fw _ hw hf (h3 l hl)

theorem seqWf_goto {op : Instr} {p : Proc} {stack : List Label} {l : Label} (hc : chainOk op p stack = true)
    (hp : l.proc = p) (hl : lineReady c t l = true) (hs : stack.all (lineReady c t) = true) :
    seqWf c (goto op stack l t) = true := by
  rw [seqWf_running (s := goto op stack l t) rfl]
  have h : ∀ l, lineReady c (goto op stack l t) = lineReady c t := fun _ => rfl
  refine ⟨by rw [hp]; exact hc, ?_, ?_⟩
  · exact lineReady_of_fw (s := t) l rfl (.inl rfl) hl
  · rw [List.all_eq_true] at *
    exact fun a ha => lineReady_of_fw (s := t) a rfl (.inl rfl) (hs a ha)

theorem seqWf_call {op : Instr} {stack : List Label} {l e : Label} (hc : chainOk op l.proc stack = true)
    (he : calledProc l = some e.proc) (hl : lineReady c t l = true) (hr : lineReady c t e = true)
    (hs : stack.all (lineReady c t) = true) : seqWf c (call op stack l e t) = true := by
  rw [seqWf_running (s := call op stack l e t) rfl]
  refine ⟨?_, ?_, ?_⟩
  · simp only [chainOk, he, beq_self_eq_true, Bool.true_and]; exact hc
  · exact lineReady_of_fw (s := t) e rfl (.inl rfl) hr
  · rw [List.all_eq_true] at *
    intro a ha
    refine lineReady_of_fw (s := t) a rfl (.inl rfl) ?_
    rcases List.mem_cons.mp ha with rfl | ha
    · exact hl
    · exact hs a ha

theorem seqWf_finish (r : Result) (t : State) : seqWf c (finish r t) = true := by
  simp [seqWf, finish]

/-- A return keeps the well-formedness: the line behind the call finds what it reads. -/
theorem seqWf_returnTo (op : Instr) (r : Result) (t : State) (stack : List Label) (p : Proc)
    (hc : chainOk op p stack = true) (hs : stack.all (lineReady c t) = true)
    (hst : t.wr.st.isSome = true ∨ p = .rs ∨ p = .pw) : seqWf c (returnTo op r t stack) = true := by
  induction stack generalizing p with
  | nil => exact seqWf_finish r t
  | cons l stack ih =>
    simp only [chainOk, Bool.and_eq_true, beq_iff_eq] at hc
    rw [List.all_cons, Bool.and_eq_true] at hs
    obtain ⟨hc1, hc2⟩ := hc
    obtain ⟨hl, hs⟩ := hs
    have hup : p ≠ .rs → p ≠ .pw → seqWf c (returnTo op r t stack) = true := by
      intro h1 h2
      refine ih _ hc2 hs (.inl ?_)
      rcases hst with h | h | h
      · exact h
      · exact absurd h h1
      · exact absurd h h2
    have hgo : ∀ next : Label, next.proc = l.proc → lineReady c t next = true →
        seqWf c (goto op stack next t) = true := fun next hp hn => seqWf_goto hc2 hp hn hs
    unfold calledProc at hc1
    split at hc1 <;> cases hc1 <;> unfold returnTo <;> simp only [afterCall]
    all_goals
      first
      | exact hgo _ rfl rfl
      | (cases r
         · first
           | exact hgo _ rfl rfl
           | exact hgo _ rfl hl
           | (refine hgo _ rfl ?_
              simp only [lineReady, Bool.and_eq_true] at hl ⊢
              exact hl.1.1)
         · exact hup (by simp) (by simp))
      | (refine hgo _ rfl ?_
         simpa [lineReady] using hst)

end Sys2Proof.Machine
end

