-- ==== Sys2Proof/Laws/InvariantLines.lean ====
section
/-! SUPPORT. Line by line: from a ready line the sequencer reaches a well-formed place, and it finds every
register it reads (spec/10_state.md R25, R26, R31, R35). -/

namespace Sys2Proof.Machine

variable {c : Cfg} {s t : State} {op : Instr} {stack : List Label}

/-! ## Ways to end a line -/

theorem seqWf_retLine (r : Result) (p : Proc) (hc : chainOk op p stack = true)
    (hs : stack.all (lineReady c t) = true) : seqWf c (retLine op stack r t) = true := by
  refine seqWf_returnTo op r (t.setST r) stack p hc ?_ (.inl rfl)
  exact stack_ready (s := t) hc ⟨rfl, rfl, rfl, rfl, rfl, id, id⟩ hs

theorem seqWf_retVoid (p : Proc) (hp : p = .rs ∨ p = .pw) (hc : chainOk op p stack = true)
    (hs : stack.all (lineReady c t) = true) : seqWf c (retVoid op stack t) = true :=
  seqWf_returnTo op (.ok none) t stack p hc hs (.inr hp)

/-- A line of a procedure that goes on in it, having kept its callers' values. -/
theorem seqWf_goOn {p : Proc} {l : Label} (hc : chainOk op p stack = true) (hp : l.proc = p)
    (hk : CallersKept s t) (hs : stack.all (lineReady c s) = true) (hl : lineReady c t l = true) :
    seqWf c (goto op stack l t) = true :=
  seqWf_goto hc hp hl (stack_ready hc hk hs)

theorem seqWf_writeLine {p : Proc} {a : RegAddr} {v : W32} {l : Label} (hc : chainOk op p stack = true)
    (hp : l.proc = p) (hs : stack.all (lineReady c s) = true) (hl : lineReady c (s.twrite a v) l = true) :
    seqWf c (writeLine op stack a v l s) = true := by
  have hk : CallersKept s (s.twrite a v) := ⟨rfl, rfl, rfl, rfl, rfl, id, id⟩
  unfold writeLine
  split
  · exact seqWf_retLine _ p hc (stack_ready hc hk hs)
  · exact seqWf_goOn hc hp hk hs hl

/-! ## Readings of the replay -/

theorem replayAt_iff (last : Bool) (s : State) :
    replayAt last s = true ↔ ∃ m po ec ei ep, s.fw = some m ∧ s.wr.po = some po ∧ s.wr.ec = some ec ∧
      s.wr.ei = some ei ∧ s.wr.ep = some ep ∧
      (if last then ei.toNat ≤ ec.toNat else ei.toNat < ec.toNat) ∧
      ep.toNat = po.toNat + 5 * ei.toNat ∧ po.toNat + 5 * ec.toNat ≤ Memory.size m := by
  unfold replayAt
  constructor
  · intro h
    split at h
    · rename_i m po ec ei ep h1 h2 h3 h4 h5
      refine ⟨m, po, ec, ei, ep, h1, h2, h3, h4, h5, ?_⟩
      cases last <;> simpa [and_assoc] using h
    · cases h
  · rintro ⟨m, po, ec, ei, ep, h1, h2, h3, h4, h5, h6, h7, h8⟩
    rw [h1, h2, h3, h4, h5]
    cases last <;> simpa [h7, h8] using h6

/-- The end of an entry: one entry on (10_state.md R26, R34). -/
theorem replayAt_advance {ei : BitVec 8} {ep : BitVec 17} (h : replayAt false s = true) (hei : s.wr.ei = some ei)
    (hep : s.wr.ep = some ep) (hf : t.fw = s.fw) (hpo : t.wr.po = s.wr.po) (hec : t.wr.ec = s.wr.ec)
    (hei' : t.wr.ei = some (ei + 1#8)) (hep' : t.wr.ep = some (ep + 5#17)) : replayAt true t = true := by
  obtain ⟨m, po, ec, ei0, ep0, h1, h2, h3, h4, h5, h6, h7, h8⟩ := (replayAt_iff false s).mp h
  rw [hei] at h4
  rw [hep] at h5
  cases h4
  cases h5
  have hec8 : ec.toNat < 256 := ec.isLt
  have hpo16 : po.toNat < 65536 := po.isLt
  simp only [Bool.false_eq_true, if_false] at h6
  have e1 : (ei + 1#8).toNat = ei.toNat + 1 := by
    rw [BitVec.toNat_add]; show (ei.toNat + 1) % 2 ^ 8 = _; omega
  have e2 : (ep + 5#17).toNat = ep.toNat + 5 := by
    rw [BitVec.toNat_add]; show (ep.toNat + 5) % 2 ^ 17 = _; omega
  refine (replayAt_iff true t).mpr ⟨m, po, ec, _, _, by rw [hf, h1], by rw [hpo, h2], by rw [hec, h3], hei', hep',
    ?_, ?_, h8⟩
  · simp only [if_true]; omega
  · rw [e1, e2]; omega

theorem pcntWithin_iff (lo hi : Nat) (w : WorkRegs) :
    pcntWithin lo hi w = true ↔ ∃ n, w.pcnt = some n ∧ lo ≤ n.toNat ∧ n.toNat ≤ hi := by
  unfold pcntWithin
  cases w.pcnt with
  | none => simp
  | some n => simp

/-! ## Every line -/

theorem lineWt_wf (l : WtLine) (hc : chainOk op .wt stack = true) (hl : lineReady c s (.wt l) = true)
    (hs : stack.all (lineReady c s) = true) (h : lineWt c op stack l s = .next t) : seqWf c t = true := by
  have kept : ∀ u : State, u.fw = s.fw → u.wr.po = s.wr.po → u.wr.ec = s.wr.ec → u.wr.ei = s.wr.ei →
      u.wr.ep = s.wr.ep → u.wr.ra = s.wr.ra → u.wr.rd = s.wr.rd → CallersKept s u :=
    fun u h1 h2 h3 h4 h5 h6 h7 => ⟨h1, h2, h3, h4, h5, by rw [h6]; exact id, by rw [h7]; exact id⟩
  cases l with
  | l0 =>
    cases h
    exact seqWf_goOn hc rfl (kept _ rfl rfl rfl rfl rfl rfl rfl) hs rfl
  | l1 =>
    obtain ⟨n, hn, h1, h2⟩ := (pcntWithin_iff _ _ _).mp hl
    unfold lineWt at h
    simp only at h
    split at h
    · cases h
      exact seqWf_retLine _ .wt hc (stack_ready hc (kept _ rfl rfl rfl rfl rfl rfl rfl) hs)
    · rw [hn, readReg_some, andThen_next] at h
      cases h
      refine seqWf_goOn hc rfl (kept _ rfl rfl rfl rfl rfl rfl rfl) hs ?_
      simp only [lineReady, Bool.and_eq_true]
      refine ⟨rfl, (pcntWithin_iff _ _ _).mpr ⟨n + 1#4, rfl, ?_⟩⟩
      have : (n + 1#4).toNat = n.toNat + 1 := by
        rw [BitVec.toNat_add]; show (n.toNat + 1) % 2 ^ 4 = _; omega
      omega
  | l2 =>
    obtain ⟨v, -, h⟩ := andThen_eq_next h
    cases h
    split
    · exact seqWf_goOn hc rfl (CallersKept.refl s) hs hl
    · exact seqWf_retLine _ .wt hc hs
  | l3 =>
    simp only [lineReady, Bool.and_eq_true] at hl
    obtain ⟨n, hn, h1, h2⟩ := (pcntWithin_iff _ _ _).mp hl.2
    unfold lineWt at h
    simp only at h
    rw [hn, readReg_some, andThen_next] at h
    cases h
    split
    · exact seqWf_retLine _ .wt hc hs
    · rename_i hne
      refine seqWf_goOn hc rfl (CallersKept.refl s) hs ?_
      refine (pcntWithin_iff _ _ _).mpr ⟨n, hn, by omega, ?_⟩
      have : Config.pollMax = 11 := rfl
      omega

theorem lineDw_wf (l : DwLine) (hc : chainOk op .dw stack = true) (hl : lineReady c s (.dw l) = true)
    (hs : stack.all (lineReady c s) = true) (h : lineDw c op stack l s = .next t) : seqWf c t = true := by
  cases l with
  | l0 =>
    obtain ⟨p, -, h⟩ := andThen_eq_next h
    cases h
    exact seqWf_goOn (s := s) hc rfl ⟨rfl, rfl, rfl, rfl, rfl, fun _ => rfl, fun _ => rfl⟩ hs rfl
  | l1 =>
    obtain ⟨a, -, h⟩ := andThen_eq_next h
    cases h
    simp only [lineReady, Bool.and_eq_true] at hl
    exact seqWf_writeLine hc rfl hs hl.2
  | l2 =>
    obtain ⟨a, -, h⟩ := andThen_eq_next h
    cases h
    exact seqWf_writeLine hc rfl hs rfl
  | l3 => cases h; exact seqWf_writeLine hc rfl hs rfl
  | l4 => cases h; exact seqWf_call hc rfl rfl rfl hs
  | l5 => cases h; exact seqWf_retLine _ .dw hc hs

theorem lineDr_wf (l : DrLine) (hc : chainOk op .dr stack = true) (hl : lineReady c s (.dr l) = true)
    (h : lineDr c op stack l s = .next t) : seqWf c t = true := by
  have := chain_top (p := .dr) (by simp) hc
  subst this
  have hs : ∀ u : State, ([] : List Label).all (lineReady c u) = true := fun _ => rfl
  cases l with
  | l0 => obtain ⟨p, -, h⟩ := andThen_eq_next h; cases h; exact seqWf_goto hc rfl rfl (hs _)
  | l1 => cases h; exact seqWf_call hc rfl hl rfl (hs _)
  | l2 => obtain ⟨p, -, h⟩ := andThen_eq_next h; cases h; exact seqWf_writeLine hc rfl (hs _) rfl
  | l3 => cases h; exact seqWf_writeLine hc rfl (hs _) rfl
  | l4 => cases h; exact seqWf_call hc rfl rfl rfl (hs _)
  | l5 => cases h; exact seqWf_writeLine hc rfl (hs _) rfl
  | l6 => cases h; exact seqWf_writeLine hc rfl (hs _) rfl
  | l7 => cases h; exact seqWf_call hc rfl rfl rfl (hs _)
  | l8 => cases h; exact seqWf_writeLine hc rfl (hs _) rfl
  | l9 => cases h; exact seqWf_writeLine hc rfl (hs _) rfl
  | l10 => cases h; exact seqWf_call hc rfl rfl rfl (hs _)
  | l11 =>
    unfold lineDr at h
    simp only at h
    split at h <;> cases h
    · exact seqWf_retLine _ .dr hc (hs _)
    · exact seqWf_goto hc rfl rfl (hs _)
  | l12 => obtain ⟨p, -, h⟩ := andThen_eq_next h; cases h; exact seqWf_retLine _ .dr hc (hs _)

theorem lineAm_wf (l : AmLine) (hc : chainOk op .am stack = true) (hl : lineReady c s (.am l) = true)
    (h : lineAm c op stack l s = .next t) : seqWf c t = true := by
  have hs : ∀ u : State, stack.all (lineReady c u) = true := fun u => stack_ready_am hc u
  cases l with
  | l0 => obtain ⟨m, -, h⟩ := andThen_eq_next h; cases h; exact seqWf_goto hc rfl rfl (hs _)
  | l1 =>
    unfold lineAm at h
    simp only at h
    split at h <;> cases h
    · exact seqWf_retLine _ .am hc (hs _)
    · rename_i m hm
      refine seqWf_goto hc rfl ?_ (hs _)
      simp only [lineReady, hm, Option.isSome_some, Bool.and_true] at hl ⊢
      exact hl
  | l2 =>
    obtain ⟨n, -, h⟩ := andThen_eq_next h
    cases h
    refine seqWf_goto hc rfl ?_ (hs _)
    simp only [lineReady, Bool.and_eq_true] at hl ⊢
    exact ⟨⟨hl.1, rfl⟩, hl.2⟩
  | l3 =>
    obtain ⟨m, -, h⟩ := andThen_eq_next h
    obtain ⟨n, -, h⟩ := andThen_eq_next h
    cases h
    split
    · exact seqWf_retLine _ .am hc (hs _)
    · refine seqWf_goto hc rfl ?_ (hs _)
      simp only [lineReady, Bool.and_eq_true] at hl ⊢
      exact ⟨hl.1.1, hl.2⟩
  | l4 =>
    obtain ⟨m, hm, h⟩ := andThen_eq_next h
    cases h
    split
    · exact seqWf_retLine _ .am hc (hs _)
    · rename_i d hd
      refine seqWf_goto hc rfl ?_ (hs _)
      simp only [lineReady, Bool.and_eq_true] at hl ⊢
      refine ⟨hl.2, ?_⟩
      rw [readReg_eq_next hm]
      show (descOff c m).isSome = true
      rw [hd]; rfl
  | l5 =>
    obtain ⟨m, -, h⟩ := andThen_eq_next h
    split at h
    · cases h; exact seqWf_retLine _ .am hc (hs _)
    · obtain ⟨p, -, h⟩ := andThen_eq_next h
      cases h
      refine seqWf_goto hc rfl ?_ (hs _)
      simp only [lineReady, Bool.and_eq_true] at hl ⊢
      exact ⟨⟨rfl, rfl⟩, hl.1⟩
  | l6 =>
    obtain ⟨po, hpo, h⟩ := andThen_eq_next h
    obtain ⟨ec, hec, h⟩ := andThen_eq_next h
    cases h
    split
    · exact seqWf_retLine _ .am hc (hs _)
    · rename_i hb
      refine seqWf_goto hc rfl ?_ (hs _)
      simp only [lineReady, Bool.and_eq_true] at hl ⊢
      obtain ⟨m, hm⟩ := Option.isSome_iff_exists.mp hl.2
      rw [hm] at hb
      simp only [hm, readReg_eq_next hpo, readReg_eq_next hec, decide_eq_true_eq]
      have : fwLen (some m) = Memory.size m := rfl
      omega
  | l7 =>
    obtain ⟨po, hpo, h⟩ := andThen_eq_next h
    cases h
    refine seqWf_goto hc rfl ?_ (hs _)
    have hpo' := readReg_eq_next hpo
    simp only [lineReady] at hl ⊢
    split at hl
    · rename_i m po' ec hm hpo2 hec
      rw [hpo'] at hpo2
      cases hpo2
      have hb : regionEnd po ec ≤ Memory.size m := by simpa using hl
      refine (replayAt_iff true _).mpr ⟨m, po, ec, 0#8, po.setWidth 17, hm, hpo', hec, rfl, rfl, by simp, ?_, hb⟩
      rw [BitVec.toNat_setWidth_of_le (by omega)]; rfl
    · cases hl
  | l8 =>
    obtain ⟨ei, hei, h⟩ := andThen_eq_next h
    obtain ⟨ec, hec, h⟩ := andThen_eq_next h
    cases h
    split
    · exact seqWf_retLine _ .am hc (hs _)
    · rename_i hne
      refine seqWf_goto hc rfl ?_ (hs _)
      obtain ⟨m, po, ec', ei', ep, h1, h2, h3, h4, h5, h6, h7, h8⟩ := (replayAt_iff true s).mp hl
      rw [readReg_eq_next hei] at h4
      rw [readReg_eq_next hec] at h3
      cases h4
      cases h3
      refine (replayAt_iff false s).mpr ⟨m, po, ec, ei, ep, h1, h2, readReg_eq_next hec, readReg_eq_next hei, h5, ?_, h7, h8⟩
      simp only [if_true] at h6
      simp only [Bool.false_eq_true, if_false]
      have : ei.toNat ≠ ec.toNat := fun he => hne (BitVec.eq_of_toNat_eq he)
      omega
  | l9 =>
    obtain ⟨ep, hep, h⟩ := andThen_eq_next h
    obtain ⟨entry, -, h⟩ := andThen_eq_next h
    cases h
    refine seqWf_goto hc rfl ?_ (hs _)
    simp only [lineReady, Bool.and_eq_true] at hl ⊢
    exact ⟨⟨hl, rfl⟩, rfl⟩
  | l10 => obtain ⟨_, -, h⟩ := andThen_eq_next h; cases h; exact seqWf_call hc rfl hl rfl (hs _)
  | l11 =>
    obtain ⟨ei, hei, h⟩ := andThen_eq_next h
    obtain ⟨ep, hep, h⟩ := andThen_eq_next h
    cases h
    refine seqWf_goto hc rfl ?_ (hs _)
    exact replayAt_advance hl (readReg_eq_next hei) (readReg_eq_next hep) rfl rfl rfl rfl rfl

/-- Every line leads from a well-formed place to a well-formed place. -/
theorem lineAt_wf (upc : Label) (hc : chainOk op upc.proc stack = true) (hl : lineReady c s upc = true)
    (hs : stack.all (lineReady c s) = true) (h : lineAt c op upc stack s = .next t) : seqWf c t = true := by
  have top : ∀ p, p ∈ [Proc.dr, Proc.mg, Proc.ms, Proc.pd, Proc.pu, Proc.pb] → chainOk op p stack = true →
      ∀ u : State, stack.all (lineReady c u) = true := by
    intro p hp hc' u
    have := chain_top hp hc'
    subst this; rfl
  cases upc with
  | wt l => exact lineWt_wf l hc hl hs h
  | dw l => exact lineDw_wf l hc hl hs h
  | dr l => exact lineDr_wf l hc hl h
  | am l => exact lineAm_wf l hc hl h
  | mg => cases h; exact seqWf_retLine _ .mg hc hs
  | ms l =>
    have ts := top .ms (by simp) hc
    cases l with
    | l0 =>
      cases h
      split
      · exact seqWf_retLine _ .ms hc hs
      · exact seqWf_goto hc rfl rfl hs
    | l1 => cases h; exact seqWf_goto hc rfl rfl (ts _)
    | l2 => cases h; exact seqWf_retLine _ .ms hc hs
  | rs l =>
    cases l with
    | l0 => cases h; exact seqWf_goOn hc rfl ⟨rfl, rfl, rfl, rfl, rfl, id, id⟩ hs rfl
    | l1 => cases h; exact seqWf_goOn hc rfl ⟨rfl, rfl, rfl, rfl, rfl, id, id⟩ hs rfl
    | l2 => cases h; exact seqWf_goOn hc rfl ⟨rfl, rfl, rfl, rfl, rfl, id, id⟩ hs rfl
    | l3 => cases h; exact seqWf_retVoid .rs (.inl rfl) hc hs
  | pw l =>
    cases l with
    | l0 => cases h; exact seqWf_call hc rfl rfl rfl hs
    | l1 =>
      obtain ⟨r, -, h⟩ := andThen_eq_next h
      cases h; exact seqWf_goOn hc rfl ⟨rfl, rfl, rfl, rfl, rfl, id, id⟩ hs rfl
    | l2 => cases h; exact seqWf_retVoid .pw (.inr rfl) hc hs
  | pd l =>
    cases l with
    | l0 => cases h; exact seqWf_call hc rfl rfl rfl hs
    | l1 => cases h; exact seqWf_retLine _ .pd hc hs
  | pu l =>
    have ts := top .pu (by simp) hc
    cases l with
    | l0 => cases h; exact seqWf_call hc rfl rfl rfl hs
    | l1 => cases h; exact seqWf_call hc rfl rfl rfl hs
    | l2 =>
      obtain ⟨r, -, h⟩ := andThen_eq_next h
      cases h; exact seqWf_goto hc rfl rfl (ts _)
    | l3 => cases h; exact seqWf_retLine _ .pu hc hs
  | pb l =>
    have ts := top .pb (by simp) hc
    cases l with
    | l0 => cases h; exact seqWf_goto hc rfl rfl (ts _)
    | l1 => cases h; exact seqWf_call hc rfl rfl rfl hs
    | l2 => cases h; exact seqWf_call hc rfl rfl rfl hs
    | l3 => cases h; exact seqWf_goto hc rfl rfl (ts _)
    | l4 => cases h; exact seqWf_call hc rfl rfl rfl hs
    | l5 => cases h; exact seqWf_goto hc rfl rfl (ts _)
    | l6 => cases h; exact seqWf_goto hc rfl rfl (ts _)
    | l7 => cases h; exact seqWf_retLine _ .pb hc hs

/-! ## No register without a value is read -/

/-- The outcome is no fault of an unwritten register. -/
def Written {α : Type} (x : Out α) : Prop := ∀ name, x ≠ .fault (.unwrittenRegister name)

theorem Written.next {α : Type} (a : α) : Written (.next a : Out α) := fun _ h => by cases h

theorem Written.andThen {α β : Type} {x : Out α} {k : α → Out β} (hx : Written x) (hk : ∀ a, Written (k a)) :
    Written (andThen x k) := by
  cases x with
  | next a => exact hk a
  | fault f => intro name h; exact hx name (by cases h; rfl)
  | refused r => intro name h; cases h

theorem Written.readReg {α β : Type} {n : RegName} {r : Option α} {k : α → Out β} (hr : r.isSome = true)
    (hk : ∀ a, Written (k a)) : Written (Machine.andThen (readReg n r) k) := by
  obtain ⟨v, rfl⟩ := Option.isSome_iff_exists.mp hr
  exact hk v

theorem memRead_written (fw : Option Memory) (o : Nat) : Written (memRead fw o) := by
  intro name h
  rcases memRead_cases fw o with ⟨b, hb⟩ | hb <;> rw [hb] at h <;> cases h

theorem fetchDesc_written (fw : Option Memory) (d : Nat) : Written (fetchDesc fw d) :=
  (memRead_written _ _).andThen fun _ => (memRead_written _ _).andThen fun _ =>
  (memRead_written _ _).andThen fun _ => Written.next _

theorem fetchEntry_written (fw : Option Memory) (e : Nat) : Written (fetchEntry fw e) :=
  (memRead_written _ _).andThen fun _ => (memRead_written _ _).andThen fun _ =>
  (memRead_written _ _).andThen fun _ => (memRead_written _ _).andThen fun _ => Written.next _

theorem pcntWithin_isSome {lo hi : Nat} {w : WorkRegs} (h : pcntWithin lo hi w = true) : w.pcnt.isSome = true := by
  obtain ⟨n, hn, -⟩ := (pcntWithin_iff _ _ _).mp h
  rw [hn]; rfl

theorem replayAt_isSome {last : Bool} (h : replayAt last s = true) :
    s.wr.ec.isSome = true ∧ s.wr.ei.isSome = true ∧ s.wr.ep.isSome = true := by
  obtain ⟨m, po, ec, ei, ep, -, -, h3, h4, h5, -⟩ := (replayAt_iff _ _).mp h
  rw [h3, h4, h5]; exact ⟨rfl, rfl, rfl⟩

/-- Who can call `write`, and with what (10_state.md R28). -/
theorem writeArgs_written (hc : chainOk op .dw stack = true) (hs : stack.all (lineReady c s) = true) :
    Written (writeArgs c op stack s) := by
  unfold writeArgs
  split
  · rw [List.all_cons, Bool.and_eq_true] at hs
    have h := hs.1
    simp only [lineReady, Bool.and_eq_true] at h
    exact Written.readReg h.1.2 fun a => Written.readReg h.2 fun d => Written.next _
  · exact Written.next _
  · rename_i h1 h2
    cases stack with
    | nil =>
      cases op <;> simp [chainOk, entryLine, Label.proc] at hc
      exact Written.next _
    | cons l stack =>
      simp only [chainOk, Bool.and_eq_true, beq_iff_eq] at hc
      have := hc.1
      unfold calledProc at this
      split at this <;> cases this
      · exact absurd rfl (h1 _)
      · exact absurd rfl (h2 _)

theorem readArg_written (hc : chainOk op .dr stack = true) : Written (readArg op s) := by
  have := chain_top (p := .dr) (by simp) hc
  subst this
  cases op <;> simp [chainOk, entryLine, Label.proc] at hc
  exact Written.next _

theorem applyArg_written (hc : chainOk op .am stack = true) : Written (applyArg op stack s) := by
  rcases chain_am hc with ⟨rfl, m, rfl⟩ | rfl | rfl <;> exact Written.next _

/-- Every line finds the registers it reads. -/
theorem lineAt_written (upc : Label) (hc : chainOk op upc.proc stack = true) (hl : lineReady c s upc = true)
    (hs : stack.all (lineReady c s) = true) : Written (lineAt c op upc stack s) := by
  cases upc with
  | wt l =>
    cases l with
    | l0 => exact Written.next _
    | l1 =>
      unfold lineAt lineWt
      simp only
      split
      · exact Written.next _
      · exact Written.readReg (pcntWithin_isSome hl) fun _ => Written.next _
    | l2 =>
      simp only [lineReady, Bool.and_eq_true] at hl
      exact Written.readReg hl.1 fun _ => Written.next _
    | l3 =>
      simp only [lineReady, Bool.and_eq_true] at hl
      exact Written.readReg (pcntWithin_isSome hl.2) fun _ => Written.next _
  | dw l =>
    cases l with
    | l0 => exact (writeArgs_written hc hs).andThen fun _ => Written.next _
    | l1 =>
      simp only [lineReady, Bool.and_eq_true] at hl
      exact Written.readReg hl.1 fun _ => Written.next _
    | l2 => exact Written.readReg hl fun _ => Written.next _
    | l3 => exact Written.next _
    | l4 => exact Written.next _
    | l5 => exact Written.next _
  | dr l =>
    cases l with
    | l0 => exact (readArg_written hc).andThen fun _ => Written.next _
    | l2 => exact Written.readReg hl fun _ => Written.next _
    | l11 =>
      unfold lineAt lineDr
      simp only
      split <;> exact Written.next _
    | l12 => exact Written.readReg hl fun _ => Written.next _
    | _ => exact Written.next _
  | am l =>
    cases l with
    | l0 => exact (applyArg_written hc).andThen fun _ => Written.next _
    | l1 =>
      unfold lineAt lineAm
      simp only
      split <;> exact Written.next _
    | l2 => exact (memRead_written _ _).andThen fun _ => Written.next _
    | l3 =>
      simp only [lineReady, Bool.and_eq_true] at hl
      exact Written.readReg hl.1.1 fun _ => Written.readReg hl.1.2 fun _ => Written.next _
    | l4 =>
      simp only [lineReady, Bool.and_eq_true] at hl
      exact Written.readReg hl.1 fun _ => Written.next _
    | l5 =>
      simp only [lineReady, Bool.and_eq_true] at hl
      have hm : s.wr.mi.isSome = true := by
        cases hmi : s.wr.mi with
        | none => rw [hmi] at hl; exact absurd hl.2 (by simp)
        | some m => rfl
      refine Written.readReg hm fun m => ?_
      split
      · exact Written.next _
      · exact (fetchDesc_written _ _).andThen fun _ => Written.next _
    | l6 =>
      simp only [lineReady, Bool.and_eq_true] at hl
      exact Written.readReg hl.1.1 fun _ => Written.readReg hl.1.2 fun _ => Written.next _
    | l7 =>
      simp only [lineReady] at hl
      split at hl
      · rename_i h2 h3
        exact Written.readReg (by rw [h2]; rfl) fun _ => Written.next _
      · cases hl
    | l8 =>
      obtain ⟨h1, h2, h3⟩ := replayAt_isSome hl
      exact Written.readReg h2 fun _ => Written.readReg h1 fun _ => Written.next _
    | l9 =>
      obtain ⟨h1, h2, h3⟩ := replayAt_isSome hl
      exact Written.readReg h3 fun _ => (fetchEntry_written _ _).andThen fun _ => Written.next _
    | l10 =>
      simp only [lineReady, Bool.and_eq_true] at hl
      exact (Written.readReg hl.1.2 fun _ => Written.readReg hl.2 fun _ => Written.next _).andThen
        fun _ => Written.next _
    | l11 =>
      obtain ⟨h1, h2, h3⟩ := replayAt_isSome hl
      exact Written.readReg h2 fun _ => Written.readReg h3 fun _ => Written.next _
  | mg => exact Written.next _
  | ms l => cases l <;> exact Written.next _
  | rs l => cases l <;> exact Written.next _
  | pw l =>
    cases l with
    | l1 => exact Written.readReg hl fun _ => Written.next _
    | _ => exact Written.next _
  | pd l => cases l <;> exact Written.next _
  | pu l =>
    cases l with
    | l2 => exact Written.readReg hl fun _ => Written.next _
    | _ => exact Written.next _
  | pb l => cases l <;> exact Written.next _

end Sys2Proof.Machine
end

