-- ==== Sys2Proof/Laws/Sequencer.lean ====
section
/-! SUPPORT. Line by line and at once: the lines of a procedure, run by the sequencer, do what the procedure
does, in a bounded number (spec/10_state.md R33; spec/40_command_poll.md R133(d)). -/

namespace Sys2Proof.Machine

variable {c : Cfg} {op : Instr} {stack : List Label} {s t u : State} {l : Label}

/-! ## Places do not matter to what a line does -/

theorem goto_tick (op : Instr) (stack : List Label) (l : Label) (s : State) :
    (goto op stack l s).tick = goto op stack l s.tick := by
  unfold State.tick goto
  split <;> rename_i h <;> simp only at h <;> simp [h]
  cases hf : s.fw <;> simp [hf, h]

theorem returnTo_goto (op op' : Instr) (r : Result) (stack stack' : List Label) (l : Label) (s : State) :
    returnTo op r (goto op' stack' l s) stack = returnTo op r s stack := by
  induction stack with
  | nil => rfl
  | cons a stack ih =>
    unfold returnTo
    split
    · rfl
    · cases r with
      | ok p => rfl
      | err x => exact ih
    · exact ih

/-- The state at a line, ready for the sequencer's next step. -/
theorem seqStep_goto (c : Cfg) (op : Instr) (stack : List Label) (l : Label) (s : State) :
    seqStep c (goto op stack l s) = lineAt c op l stack (goto op stack l s.tick) := by
  rw [← goto_tick]; rfl

/-! ## Runs of lines -/

theorem seqRun_idle (n : Nat) (h : s.seq = .idle) : seqRun c n s = .next s := by
  cases n with
  | zero => rfl
  | succ n => unfold seqRun; rw [h]

/-- At most `b` lines lead from `s` to what the procedure answers, and on from where it returns to. -/
def LinesTo (c : Cfg) (op : Instr) (stack : List Label) (b : Nat) (s : State) (x : Out (Result × State)) : Prop :=
  ∃ j, j ≤ b ∧ ∀ m, seqRun c (j + m) s = andThen x fun p => seqRun c m (returnTo op p.1 p.2 stack)

theorem LinesTo.mono {b b' : Nat} {x : Out (Result × State)} (h : LinesTo c op stack b s x) (hb : b ≤ b') :
    LinesTo c op stack b' s x := by
  obtain ⟨j, h1, h2⟩ := h
  exact ⟨j, h1.trans hb, h2⟩

theorem seqRun_line (n : Nat) (l : Label) (s : State) :
    seqRun c (n + 1) (goto op stack l s) =
      andThen (lineAt c op l stack (goto op stack l s.tick)) (seqRun c n) := by
  rw [← seqStep_goto]; rfl

/-- One line, then the rest. -/
theorem LinesTo.step {b : Nat} {x : Out (Result × State)} {op' : Instr} {stack' : List Label}
    (h1 : lineAt c op' l stack' (goto op' stack' l s.tick) = .next t) (h2 : LinesTo c op stack b t x) :
    LinesTo c op stack (b + 1) (goto op' stack' l s) x := by
  obtain ⟨j, hj, h⟩ := h2
  refine ⟨j + 1, by omega, fun m => ?_⟩
  rw [Nat.add_right_comm, seqRun_line, h1, andThen_next, h]

/-- The returning line. -/
theorem LinesTo.ret {r : Result} (h : lineAt c op l stack (goto op stack l s.tick) = .next (returnTo op r u stack)) :
    LinesTo c op stack 1 (goto op stack l s) (.next (r, u)) := by
  refine ⟨1, Nat.le_refl 1, fun m => ?_⟩
  rw [Nat.add_comm, seqRun_line, h]
  rfl

/-- The faulting line. -/
theorem LinesTo.fault {f : Fault} (h : lineAt c op l stack (goto op stack l s.tick) = .fault f) :
    LinesTo c op stack 1 (goto op stack l s) (.fault f) := by
  refine ⟨1, Nat.le_refl 1, fun m => ?_⟩
  rw [Nat.add_comm, seqRun_line, h]
  rfl

/-- A called procedure that returns to its calling line, and the rest behind the call. -/
theorem LinesTo.call {b b' : Nat} {r : Result} {x : Out (Result × State)} {stack' : List Label}
    (h1 : LinesTo c op stack' b s (.next (r, u))) (h2 : LinesTo c op stack b' (returnTo op r u stack') x) :
    LinesTo c op stack (b + b') s x := by
  obtain ⟨j, hj, h⟩ := h1
  obtain ⟨j', hj', h'⟩ := h2
  refine ⟨j + j', by omega, fun m => ?_⟩
  rw [Nat.add_assoc, h, andThen_next, h']

/-- A called procedure whose return is also the caller's. -/
theorem LinesTo.through {b : Nat} {r : Result} {stack' : List Label}
    (h1 : LinesTo c op stack' b s (.next (r, u))) (h2 : returnTo op r u stack' = returnTo op r u stack) :
    LinesTo c op stack b s (.next (r, u)) := by
  obtain ⟨j, hj, h⟩ := h1
  exact ⟨j, hj, fun m => by rw [h, andThen_next, andThen_next, h2]⟩

theorem LinesTo.faultThrough {b : Nat} {f : Fault} {stack' : List Label}
    (h1 : LinesTo c op stack' b s (.fault f)) : LinesTo c op stack b s (.fault f) := by
  obtain ⟨j, hj, h⟩ := h1
  exact ⟨j, hj, fun m => by rw [h]; rfl⟩

/-! ## `wait_ready` -/

theorem poll_lines (n : Nat) (hn : n ≤ 11) (h0 : 0 < n) (hp : s.wr.pcnt = some (BitVec.ofNat 4 (11 - n))) :
    LinesTo c op stack (3 * n) (goto op stack (.wt .l1) s) (.next (poll c n s)) := by
  induction n generalizing s with
  | zero => omega
  | succ n ih =>
    rw [poll_succ]
    have hpt : s.tick.wr.pcnt = some (BitVec.ofNat 4 (11 - (n + 1))) := by simpa using hp
    cases ha : s.answer with
    | err e =>
      refine (LinesTo.ret ?_).mono (by omega)
      have : (goto op stack (.wt .l1) s.tick).answer = .err e := by simpa [State.answer] using ha
      simp only [lineAt, lineWt, this]
      exact congrArg Host.Outcome.next (returnTo_goto op op _ stack stack _ ((s.tick.tread c.regStatus).setST (.err (.io e))))
    | ok v =>
      have hk : BitVec.ofNat 4 (11 - (n + 1)) + 1#4 = BitVec.ofNat 4 (Config.pollMax - n) := by
        have : Config.pollMax - n = (11 - (n + 1)) + 1 := by show 11 - n = _; omega
        rw [this, BitVec.ofNat_add]
      have h1 : lineAt c op (.wt .l1) stack (goto op stack (.wt .l1) s.tick) =
          .next (goto op stack (.wt .l2)
            (((s.tick.tread c.regStatus).setRV v).setPCNT (BitVec.ofNat 4 (Config.pollMax - n)))) := by
        have : (goto op stack (.wt .l1) s.tick).answer = .ok v := by simpa [State.answer] using ha
        simp only [lineAt, lineWt, this, goto_wr, hpt, readReg_some, andThen_next, hk]
        rfl
      simp only
      generalize hs1 : ((s.tick.tread c.regStatus).setRV v).setPCNT (BitVec.ofNat 4 (Config.pollMax - n)) = s1 at h1
      have hrv : s1.tick.wr.rv = some v := by rw [State.tick_wr, ← hs1]; rfl
      have hpc : s1.wr.pcnt = some (BitVec.ofNat 4 (Config.pollMax - n)) := by rw [← hs1]; rfl
      by_cases hb : busy c v = true
      · rw [if_pos hb]
        have h2 : lineAt c op (.wt .l2) stack (goto op stack (.wt .l2) s1.tick) =
            .next (goto op stack (.wt .l3) s1.tick) := by
          simp only [lineAt, lineWt, goto_wr, hrv, readReg_some, andThen_next, hb, if_true]
          rfl
        have hpc2 : s1.tick.tick.wr.pcnt = some (BitVec.ofNat 4 (Config.pollMax - n)) := by simpa using hpc
        have htn : (BitVec.ofNat 4 (Config.pollMax - n)).toNat = 11 - n := by
          rw [BitVec.toNat_ofNat]; show (11 - n) % 16 = _; omega
        cases n with
        | zero =>
          refine ((LinesTo.ret (u := s1.tick.tick.setST (.err .busy)) ?_).step h2 |>.step h1).mono (by omega)
          simp only [lineAt, lineWt, goto_wr, hpc2, readReg_some, andThen_next, htn]
          rw [if_pos (show 11 - 0 = Config.pollMax from rfl)]
          exact congrArg Host.Outcome.next (returnTo_goto op op _ stack stack _ (s1.tick.tick.setST (.err .busy)))
        | succ n =>
          have h3 : lineAt c op (.wt .l3) stack (goto op stack (.wt .l3) s1.tick.tick) =
              .next (goto op stack (.wt .l1) s1.tick.tick) := by
            simp only [lineAt, lineWt, goto_wr, hpc2, readReg_some, andThen_next, htn]
            rw [if_neg (by show ¬ 11 - (n + 1) = 11; omega)]
            rfl
          exact (((ih (by omega) (by omega) hpc2).step h3).step h2 |>.step h1).mono (by omega)
      · rw [if_neg hb]
        refine ((LinesTo.ret (u := s1.tick.setST (.ok none)) ?_).step h1).mono (by omega)
        simp only [lineAt, lineWt, goto_wr, hrv, readReg_some, andThen_next]
        rw [if_neg hb]
        exact congrArg Host.Outcome.next (returnTo_goto op op _ stack stack _ (s1.tick.setST (.ok none)))

/-- `wait_ready`: at most `1 + 3*11` lines (40_command_poll.md R133(d)). -/
theorem waitReady_lines (c : Cfg) (op : Instr) (stack : List Label) (s : State) :
    LinesTo c op stack 34 (goto op stack (.wt .l0) s) (.next (waitReady c s)) :=
  LinesTo.step (b := 33) (t := goto op stack (.wt .l1) (s.tick.setPCNT 0#4)) rfl
    (poll_lines (s := s.tick.setPCNT 0#4) 11 (by omega) (by omega) rfl)

/-! ## What `wait_ready` and `write` leave in the registers -/

/-- Only `RV`, `PCNT` and `ST` can differ (10_state.md R28). -/
def WaitKeeps (s t : State) : Prop :=
  SameReplay s t ∧ t.wr.ra = s.wr.ra ∧ t.wr.rd = s.wr.rd ∧ t.wr.ei = s.wr.ei ∧ t.wr.ep = s.wr.ep

theorem WaitKeeps.trans (h : WaitKeeps s t) (h' : WaitKeeps t u) : WaitKeeps s u := by
  obtain ⟨⟨a1, a2, a3, a4⟩, a5, a6, a7, a8⟩ := h
  obtain ⟨⟨b1, b2, b3, b4⟩, b5, b6, b7, b8⟩ := h'
  exact ⟨⟨b1.trans a1, b2.trans a2, b3.trans a3, b4.trans a4⟩, b5.trans a5, b6.trans a6, b7.trans a7, b8.trans a8⟩

theorem WaitKeeps.refl (s : State) : WaitKeeps s s := ⟨⟨rfl, rfl, rfl, rfl⟩, rfl, rfl, rfl, rfl⟩

theorem WaitKeeps.tick (h : WaitKeeps s t) : WaitKeeps s t.tick := by
  have hw := State.tick_wr t
  unfold WaitKeeps SameReplay at *
  rw [hw]; exact h

theorem poll_waitKeeps (c : Cfg) (n : Nat) (s : State) : WaitKeeps s (poll c n s).2 := by
  induction n generalizing s with
  | zero => exact WaitKeeps.refl s
  | succ n ih =>
    have h0 := (WaitKeeps.refl s).tick
    rw [poll_succ]
    split
    · exact h0
    · have h1 : WaitKeeps s (((s.tick.tread c.regStatus).setRV ‹_›).setPCNT (BitVec.ofNat 4 (Config.pollMax - n))) := h0
      split
      · exact h1.tick.tick.trans (ih _)
      · exact h1.tick

theorem waitReady_waitKeeps (c : Cfg) (s : State) : WaitKeeps s (waitReady c s).2 := by
  have h : WaitKeeps s (s.tick.setPCNT 0#4) := (WaitKeeps.refl s).tick
  exact h.trans (poll_waitKeeps c Config.pollMax _)

/-! ## Continuations -/

/-- A line that writes a register: the rest runs behind a success. -/
theorem writeThen_lines {b : Nat} {a : RegAddr} {v : W32} {next : Label} {k : State → Result × State}
    (h1 : lineAt c op l stack (goto op stack l s.tick) = .next (writeLine op stack a v next (goto op stack l s.tick)))
    (hk : LinesTo c op stack b (goto op stack next (s.tick.twrite a v)) (.next (k (s.tick.twrite a v)))) :
    LinesTo c op stack (b + 1) (goto op stack l s) (.next (writeThen a v s k)) := by
  have hans : (goto op stack l s.tick).answer = s.answer := by simp [State.answer]
  cases ha : s.answer with
  | err e =>
    rw [writeThen_err _ _ _ ha]
    refine (LinesTo.ret (u := (s.tick.twrite a v).setST (.err (.io e))) ?_).mono (by omega)
    rw [h1, writeLine, hans, ha]
    exact congrArg Host.Outcome.next (returnTo_goto op op _ stack stack l ((s.tick.twrite a v).setST (.err (.io e))))
  | ok x =>
    rw [writeThen_ok _ _ x _ ha]
    refine hk.step ?_
    rw [h1, writeLine, hans, ha]
    rfl

/-- A line that calls `wait_ready` with `try`. -/
theorem waitThen_lines {b : Nat} {next : Label} {k : State → Result × State}
    (h1 : ∀ u : State, lineAt c op l stack (goto op stack l u) = .next (goto op (l :: stack) (.wt .l0) u))
    (h2 : afterCall l = .propagate next)
    (hk : ∀ u, WaitKeeps s u → LinesTo c op stack b (goto op stack next u) (.next (k u))) :
    LinesTo c op stack (35 + b) (goto op stack l s) (.next (waitThen c s k)) := by
  have hw := waitReady_lines c op (l :: stack) s.tick
  have hkeep := (WaitKeeps.refl s).tick.trans (waitReady_waitKeeps c s.tick)
  have hret : ∀ (r : Result) (u : State), returnTo op r u (l :: stack) =
      match r with
      | .ok _ => goto op stack next u
      | .err _ => returnTo op r u stack := by
    intro r u
    cases r <;> simp only [returnTo, h2]
  unfold waitThen
  generalize waitReady c s.tick = p at hw hkeep
  obtain ⟨r, t⟩ := p
  cases r with
  | err x =>
    exact ((hw.through (hret (.err x) t)).step (h1 s.tick)).mono (by omega)
  | ok x =>
    have h3 := hk t hkeep
    have h4 : returnTo op (.ok x) t (l :: stack) = goto op stack next t := hret (.ok x) t
    rw [← h4] at h3
    exact ((hw.call h3).step (h1 s.tick)).mono (by omega)

/-- `write`, from behind line DW.0: at most `40` lines with it. -/
theorem write_lines (c : Cfg) (op : Instr) (stack : List Label) (a d : W16) (s : State)
    (h0 : lineAt c op (.dw .l0) stack (goto op stack (.dw .l0) s.tick) =
      .next (goto op stack (.dw .l1) (s.tick.setOperands a d))) :
    LinesTo c op stack 40 (goto op stack (.dw .l0) s) (.next (write c a d s)) := by
  refine LinesTo.step (b := 39) h0 ?_
  have hra : ∀ u : State, (((s.tick.setOperands a d).tick).twrite c.regAddr (zext32 a)).tick.wr.rd = some d :=
    fun _ => by simp [State.setOperands]
  refine writeThen_lines (b := 38) (next := .dw .l2) ?_ ?_
  · simp only [lineAt, lineDw, goto_wr, State.tick_wr, show (s.tick.setOperands a d).wr.ra = some a from rfl,
      readReg_some, andThen_next]
  refine writeThen_lines (b := 37) (next := .dw .l3) ?_ ?_
  · simp only [lineAt, lineDw, goto_wr, hra s, readReg_some, andThen_next]
  refine writeThen_lines (b := 36) (next := .dw .l4) rfl ?_
  refine waitThen_lines (b := 1) (next := .dw .l5) (fun u => rfl) rfl fun u _ => ?_
  exact LinesTo.ret (congrArg Host.Outcome.next (returnTo_goto op op _ stack stack (.dw .l5) (u.tick.setST (.ok none))))

/-- `read`: at most `149` lines. -/
theorem read_lines (c : Cfg) (r : W16) (s : State) :
    LinesTo c (.dspRead r) [] 149 (goto (.dspRead r) [] (.dr .l0) s) (.next (read c r s)) := by
  refine LinesTo.step (b := 148) (l := .dr .l0) (t := goto (.dspRead r) [] (.dr .l1) (s.tick.setRA r)) rfl ?_
  refine waitThen_lines (b := 113) (next := .dr .l2) (fun u => rfl) rfl fun u hu => ?_
  have hra : u.tick.wr.ra = some r := by
    rw [State.tick_wr, hu.2.1]; rfl
  refine writeThen_lines (b := 112) (next := .dr .l3) ?_ ?_
  · simp only [lineAt, lineDr, goto_wr, hra, readReg_some, andThen_next]
  refine writeThen_lines (b := 111) (next := .dr .l4) rfl ?_
  refine waitThen_lines (b := 76) (next := .dr .l5) (fun u => rfl) rfl fun u _ => ?_
  refine writeThen_lines (b := 75) (next := .dr .l6) rfl ?_
  refine writeThen_lines (b := 74) (next := .dr .l7) rfl ?_
  refine waitThen_lines (b := 39) (next := .dr .l8) (fun u => rfl) rfl fun u _ => ?_
  refine writeThen_lines (b := 38) (next := .dr .l9) rfl ?_
  refine writeThen_lines (b := 37) (next := .dr .l10) rfl ?_
  refine waitThen_lines (b := 2) (next := .dr .l11) (fun u => rfl) rfl fun u _ => ?_
  have hans : (goto (.dspRead r) [] (.dr .l11) u.tick).answer = u.answer := by simp [State.answer]
  unfold readOut
  rw [State.tick_answer]
  cases ha : u.answer with
  | err e =>
    refine (LinesTo.ret (u := (u.tick.tread c.regDout).setST (.err (.io e))) ?_).mono (by omega)
    simp only [lineAt, lineDr, hans, ha]
    exact congrArg Host.Outcome.next (returnTo_goto _ _ _ [] [] (.dr .l11) ((u.tick.tread c.regDout).setST (.err (.io e))))
  | ok v =>
    have h1 : lineAt c (.dspRead r) (.dr .l11) [] (goto (.dspRead r) [] (.dr .l11) u.tick) =
        .next (goto (.dspRead r) [] (.dr .l12) ((u.tick.tread c.regDout).setRV v)) := by
      simp only [lineAt, lineDr, hans, ha]; rfl
    refine LinesTo.step (b := 1) h1 ?_
    refine LinesTo.ret (u := (((u.tick.tread c.regDout).setRV v).tick).setST (.ok (some v))) ?_
    have hrv : ((u.tick.tread c.regDout).setRV v).tick.wr.rv = some v := by rw [State.tick_wr]; rfl
    simp only [lineAt, lineDr, goto_wr, hrv, readReg_some, andThen_next]
    exact congrArg Host.Outcome.next (returnTo_goto _ _ _ [] [] (.dr .l12)
      ((((u.tick.tread c.regDout).setRV v).tick).setST (.ok (some v))))

end Sys2Proof.Machine
end

