-- ==== Sys2Proof/Laws/SequencerReplay.lean ====
section
/-! SUPPORT. The lines of `apply_mode` and of the host events' sub-procedures, run by the sequencer, do what
the procedures do, in a bounded number (spec/10_state.md R33; spec/70_reset_and_hazards.md R277). -/

namespace Sys2Proof.Machine

variable {c : Cfg} {op : Instr} {stack : List Label} {s t u : State} {l : Label}

/-! ## The replay's registers -/

/-- `MI`, `MC`, `PO`, `EC`, `EI`, `EP` are as they were (10_state.md R28). -/
def EntryKeeps (s t : State) : Prop := SameReplay s t ∧ t.wr.ei = s.wr.ei ∧ t.wr.ep = s.wr.ep

theorem WaitKeeps.entry (h : WaitKeeps s t) : EntryKeeps s t := ⟨h.1, h.2.2.2.1, h.2.2.2.2⟩

theorem EntryKeeps.trans (h : EntryKeeps s t) (h' : EntryKeeps t u) : EntryKeeps s u := by
  obtain ⟨⟨a1, a2, a3, a4⟩, a5, a6⟩ := h
  obtain ⟨⟨b1, b2, b3, b4⟩, b5, b6⟩ := h'
  exact ⟨⟨b1.trans a1, b2.trans a2, b3.trans a3, b4.trans a4⟩, b5.trans a5, b6.trans a6⟩

theorem EntryKeeps.refl (s : State) : EntryKeeps s s := ⟨⟨rfl, rfl, rfl, rfl⟩, rfl, rfl⟩

theorem EntryKeeps.tick (h : EntryKeeps s t) : EntryKeeps s t.tick := by
  have hw := State.tick_wr t
  unfold EntryKeeps SameReplay at *
  rw [hw]; exact h

theorem writeThen_entryKeeps {a : RegAddr} {v : W32} {k : State → Result × State} (s : State)
    (hk : ∀ t, EntryKeeps t (k t).2) : EntryKeeps s (writeThen a v s k).2 := by
  have h : EntryKeeps s (s.tick.twrite a v) := (EntryKeeps.refl s).tick
  unfold writeThen
  split
  · exact h
  · exact h.trans (hk _)

theorem write_entryKeeps (c : Cfg) (a d : W16) (s : State) : EntryKeeps s (write c a d s).2 := by
  have h0 : EntryKeeps s (s.tick.setOperands a d) := (EntryKeeps.refl s).tick
  refine h0.trans (writeThen_entryKeeps _ fun t => writeThen_entryKeeps _ fun t => writeThen_entryKeeps _ fun t => ?_)
  have h := (EntryKeeps.refl t).tick.trans (waitReady_waitKeeps c t.tick).entry
  unfold waitThen
  generalize waitReady c t.tick = p at h
  obtain ⟨r, u⟩ := p
  cases r with
  | err x => exact h
  | ok x => exact h.tick

/-- An entry's write leaves the replay's registers alone, so line AM.11 finds what stood there before. -/
theorem writeEntry_entryKeeps (c : Cfg) (a d : W16) (s : State) : EntryKeeps s (writeEntry c a d s).2 := by
  have h : EntryKeeps s (s.tick.setOperands a d) := (EntryKeeps.refl s).tick
  exact h.tick.trans (write_entryKeeps c a d _)

/-! ## The replay -/

/-- Lines AM.9 to AM.11: one entry, at most 43 lines, then the loop's test or the return. -/
theorem replay_lines (c : Cfg) (op : Instr) (stack : List Label) (m : Memory) (n : Nat) (ei ec : BitVec 8)
    (ep : BitVec 17) (s : State) (hm : s.fw = some m) (hec : s.wr.ec = some ec) (hei : s.wr.ei = some ei)
    (hep : s.wr.ep = some ep) (hn : ei.toNat + n = ec.toNat) :
    LinesTo c op stack (44 * n + 1) (goto op stack (.am .l8) s) (replay c n ei ep s) := by
  induction n generalizing ei ep s with
  | zero =>
    refine (LinesTo.ret (u := s.tick.setST (.ok none)) ?_).mono (by omega)
    have he : ei = ec := BitVec.eq_of_toNat_eq (by omega)
    have h1 : s.tick.wr.ei = some ei := by simpa using hei
    have h2 : s.tick.wr.ec = some ec := by simpa using hec
    simp only [lineAt, lineAm, goto_wr, h1, h2, readReg_some, andThen_next]
    rw [if_pos he]
    exact congrArg Host.Outcome.next (returnTo_goto op op _ stack stack (.am .l8) (s.tick.setST (.ok none)))
  | succ n ih =>
    have hm1 : s.tick.fw = some m := (Ran.refl s).tick.fw_present hm
    have hm2 : s.tick.tick.fw = some m := (Ran.refl s).tick.tick.fw_present hm
    have h8 : lineAt c op (.am .l8) stack (goto op stack (.am .l8) s.tick) =
        .next (goto op stack (.am .l9) s.tick) := by
      have h1 : s.tick.wr.ei = some ei := by simpa using hei
      have h2 : s.tick.wr.ec = some ec := by simpa using hec
      simp only [lineAt, lineAm, goto_wr, h1, h2, readReg_some, andThen_next]
      rw [if_neg (fun he => by rw [he] at hn; omega)]
      rfl
    have h9 : lineAt c op (.am .l9) stack (goto op stack (.am .l9) s.tick.tick) =
        andThen (fetchEntry (some m) ep.toNat) fun e =>
          .next (goto op stack (.am .l10) (s.tick.tick.setOperands e.1 e.2)) := by
      have h1 : s.tick.tick.wr.ep = some ep := by simpa using hep
      simp only [lineAt, lineAm, goto_wr, goto_fw, h1, hm2, readReg_some, andThen_next]
      rfl
    unfold replay
    rw [hm1]
    cases hf : fetchEntry (some m) ep.toNat with
    | fault f =>
      rw [hf] at h9
      exact ((LinesTo.fault h9).step h8).mono (by omega)
    | refused r => exact absurd hf (fetchEntry_ne_refused _ _ _)
    | next e =>
      obtain ⟨a, d⟩ := e
      rw [hf] at h9
      simp only [andThen_next] at h9 ⊢
      -- line AM.10 and `write`
      have hs2 : (s.tick.tick.setOperands a d).tick.wr.ra = some a ∧ (s.tick.tick.setOperands a d).tick.wr.rd = some d := by
        simp [State.setOperands]
      generalize hw2 : (s.tick.tick.setOperands a d).tick = s2 at hs2
      have hk2 : EntryKeeps s s2 := by
        rw [← hw2]
        have : EntryKeeps s (s.tick.tick.setOperands a d) := (EntryKeeps.refl s).tick.tick
        exact this.tick
      have hf2 : s2.fw = some m := by
        rw [← hw2]
        exact ((Ran.refl s).tick.tick.setOperands a d).tick.fw_present hm
      have h10 : lineAt c op (.am .l10) stack (goto op stack (.am .l10) s2) =
          .next (goto op (.am .l10 :: stack) (.dw .l0) s2) := by
        simp only [lineAt, lineAm, readOperands, goto_wr, hs2.1, hs2.2, readReg_some, andThen_next]
        rfl
      have hwr := write_lines c op (.am .l10 :: stack) a d s2 (by
        have h1 : s2.tick.wr.ra = some a := by simpa using hs2.1
        have h2 : s2.tick.wr.rd = some d := by simpa using hs2.2
        simp only [lineAt, lineDw, writeArgs, readOperands, goto_wr, h1, h2, readReg_some, andThen_next]
        rfl)
      have hkw := hk2.trans (write_entryKeeps c a d s2)
      obtain ⟨kk, evs, hran, -⟩ := write_trail c a d s2
      have hfw := hran.fw_present hf2
      have hre : replayEntry c ei ep a d s.tick =
          match write c a d s2 with
          | (.err x, s') => (.err x, s')
          | (.ok p, s') => (.ok p, s'.tick.setEntry (ei + 1#8) (ep + 5#17)) := by
        rw [← hw2]; rfl
      rw [hre]
      generalize write c a d s2 = p at hwr hkw hfw
      obtain ⟨r, w⟩ := p
      have h10' : ∀ {b : Nat} {x : Out (Result × State)},
          LinesTo c op stack b (goto op (.am .l10 :: stack) (.dw .l0) s2) x →
          LinesTo c op stack (b + 1) (goto op stack (.am .l10) (s.tick.tick.setOperands a d)) x := by
        intro b x hx
        refine LinesTo.step ?_ hx
        rw [hw2]; exact h10
      cases r with
      | err x =>
        have ht : returnTo op (.err x) w (.am .l10 :: stack) = returnTo op (.err x) w stack := rfl
        exact (((h10' (hwr.through ht)).step h9).step h8).mono (by omega)
      | ok x =>
        have h11 : lineAt c op (.am .l11) stack (goto op stack (.am .l11) w.tick) =
            .next (goto op stack (.am .l8) (w.tick.setEntry (ei + 1#8) (ep + 5#17))) := by
          have h1 : w.tick.wr.ei = some ei := by rw [State.tick_wr, hkw.2.1]; exact hei
          have h2 : w.tick.wr.ep = some ep := by rw [State.tick_wr, hkw.2.2]; exact hep
          simp only [lineAt, lineAm, advanceEntry, goto_wr, h1, h2, readReg_some, andThen_next]
          rfl
        have hei8 : (ei + 1#8).toNat = ei.toNat + 1 := by
          have : ec.toNat < 256 := ec.isLt
          rw [BitVec.toNat_add]; show (ei.toNat + 1) % 2 ^ 8 = _; omega
        have hrest := ih (ei + 1#8) (ep + 5#17) (w.tick.setEntry (ei + 1#8) (ep + 5#17))
          ((Ran.refl w).tick.fw_present hfw) (by
            show w.tick.wr.ec = some ec
            rw [State.tick_wr, hkw.1.2.2.2]; exact hec) rfl rfl (by omega)
        have hg : returnTo op (.ok x) w (.am .l10 :: stack) = goto op stack (.am .l11) w := rfl
        have hcall := hwr.call (hg ▸ hrest.step h11)
        exact (((h10' hcall).step h9).step h8).mono (by omega)

theorem checkAndReplay_lines (c : Cfg) (op : Instr) (stack : List Label) (m : Memory) (p : W16) (n : Byte) (s : State)
    (hm : s.fw = some m) (hpo : s.wr.po = some p) (hec : s.wr.ec = some n) :
    LinesTo c op stack (44 * 255 + 3) (goto op stack (.am .l6) s) (checkAndReplay c p n s) := by
  have hm1 : s.tick.fw = some m := (Ran.refl s).tick.fw_present hm
  have h1 : s.tick.wr.po = some p := by simpa using hpo
  have h2 : s.tick.wr.ec = some n := by simpa using hec
  have h1' : s.tick.tick.wr.po = some p := by simpa using hpo
  have h2' : s.tick.tick.wr.ec = some n := by simpa using hec
  have h6 : lineAt c op (.am .l6) stack (goto op stack (.am .l6) s.tick) =
      .next (if regionEnd p n > fwLen (some m) then retLine op stack (.err .outOfBounds) (goto op stack (.am .l6) s.tick)
        else goto op stack (.am .l7) s.tick) := by
    simp only [lineAt, lineAm, goto_wr, goto_fw, h1, h2, hm1, readReg_some, andThen_next]
    rfl
  unfold checkAndReplay
  rw [hm1]
  by_cases hb : regionEnd p n > fwLen (some m)
  · rw [if_pos hb] at h6 ⊢
    refine (LinesTo.ret (u := s.tick.setST (.err .outOfBounds)) ?_).mono (by omega)
    rw [h6]
    exact congrArg Host.Outcome.next (returnTo_goto op op _ stack stack (.am .l6) (s.tick.setST (.err .outOfBounds)))
  · rw [if_neg hb] at h6 ⊢
    have h7 : lineAt c op (.am .l7) stack (goto op stack (.am .l7) s.tick.tick) =
        .next (goto op stack (.am .l8) (s.tick.tick.setEntry 0#8 (p.setWidth 17))) := by
      simp only [lineAt, lineAm, goto_wr, h1', readReg_some, andThen_next]
      rfl
    have hn : n.toNat < 256 := n.isLt
    have hr := replay_lines c op stack m n.toNat 0#8 n (p.setWidth 17) (s.tick.tick.setEntry 0#8 (p.setWidth 17))
      ((Ran.refl s).tick.tick.fw_present hm) h2' rfl rfl (by simp)
    exact ((hr.step h7).step h6).mono (by omega)

/-- `apply_mode`, from behind line AM.0. -/
theorem applyMode_lines (c : Cfg) (op : Instr) (stack : List Label) (index : W32) (s : State)
    (h0 : lineAt c op (.am .l0) stack (goto op stack (.am .l0) s.tick) =
      .next (goto op stack (.am .l1) (s.tick.setMI index))) :
    LinesTo c op stack 11229 (goto op stack (.am .l0) s) (applyMode c index s) := by
  refine LinesTo.step (b := 11228) h0 ?_
  have hret : ∀ (l : Label) (r : Result) (u : State),
      retLine op stack r (goto op stack l u) = returnTo op r (u.setST r) stack := fun l r u =>
    returnTo_goto op op r stack stack l (u.setST r)
  unfold applyMode
  have hmi1 : (s.tick.setMI index).tick.wr.mi = some index := by rw [State.tick_wr]; rfl
  generalize hs1 : (s.tick.setMI index).tick = s1 at hmi1
  have h1 : lineAt c op (.am .l1) stack (goto op stack (.am .l1) s1) =
      match s1.fw with
      | none => .next (retLine op stack (.err .noFirmware) (goto op stack (.am .l1) s1))
      | some _ => .next (goto op stack (.am .l2) s1) := by
    simp only [lineAt, lineAm, goto_fw]
    cases s1.fw <;> rfl
  simp only
  cases hm : s1.fw with
  | none =>
    rw [hm] at h1
    refine (LinesTo.ret (u := s1.setST (.err .noFirmware)) ?_).mono (by omega)
    rw [hs1, h1, hret]
  | some m =>
    rw [hm] at h1
    simp only at h1 ⊢
    refine LinesTo.mono (b := 11227 + 1) (LinesTo.step (b := 11227) (t := goto op stack (.am .l2) s1) (by rw [hs1, h1]) ?_)
      (by omega)
    have hm1 : s1.tick.fw = some m := (Ran.refl s1).tick.fw_present hm
    have h2 : lineAt c op (.am .l2) stack (goto op stack (.am .l2) s1.tick) =
        andThen (fetchHdr (some m)) fun n => .next (goto op stack (.am .l3) (s1.tick.setMC n)) := by
      simp only [lineAt, lineAm, goto_fw, hm1]
      rfl
    unfold countAndReplay
    rw [hm1]
    cases hf : fetchHdr (some m) with
    | fault f => rw [hf] at h2; exact (LinesTo.fault h2).mono (by omega)
    | refused r => exact absurd hf (memRead_ne_refused _ _ _)
    | next n =>
      rw [hf] at h2
      simp only [andThen_next] at h2 ⊢
      refine LinesTo.step (b := 11226) h2 ?_
      have hmi3 : (s1.tick.setMC n).tick.wr.mi = some index := by rw [State.tick_wr]; simpa [State.setMC] using hmi1
      have hmc3 : (s1.tick.setMC n).tick.wr.mc = some n := by rw [State.tick_wr]; rfl
      have hm3 : (s1.tick.setMC n).tick.fw = some m := ((Ran.refl s1).tick.setMC n).tick.fw_present hm
      generalize hs3 : (s1.tick.setMC n).tick = s3 at hmi3 hmc3 hm3
      have h3 : lineAt c op (.am .l3) stack (goto op stack (.am .l3) s3) =
          .next (if index > zextCount n then retLine op stack (.err .invalidMode) (goto op stack (.am .l3) s3)
            else goto op stack (.am .l4) s3) := by
        simp only [lineAt, lineAm, goto_wr, hmi3, hmc3, readReg_some, andThen_next]
        rfl
      by_cases hv : index > zextCount n
      · rw [if_pos hv] at h3 ⊢
        refine (LinesTo.ret (u := s3.setST (.err .invalidMode)) ?_).mono (by omega)
        rw [hs3, h3, hret]
      · rw [if_neg hv] at h3 ⊢
        refine LinesTo.mono (b := 11225 + 1) (LinesTo.step (b := 11225) (t := goto op stack (.am .l4) s3) (by rw [hs3, h3]) ?_)
          (by omega)
        have hmi4 : s3.tick.wr.mi = some index := by rw [State.tick_wr]; exact hmi3
        have h4 : lineAt c op (.am .l4) stack (goto op stack (.am .l4) s3.tick) =
            .next (match descOff c index with
              | none => retLine op stack (.ok none) (goto op stack (.am .l4) s3.tick)
              | some _ => goto op stack (.am .l5) s3.tick) := by
          simp only [lineAt, lineAm, goto_wr, hmi4, readReg_some, andThen_next]
          cases descOff c index <;> rfl
        unfold lookUpAndReplay
        cases hd : descOff c index with
        | none =>
          rw [hd] at h4
          refine (LinesTo.ret (u := s3.tick.setST (.ok none)) ?_).mono (by omega)
          rw [h4, hret]
        | some d =>
          rw [hd] at h4
          simp only at h4 ⊢
          refine LinesTo.mono (b := 11224 + 1) (LinesTo.step (b := 11224) h4 ?_) (by omega)
          have hmi5 : s3.tick.tick.wr.mi = some index := by rw [State.tick_wr]; exact hmi4
          have hm5 : s3.tick.tick.fw = some m := (Ran.refl s3).tick.tick.fw_present hm3
          have h5 : lineAt c op (.am .l5) stack (goto op stack (.am .l5) s3.tick.tick) =
              andThen (fetchDesc (some m) d) fun p =>
                .next (goto op stack (.am .l6) (s3.tick.tick.setDesc p.1 p.2)) := by
            simp only [lineAt, lineAm, goto_wr, goto_fw, hmi5, hm5, readReg_some, andThen_next, hd]
            rfl
          rw [hm5]
          cases hf5 : fetchDesc (some m) d with
          | fault f => rw [hf5] at h5; exact (LinesTo.fault h5).mono (by omega)
          | refused r => exact absurd hf5 (fetchDesc_ne_refused _ _ _)
          | next p =>
            rw [hf5] at h5
            simp only [andThen_next] at h5 ⊢
            exact (LinesTo.step h5 (checkAndReplay_lines c op stack m p.1 p.2 _ hm5 rfl rfl)).mono (by omega)

/-! ## Procedures without a result -/

/-- `reset_pulse`: four lines, and the return. -/
theorem resetPulse_lines (c : Cfg) (op : Instr) (stack : List Label) (s : State) :
    LinesTo c op stack 4 (goto op stack (.rs .l0) s) (.next (.ok none, resetPulse c s)) := by
  have h : ∀ (l : Label) (u : State) a m v, (goto op stack l u).updateOrReport a m v =
      goto op stack l (u.updateOrReport a m v) := fun _ _ _ _ _ => rfl
  refine LinesTo.step (b := 3) (t := goto op stack (.rs .l1) (s.tick.updateOrReport c.rstReg c.rstMask c.rstAssert)) rfl ?_
  refine LinesTo.step (b := 2) (t := goto op stack (.rs .l2) ((State.tick _).emit (.dl c.tResetSettle))) rfl ?_
  refine LinesTo.step (b := 1) (t := goto op stack (.rs .l3)
    ((State.tick _).updateOrReport c.rstReg c.rstMask c.rstDeassert)) rfl ?_
  exact LinesTo.ret (congrArg Host.Outcome.next (returnTo_goto op op _ stack stack (.rs .l3) _))

theorem waitThen_st {k : State → Result × State} (s : State) (hk : ∀ t, (k t).2.wr.st = some (k t).1) :
    (waitThen c s k).2.wr.st = some (waitThen c s k).1 := by
  have hpoll : ∀ n s, (poll c n s).2.wr.st = some (poll c n s).1 := by
    intro n
    induction n with
    | zero => intro s; rfl
    | succ n ih =>
      intro s
      rw [poll_succ]
      split
      · rfl
      · split
        · exact ih _
        · rfl
  have h : (waitReady c s.tick).2.wr.st = some (waitReady c s.tick).1 := hpoll _ _
  unfold waitThen
  generalize waitReady c s.tick = p at h
  obtain ⟨r, u⟩ := p
  cases r with
  | ok x => exact hk u
  | err x => exact h

/-- `write` leaves its result in `ST` (10_state.md R37). -/
theorem write_st (c : Cfg) (a d : W16) (s : State) : (write c a d s).2.wr.st = some (write c a d s).1 := by
  have hw : ∀ (a : RegAddr) (v : W32) (k : State → Result × State) (s : State),
      (∀ t, (k t).2.wr.st = some (k t).1) → (writeThen a v s k).2.wr.st = some (writeThen a v s k).1 := by
    intro a v k s hk
    unfold writeThen
    split
    · rfl
    · exact hk _
  exact hw _ _ _ _ fun t => hw _ _ _ _ fun t => hw _ _ _ _ fun t => waitThen_st t fun t => rfl

/-- `pd_write`: at most 43 lines, and the return. -/
theorem pdWrite_lines (c : Cfg) (op : Instr) (stack : List Label) (s : State) :
    LinesTo c op stack 43 (goto op stack (.pw .l0) s) (.next (.ok none, pdWrite c s)) := by
  have h0 : lineAt c op (.pw .l0) stack (goto op stack (.pw .l0) s.tick) =
      .next (goto op (.pw .l0 :: stack) (.dw .l0) s.tick) := rfl
  have hw := write_lines c op (.pw .l0 :: stack) c.pdAddr c.pdValue s.tick rfl
  have hst := write_st c c.pdAddr c.pdValue s.tick
  unfold pdWrite
  generalize write c c.pdAddr c.pdValue s.tick = p at hw hst
  obtain ⟨r, u⟩ := p
  have hg : returnTo op r u (.pw .l0 :: stack) = goto op stack (.pw .l1) u := rfl
  have h1 : lineAt c op (.pw .l1) stack (goto op stack (.pw .l1) u.tick) =
      .next (goto op stack (.pw .l2) (u.tick.reportIf r)) := by
    have : u.tick.wr.st = some r := by rw [State.tick_wr]; exact hst
    simp only [lineAt, linePw, goto_wr, this, readReg_some, andThen_next]
    rfl
  have h2 : LinesTo c op stack 1 (goto op stack (.pw .l2) (u.tick.reportIf r))
      (.next (.ok none, (u.tick.reportIf r).tick)) :=
    LinesTo.ret (congrArg Host.Outcome.next (returnTo_goto op op _ stack stack (.pw .l2) _))
  have h3 := hw.call (hg ▸ h2.step h1)
  exact (h3.step h0).mono (by omega)

end Sys2Proof.Machine
end

