-- ==== Sys2Proof/Tests/Slice0.lean ====
section
/-! SUPPORT. Tests of single steps. Expected results are those of spec/95_test_vectors.md and of the
encoding tables of spec/30_encoding.md, not the model's own answers. -/

namespace Sys2Proof.Tests

open Sys2Proof Sys2Proof.Machine

/-! ## A configuration with distinct tokens, devices and small states -/

/-- Parameters for tests only; mode 0 has no descriptor unless `mode0` says so. -/
def cfgWith (mode0 : Option Nat) : Cfg where
  regAddr := ⟨1⟩
  regData := ⟨2⟩
  regCmd := ⟨3⟩
  regStatus := ⟨4⟩
  regDout := ⟨5⟩
  busyBit := 3
  cwMw := 0x00A1#16
  cwMr := 0x00A2#16
  cwRr := 0x00A3#16
  pdAddr := 0x0F0F#16
  pdValue := 0x00D0#16
  rstReg := ⟨6⟩
  rstMask := 0x10#32
  rstAssert := 0x10#32
  rstDeassert := 0x00#32
  pwrReg := ⟨7⟩
  pwrMask := 0x20#32
  pwrOn := 0x20#32
  pwrOff := 0x00#32
  tResetSettle := ⟨1⟩
  tProbeSettle := ⟨2⟩
  fwName := ⟨1⟩
  mode0DescOff := mode0

def tc : Cfg := cfgWith none

/-- A status answer with only the busy bit set, one with every other bit set, and a failure. -/
def b : Answer := .ok 0x00000008#32
def i : Answer := .ok 0xFFFFFFF7#32
def k : Answer := .ok 0#32
def e7 : IoErr := ⟨7⟩
def f : Answer := .err e7

/-- The reset state with these answers to come. -/
def at0 (script : List Answer) : State := { State.reset with script := script }

/-- IMG_A of 95_test_vectors.md. -/
def imgA : List Byte :=
  [0x02, 0x00, 0x00, 0x08, 0x02, 0x00, 0x12, 0x01, 0x22, 0xF8, 0x80, 0x05, 0x00, 0x22, 0xF9, 0x00, 0x01,
   0xFF, 0x23, 0x01, 0x00, 0x02, 0x00]

/-- The reset state with an image, a selection and answers to come. -/
def withImg (bytes : List Byte) (sel : W32) (script : List Answer) : State :=
  { at0 script with fw := some (Memory.load bytes), modeSel := sel }

/-- Events in the notation of 30_encoding.md R113. -/
def S (a : Answer) : Event := .tr ⟨4⟩ a
def A (x : W32) : Event := .tw ⟨1⟩ x none
def D (x : W32) : Event := .tw ⟨2⟩ x none
def C (x : W32) : Event := .tw ⟨3⟩ x none
def O (v : W32) : Event := .tr ⟨5⟩ (.ok v)
def rstOn (g : Option IoErr) : Event := .tu ⟨6⟩ 0x10#32 0x10#32 g
def rstOff (g : Option IoErr) : Event := .tu ⟨6⟩ 0x10#32 0x00#32 g
def pwrOn (g : Option IoErr) : Event := .tu ⟨7⟩ 0x20#32 0x20#32 g
def pwrOff (g : Option IoErr) : Event := .tu ⟨7⟩ 0x20#32 0x00#32 g

/-- The trace and the response of a next state. -/
def seen (x : Out State) : Option (List Event × Option Response) :=
  match x with
  | .next t => some (t.trace, t.resp)
  | .fault _ => none
  | .refused _ => none

/-- The fault, if the step faulted. -/
def faultOf (x : Out State) : Option Fault :=
  match x with
  | .next _ => none
  | .fault g => some g
  | .refused _ => none

/-- The refusal, if the step was refused. -/
def refusalOf (x : Out State) : Option Refusal :=
  match x with
  | .next _ => none
  | .fault _ => none
  | .refused r => some r

/-! ## Decoding: words written out from 30_encoding.md R93, R95, R98, R99 -/

theorem test_decode_waitReady : decodeTableWord 64 0x1000000000000000 = some .waitReady := by decide

/-- T-ENC1. -/
theorem test_decode_dspWrite :
    decodeTableWord 64 0x20000001000022F9 = some (.dspWrite 0x22F9#16 0x0001#16) := by decide

/-- T-ENC2. -/
theorem test_decode_dspRead : decodeTableWord 64 0x30000000000022F9 = some (.dspRead 0x22F9#16) := by decide

/-- T-ENC3. -/
theorem test_decode_applyMode :
    decodeTableWord 64 0x40000000FFFFFFFF = some (.applyMode 0xFFFFFFFF#32) := by decide

theorem test_decode_modeGet : decodeTableWord 64 0x5000000000000000 = some .modeGet := by decide

/-- T-MS3. -/
theorem test_decode_modeSet : decodeTableWord 64 0x6000000000000004 = some (.modeSet 4#32) := by decide

theorem test_decode_evPowerUp : decodeTableWord 64 0x7000000000000000 = some .evPowerUp := by decide

theorem test_decode_evPowerDown : decodeTableWord 64 0x8000000000000000 = some .evPowerDown := by decide

theorem test_decode_evProbe : decodeTableWord 64 0x9000000000000000 = some .evProbe := by decide

/-- T-WR2: bytes `01 02 03 04 05`. -/
theorem test_decode_wr : decodeTableWord 40 0x0102030405 = some (.wr 0x0102#16 0x0304#16 0x05#8) := by decide

/-- T-DS2: descriptor `01 00 02`. -/
theorem test_decode_desc : decodeTableWord 24 0x010002 = some (.desc 256#16 2#8) := by decide

theorem test_decode_hdr : decodeTableWord 8 0x02 = some (.hdr 2#8) := by decide

theorem test_decode_commands :
    decode tc (.command 0x00A1#16) = .instr .cwMw ∧ decode tc (.command 0x00A2#16) = .instr .cwMr ∧
      decode tc (.command 0x00A3#16) = .instr .cwRr ∧
      decode tc (.command 0x00A4#16) = .reject .unknownCommandWord := by decide

/-- T-ENC4 to T-ENC9. -/
theorem test_decode_rejects :
    decodeRequest 0x20000001000122F9#64 = .reject .operandNonzero ∧
      decodeRequest 0x20010001000022F9#64 = .reject .reservedNonzero ∧
      decodeRequest 0x30000001000022F9#64 = .reject .operandNonzero ∧
      decodeRequest 0x1000000000000001#64 = .reject .operandNonzero ∧
      decodeRequest 0x0000000000000000#64 = .reject .unassignedOp ∧
      decodeRequest 0xA000000000000000#64 = .reject .unassignedOp ∧
      decodeRequest 0xF000000000000000#64 = .reject .unassignedOp ∧
      decodeRequest 0x4000000100000001#64 = .reject .operandNonzero := by decide

/-! ## Well-formedness -/

theorem test_wf_command_words_apart : Instr.wellFormed tc .cwMr = true ∧ Instr.wellFormed tc .cwRr = true := by
  decide

/-- Ill-formed terms: a command word that shares an earlier one's value. -/
theorem test_illformed_command_words :
    Instr.wellFormed { tc with cwMr := tc.cwMw } .cwMr = false ∧
      Instr.wellFormed { tc with cwRr := tc.cwMw } .cwRr = false ∧
      Instr.wellFormed { tc with cwRr := tc.cwMr } .cwRr = false := by decide

/-- 30_encoding.md R115: for each check, an image that it refuses (T-AM14, T-AM5, T-AM17, T-AM12). -/
theorem test_illformed_images :
    hasCount (Memory.load []) = false ∧ modeValid (Memory.load imgA) 3#32 = false ∧
      hasDesc tc (Memory.load [0x01, 0x00, 0x00, 0x05]) 1#32 = false ∧
      inBounds tc (Memory.load [0x01, 0x00, 0x00, 0x06, 0x00]) 1#32 = false := by decide

/-- A memory that is not in the canonical form is refused. -/
theorem test_illformed_memory : Memory.wf [(0, 1#8), (2, 2#8)] = false ∧ Memory.wf [(1, 1#8)] = false := by
  decide

/-! ## The engine -/

/-- T-WT3: idle on the 11th read. -/
theorem test_waitReady_idle_on_11th :
    seen (opWaitReady tc (at0 [b, b, b, b, b, b, b, b, b, b, i])) =
      some ([S b, S b, S b, S b, S b, S b, S b, S b, S b, S b, S i], some respOk) := by decide

/-- T-WT4: the 12th answer is never asked for. -/
theorem test_waitReady_busy :
    seen (opWaitReady tc (at0 [b, b, b, b, b, b, b, b, b, b, b, i])) =
      some ([S b, S b, S b, S b, S b, S b, S b, S b, S b, S b, S b], some respBusy) := by decide

/-- T-DW8: the transport values are zero-extended. -/
theorem test_dspWrite_ideal :
    seen (opDspWrite tc 0xFFFF#16 0xFFFF#16 (at0 [k, k, k, i])) =
      some ([A 0x0000FFFF#32, D 0x0000FFFF#32, C 0xA1#32, S i], some respOk) := by decide

/-- T-DW4: the second call fails. -/
theorem test_dspWrite_data_fails :
    seen (opDspWrite tc 0x22F9#16 0x0001#16 (at0 [k, f])) =
      some ([A 0x22F9#32, .tw ⟨2⟩ 1#32 (some e7)], some (respIo e7)) := by decide

/-- T-DR2: all 32 bits are returned. -/
theorem test_dspRead_ideal :
    seen (opDspRead tc 0x22F9#16 (at0 [i, k, k, i, k, k, i, k, k, i, .ok 0xDEADBEEF#32])) =
      some ([S i, A 0x22F9#32, C 0xA2#32, S i, A 0x26#32, C 0xA3#32, S i, A 0x25#32, C 0xA3#32, S i,
        O 0xDEADBEEF#32], some (respVal 0xDEADBEEF#32)) := by decide

/-- T-DR4: busy at the second `wait_ready`. -/
theorem test_dspRead_busy_at_second :
    seen (opDspRead tc 0x22F9#16 (at0 [i, k, k, b, b, b, b, b, b, b, b, b, b, b])) =
      some ([S i, A 0x22F9#32, C 0xA2#32, S b, S b, S b, S b, S b, S b, S b, S b, S b, S b, S b],
        some respBusy) := by decide

/-! ## The loader and the replay -/

/-- T-FD1. -/
theorem test_fwDeliver_first :
    (match execFwDeliver imgA State.reset with
      | .next t => decide (fwLen t.fw = 23 ∧ t.trace = [] ∧ t.modeSel = 0#32)
      | _ => false) = true := by decide

/-- T-FD3. -/
theorem test_fwDeliver_second : refusalOf (execFwDeliver [0x00] (withImg imgA 0#32 [])) = some .secondDelivery := by
  decide

/-- T-AM9: busy at the second entry. -/
theorem test_applyMode_busy :
    seen (opApplyMode tc 1#32 (withImg imgA 0#32 [k, k, k, i, k, k, k, b, b, b, b, b, b, b, b, b, b, b])) =
      some ([A 0x22F8#32, D 0x8005#32, C 0xA1#32, S i, A 0x22F9#32, D 0x0001#32, C 0xA1#32, S b, S b, S b,
        S b, S b, S b, S b, S b, S b, S b, S b], some respBusy) := by decide

/-- T-AM4: `MODE0_DESC_OFF = some(2)` makes mode 0 the mode whose descriptor stands at 2. -/
theorem test_applyMode_mode0_descriptor :
    seen (opApplyMode (cfgWith (some 2)) 0#32 (withImg imgA 0#32 [k, k, k, i, k, k, k, i])) =
      some ([A 0x22F8#32, D 0x8005#32, C 0xA1#32, S i, A 0x22F9#32, D 0x0001#32, C 0xA1#32, S i],
        some respOk) := by decide

/-- T-AM3, T-AM6, T-AM12, T-RST2: no event. -/
theorem test_applyMode_without_events :
    seen (opApplyMode tc 0#32 (withImg imgA 0#32 [])) = some ([], some respOk) ∧
      seen (opApplyMode tc 256#32 (withImg imgA 0#32 [])) = some ([], some respInvalidMode) ∧
      seen (opApplyMode tc 1#32 (withImg [0x01, 0x00, 0x00, 0x06, 0x00] 0#32 [])) =
        some ([], some respOutOfBounds) ∧
      seen (opApplyMode tc 0#32 State.reset) = some ([], some respNoFirmware) := by decide

/-- T-AM14, T-AM15, T-AM17. -/
theorem test_applyMode_faults :
    faultOf (opApplyMode tc 0#32 (withImg [] 0#32 [])) = some (.imgFetch 0) ∧
      faultOf (opApplyMode tc 3#32 (withImg [0x05] 0#32 [])) = some (.imgFetch 8) ∧
      faultOf (opApplyMode tc 1#32 (withImg [0x01, 0x00, 0x00, 0x05] 0#32 [])) = some (.imgFetch 4) := by decide

/-- A replay of the image's first entry, standing at line AM.9. -/
def atEntry (script : List Answer) : State :=
  placeWords tc (at0 script) (.entry 0x22F900017F#40)

/-- R167's example: the entry's events, then `EI` and `EP` advance. -/
theorem test_wr_advances :
    (match opWr tc 0x22F9#16 0x0001#16 (atEntry [k, k, k, i]) with
      | .next t => decide (t.trace = [A 0x22F9#32, D 0x0001#32, C 0xA1#32, S i] ∧ t.wr.ei = some 1#8 ∧
          t.wr.ep = some 5#17 ∧ t.seq = .running (.applyMode 1#32) (.am .l8) [])
      | _ => false) = true := by decide

/-- R165: a write that fails ends the replay before AM.11, the one line of an entry that reads `EI`. -/
theorem test_wr_failed_reads_no_ei :
    (match opWr tc 0x22F9#16 0x0001#16 { atEntry [f] with wr := { WorkRegs.empty with ep := some 0#17 } } with
      | .next t => decide (t.seq = .idle ∧ t.resp = some (respIo e7))
      | _ => false) = true := by decide

/-- R167(a): an entry cannot be issued by the host alone. -/
theorem test_wr_outside_replay : refusalOf (execWr 0#16 0#16 0#8 State.reset) = some .notAtItsLine := by decide

theorem test_desc_taken :
    (match execDesc 0x0012#16 1#8 (placeWords tc State.reset (.desc 0x001201#24)) with
      | .next t => decide (t.wr.po = some 18#16 ∧ t.wr.ec = some 1#8)
      | _ => false) = true := by decide

theorem test_hdr_taken :
    (match execHdr 2#8 (placeWords tc State.reset (.hdr 2#8)) with
      | .next t => decide (t.wr.mc = some 2#8)
      | _ => false) = true := by decide

/-! ## Command words -/

/-- `C(MW)` at DW.3, `C(MR)` at DR.3, `C(RR)` at DR.6. -/
theorem test_command_words_written :
    seen (seqStep tc (placeWords tc (at0 [k]) (.command 0x00A1#16))) = some ([C 0xA1#32], none) ∧
      seen (seqStep tc (placeWords tc (at0 [k]) (.command 0x00A2#16))) = some ([C 0xA2#32], none) ∧
      seen (seqStep tc (placeWords tc (at0 [k]) (.command 0x00A3#16))) = some ([C 0xA3#32], none) := by decide

/-! ## Mode state and host events -/

/-- T-MS4, T-MS5. -/
theorem test_modeSet_stores :
    (match execModeSet 0xFFFFFFFF#32 { State.reset with modeSel := 4#32 } with
      | .next t => decide (t.modeSel = 0xFFFFFFFF#32 ∧ t.trace = [] ∧ t.resp = some respOk)
      | _ => false) = true := by decide

theorem test_modeGet_returns :
    seen (execModeGet { State.reset with modeSel := 0xFFFFFFFF#32 }) =
      some ([], some (respVal 0xFFFFFFFF#32)) := by decide

/-- T-EV3: the second call fails. -/
theorem test_evPowerDown_reports :
    seen (opPowerDown tc (at0 [k, f])) =
      some ([A 0x0F0F#32, .tw ⟨2⟩ 0xD0#32 (some e7), .rp (.io e7)], some respOk) := by decide

/-- T-EV8: the first call fails, the rest is ideal. -/
theorem test_evPowerUp_goes_on :
    seen (opPowerUp tc (withImg imgA 1#32 [f, k, k, k, k, i, k, k, k, i])) =
      some ([rstOn (some e7), .rp (.io e7), .dl ⟨1⟩, rstOff none, A 0x22F8#32, D 0x8005#32, C 0xA1#32, S i,
        A 0x22F9#32, D 0x0001#32, C 0xA1#32, S i], some respOk) := by decide

/-- V11: no firmware. -/
theorem test_evPowerUp_no_firmware :
    seen (opPowerUp tc (at0 [k, k])) =
      some ([rstOn none, .dl ⟨1⟩, rstOff none, .rp .noFirmware], some respOk) := by decide

/-- T-EV9: the probe after reset. -/
theorem test_evProbe_after_reset :
    seen (opProbe tc (at0 [k, k, k, k, k, k, i, k])) =
      some ([pwrOn none, rstOn none, .dl ⟨1⟩, rstOff none, .dl ⟨2⟩, A 0x0F0F#32, D 0xD0#32, C 0xA1#32, S i,
        pwrOff none, .fq ⟨1⟩], some respOk) := by decide

/-- T-EV11: the `Busy` of `apply_mode(0)` is not reported. -/
theorem test_evProbe_drops_result :
    seen (opProbe (cfgWith (some 2)) (withImg imgA 0#32
        [k, k, k, k, k, k, b, b, b, b, b, b, b, b, b, b, b, k, k, k, i, k])) =
      some ([pwrOn none, rstOn none, .dl ⟨1⟩, rstOff none, A 0x22F8#32, D 0x8005#32, C 0xA1#32, S b, S b,
        S b, S b, S b, S b, S b, S b, S b, S b, S b, .dl ⟨2⟩, A 0x0F0F#32, D 0xD0#32, C 0xA1#32, S i,
        pwrOff none, .fq ⟨1⟩], some respOk) := by decide

/-- T-EV12 and T-EV13: a delivery in the middle of a power-up, in front of line AM.1 and behind it. -/
theorem test_delivery_in_mid_operation :
    seen (opPowerUp tc { at0 [k, k, k, k, k, i, k, k, k, i] with modeSel := 1#32, fwl := some ⟨5, imgA⟩ }) =
        some ([rstOn none, .dl ⟨1⟩, rstOff none, A 0x22F8#32, D 0x8005#32, C 0xA1#32, S i, A 0x22F9#32,
          D 0x0001#32, C 0xA1#32, S i], some respOk) ∧
      seen (opPowerUp tc { at0 [k, k] with modeSel := 1#32, fwl := some ⟨8, imgA⟩ }) =
        some ([rstOn none, .dl ⟨1⟩, rstOff none, .rp .noFirmware], some respOk) := by decide

/-! ## Steps -/

/-- 60_exceptions.md R232. -/
theorem test_step_refusals :
    refusalOf (step { State.reset with requests := [0xA000000000000000#64] }) =
        some (.malformedRequest 0xA000000000000000#64) ∧
      refusalOf (execModeGet { State.reset with seq := .running .modeGet .mg [] }) =
        some .requestWhileRunning := by decide

/-- 60_exceptions.md R232: a second delivery that is due in the middle of an operation is refused at once, and
one that is to come makes an operation go line by line. -/
theorem test_step_second_delivery :
    refusalOf (step { withImg imgA 0#32 [b] with
        fwl := some ⟨0, [0x00#8]⟩, seq := .running .waitReady (.wt .l1) [] }) = some .secondDelivery ∧
      (match step { withImg imgA 0#32 [] with
          fwl := some ⟨1, [0x00#8]⟩, requests := [0x1000000000000000#64] } with
        | .next t => decide (t.seq = .running .waitReady (.wt .l0) [] ∧ t.fwl = some ⟨1, [0x00#8]⟩)
        | _ => false) = true := by decide

/-- T-RST1: `MODE_GET` as the first request. -/
theorem test_step_first_request :
    seen (step (State.reset.withFetchWord 64 0x5000000000000000)) = some ([], some (respVal 0#32)) := by decide

/-! ## Witnesses: for each statement with hypotheses, inputs that meet them together, clause by clause -/

/-- A status answer that is busy and one that is idle, whatever the busy bit. -/
def bz : Answer := .ok (BitVec.allOnes 32)
def ready : Answer := .ok 0#32

theorem all_bz (n : Nat) : ∀ a ∈ List.replicate n bz, isBusy Config.cfg a = true := by
  intro a ha
  rw [(List.mem_replicate.mp ha).2]
  exact busy_allOnes _

theorem zero_idle : busy Config.cfg 0#32 = false := busy_zero _

/-- A state with these answers gives them. -/
theorem answers_at (s : State) (l : List Answer) (h : s.script = l) : s.willAnswer l :=
  s.willAnswer_of_script l [] (by simpa using h)

theorem answers_at0 (l : List Answer) : (at0 l).willAnswer l := answers_at _ _ rfl

/-- A host operation that only answers, from a state with this image and these answers. -/
def held (bytes : List Byte) (q : List Q64) : State := { withImg bytes 0#32 [] with requests := q }

/-- One well-formed instruction of every format, with its words. -/
theorem witness_DecodeOfEncodeIsTheInstruction :
    (Instr.wellFormed tc (.dspWrite 0x22F9#16 1#16) = true ∧
        encode tc (.dspWrite 0x22F9#16 1#16) = some (.request 0x20000001000022F9#64)) ∧
      (Instr.wellFormed tc (.wr 0x0102#16 0x0304#16 5#8) = true ∧
        encode tc (.wr 0x0102#16 0x0304#16 5#8) = some (.entry 0x0102030405#40)) ∧
      (Instr.wellFormed tc (.desc 256#16 2#8) = true ∧
        encode tc (.desc 256#16 2#8) = some (.desc 0x010002#24)) ∧
      (Instr.wellFormed tc (.hdr 2#8) = true ∧ encode tc (.hdr 2#8) = some (.hdr 2#8)) ∧
      Instr.wellFormed tc .cwRr = true ∧ encode tc .cwRr = some (.command 0x00A3#16) := by decide

/-- One word for each clause. -/
theorem witness_ReservedRequestsAreRefused :
    (∀ q : Q64, (held [] [q]).seq = .idle ∧ (held [] [q]).dueDelivery = none ∧
        (held [] [q]).requests = q :: []) ∧
      (0x0000000000000000#64).extractLsb' 60 4 = 0#4 ∧
      10 ≤ ((0xA000000000000000#64).extractLsb' 60 4).toNat ∧
      (0x2001000000000000#64).extractLsb' 48 12 ≠ 0#12 ∧
      (((0x9000000100000000#64).extractLsb' 60 4).toNat ∈ [1, 5, 7, 8, 9] ∧
        (0x9000000100000000#64).extractLsb' 32 16 ≠ 0#16) ∧
      (((0x1000000000000001#64).extractLsb' 60 4).toNat ∈ [1, 5, 7, 8, 9] ∧
        (0x1000000000000001#64).extractLsb' 0 32 ≠ 0#32) ∧
      (((0x2000000000010000#64).extractLsb' 60 4).toNat = 2 ∧
        (0x2000000000010000#64).extractLsb' 16 16 ≠ 0#16) ∧
      (((0x3000000100000000#64).extractLsb' 60 4).toNat = 3 ∧
        (0x3000000100000000#64).extractLsb' 32 16 ≠ 0#16) ∧
      (((0x6000000100000000#64).extractLsb' 60 4).toNat ∈ [4, 6] ∧
        (0x6000000100000000#64).extractLsb' 32 16 ≠ 0#16) :=
  ⟨fun _ => ⟨rfl, rfl, rfl⟩, by decide⟩

/-- At both grains, and with a second delivery to come. -/
theorem witness_StepRunsTheRequestedOperation :
    decodeRequest 0x5000000000000000#64 = .instr .modeGet ∧
      (∀ g : Grain, ∃ s : State, s.seq = .idle ∧ s.dueDelivery = none ∧ s.grain = g ∧ s.fwl = none ∧
        s.requests = 0x5000000000000000#64 :: []) ∧
      ∃ s : State, s.seq = .idle ∧ s.dueDelivery = none ∧ s.fw ≠ none ∧ s.fwl ≠ none ∧
        s.requests = 0x5000000000000000#64 :: [] :=
  ⟨by decide, fun g => ⟨{ held [] [0x5000000000000000#64] with grain := g }, rfl, rfl, rfl, rfl, rfl⟩,
    ⟨{ held [] [0x5000000000000000#64] with fwl := some ⟨1, imgA⟩ }, rfl, rfl, by decide, by decide, rfl⟩⟩

/-- A delivery that is due; with no delivery to come, an item that is fetched, one that is not there and a line
without an item; the line grain; a second delivery to come. -/
theorem witness_StepRunsTheFetchedItemOrTheLine :
    (∃ s : State, s.seq = .running .modeGet .mg [] ∧ s.dueDelivery = some imgA) ∧
      (∃ s : State, s.seq = .running (.applyMode 1#32) (.am .l2) [] ∧ s.dueDelivery = none ∧
        s.grain = .operation ∧ fetchItem Config.cfg s = some (.next (.hdr 2#8))) ∧
      (∃ s : State, s.seq = .running (.applyMode 1#32) (.am .l2) [] ∧ s.dueDelivery = none ∧
        s.grain = .operation ∧ fetchItem Config.cfg s = some (.fault (.imgFetch 0))) ∧
      (∃ s : State, s.seq = .running .modeGet .mg [] ∧ s.dueDelivery = none ∧ s.grain = .operation ∧
        fetchItem Config.cfg s = none) ∧
      (∃ s : State, s.seq = .running .modeGet .mg [] ∧ s.dueDelivery = none ∧ s.grain = .line) ∧
      ∃ s : State, s.seq = .running .modeGet .mg [] ∧ s.dueDelivery = none ∧ s.fw ≠ none ∧ s.fwl ≠ none :=
  ⟨⟨{ State.reset with seq := .running .modeGet .mg [], fwl := some ⟨0, imgA⟩ }, rfl, rfl⟩,
    ⟨placeWords Config.cfg State.reset (.hdr 2#8), rfl, rfl, rfl, rfl⟩,
    ⟨{ State.reset with seq := .running (.applyMode 1#32) (.am .l2) [] }, rfl, rfl, rfl, rfl⟩,
    ⟨{ State.reset with seq := .running .modeGet .mg [] }, rfl, rfl, rfl, rfl⟩,
    ⟨{ State.reset with seq := .running .modeGet .mg [], grain := .line }, rfl, rfl, rfl⟩,
    ⟨{ held imgA [] with seq := .running .modeGet .mg [], fwl := some ⟨1, imgA⟩ }, rfl, rfl, by decide, by decide⟩⟩

/-- A request, an item and a command word. -/
theorem witness_PlacedWordsRunNext :
    (encode Config.cfg .modeGet = some (.request 0x5000000000000000#64) ∧
        Instr.wellFormed Config.cfg .modeGet = true) ∧
      (encode Config.cfg (.hdr 2#8) = some (.hdr 2#8) ∧ Instr.wellFormed Config.cfg (.hdr 2#8) = true) ∧
      encode Config.cfg .cwMw = some (.command Config.cfg.cwMw) ∧
      Instr.wellFormed Config.cfg .cwMw = true :=
  ⟨⟨rfl, rfl⟩, ⟨rfl, rfl⟩, rfl, rfl⟩

/-- Ten busy reads and an idle one; ten and a failed one; eleven. -/
theorem witness_WaitReadyPollsUntilIdleAtMostElevenTimes :
    (at0 []).seq = .idle ∧ (List.replicate 10 bz).length ≤ 10 ∧ (List.replicate 11 bz).length = 11 ∧
      (∀ n, ∀ a ∈ List.replicate n bz, isBusy Config.cfg a = true) ∧ busy Config.cfg 0#32 = false ∧
      (∃ s : State, s.seq = .idle ∧ s.willAnswer (List.replicate 10 bz ++ [Answer.ok 0#32])) ∧
      (∃ s : State, s.seq = .idle ∧ s.willAnswer (List.replicate 10 bz ++ [Answer.err e7])) ∧
      ∃ s : State, s.seq = .idle ∧ s.willAnswer (List.replicate 11 bz) :=
  ⟨rfl, by decide, by decide, all_bz, zero_idle, ⟨_, rfl, answers_at0 _⟩, ⟨_, rfl, answers_at0 _⟩,
    ⟨_, rfl, answers_at0 _⟩⟩

/-- An idle sequencer is all that `WaitReadyLaws`, `EngineOperationsAlwaysComplete`, `ModeGetReturnsTheSelection`,
`ModeSetStoresAnyValueWithoutTraffic` and `PowerDownWritesTheParameterAndReports` assume. -/
theorem witness_idle :
    State.reset.seq = .idle ∧ (withImg imgA 1#32 [b, f]).seq = .idle := ⟨rfl, rfl⟩

/-- Idle sequencers behind whose pulse the mode's application answers, and faults. -/
theorem witness_PowerUpAppliesTheSelectedMode :
    (∃ u, exec (.applyMode (at0 [k, k]).modeSel) (resetPulse Config.cfg (at0 [k, k]).tick).tick = .next u) ∧
      exec (.applyMode (withImg [] 1#32 [k, k]).modeSel) (resetPulse Config.cfg (withImg [] 1#32 [k, k]).tick).tick =
        .fault (.imgFetch 0) :=
  ⟨⟨_, rfl⟩, rfl⟩

/-- The same for the probe, behind the power-domain bit. -/
theorem witness_ProbeRunsItsSequenceAndDropsTheResult :
    (∃ u, exec (.applyMode 0#32) (resetPulse Config.cfg ((at0 [f, k, k]).tick.updateOrReport Config.cfg.pwrReg
        Config.cfg.pwrMask Config.cfg.pwrOn).tick).tick = .next u) ∧
      exec (.applyMode 0#32) (resetPulse Config.cfg ((withImg [] 0#32 [k, k, k]).tick.updateOrReport
        Config.cfg.pwrReg Config.cfg.pwrMask Config.cfg.pwrOn).tick).tick = .fault (.imgFetch 0) :=
  ⟨⟨_, rfl⟩, rfl⟩

/-- Each row of the table, with no, ten and eleven busy reads. -/
theorem witness_DspWriteFollowsItsAbortTable :
    ∀ l ∈ [[f], [k, f], [k, k, f], [k, k, k] ++ List.replicate 10 bz ++ [Answer.err e7],
        [k, k, k] ++ List.replicate 11 bz, [k, k, k] ++ List.replicate 10 bz ++ [Answer.ok 0#32],
        [k, k, k] ++ [] ++ [Answer.ok 0#32]],
      (at0 l).seq = .idle ∧ (at0 l).willAnswer l ∧ (∀ n, ∀ r ∈ List.replicate n bz, isBusy Config.cfg r = true) ∧
        busy Config.cfg 0#32 = false :=
  fun l _ => ⟨rfl, answers_at0 l, all_bz, zero_idle⟩

/-- Ten busy reads in one wait, none in the others. -/
theorem witness_DspReadRunsItsFourPhasesAndReturnsTheRawValue :
    ∃ s : State, s.seq = .idle ∧
      (∀ l ∈ [List.replicate 10 bz, [], [], []], l.length ≤ 10 ∧ ∀ a ∈ l, isBusy Config.cfg a = true) ∧
      (∀ w ∈ [0#32, 0#32, 0#32, 0#32], busy Config.cfg w = false) ∧
      s.willAnswer ((List.replicate 10 bz ++ [Answer.ok 0#32]) ++ [k, k] ++ ([] ++ [Answer.ok 0#32]) ++ [k, k] ++
        ([] ++ [Answer.ok 0#32]) ++ [k, k] ++ ([] ++ [Answer.ok 0#32]) ++ [Answer.ok 0xDEADBEEF#32]) := by
  refine ⟨_, rfl, ?_, ?_, answers_at0 _⟩
  · intro l hl
    simp only [List.mem_cons, List.not_mem_nil, or_false] at hl
    rcases hl with rfl | rfl | rfl | rfl
    · exact ⟨by decide, all_bz 10⟩
    all_goals exact ⟨by decide, by simp⟩
  · intro w hw
    simp only [List.mem_cons, List.not_mem_nil, or_false, or_self] at hw
    rw [hw]; exact zero_idle

/-- Busy at each of the four waits. -/
theorem witness_DspReadAbortsAtTheBusyWait :
    (List.replicate 11 bz).length = 11 ∧ (∀ a ∈ List.replicate 11 bz, isBusy Config.cfg a = true) ∧
      (∀ w ∈ [0#32, 0#32, 0#32], busy Config.cfg w = false) ∧
      ∀ before ∈ [[], [ready, k, k], [ready, k, k, ready, k, k], [ready, k, k, ready, k, k, ready, k, k]],
        (at0 (before ++ List.replicate 11 bz)).seq = .idle ∧
        (at0 (before ++ List.replicate 11 bz)).willAnswer (before ++ List.replicate 11 bz) := by
  refine ⟨by decide, all_bz 11, ?_, fun before _ => ⟨rfl, answers_at0 _⟩⟩
  intro w hw
  simp only [List.mem_cons, List.not_mem_nil, or_false, or_self] at hw
  rw [hw]; exact zero_idle

/-- Each kind of operation of the statement answers a next state, one of them with a failed call. -/
theorem witness_AFailedCallIsTheLastEventAndTheResponse :
    (∃ t, exec .waitReady (at0 [f]) = .next t ∧ t.resp = some (respIo e7)) ∧
      (∃ t, exec (.dspWrite 1#16 2#16) (at0 [k, f]) = .next t ∧ t.resp = some (respIo e7)) ∧
      (∃ t, exec (.dspRead 1#16) (at0 [f]) = .next t ∧ t.resp = some (respIo e7)) ∧
      ∃ t, exec (.applyMode 1#32) (withImg imgA 0#32 [k, f]) = .next t ∧ t.resp = some (respIo e7) :=
  ⟨⟨_, rfl, rfl⟩, ⟨_, rfl, rfl⟩, ⟨_, rfl, rfl⟩, ⟨_, rfl, rfl⟩⟩

/-- A host operation that answers a next state, with and without an image. -/
theorem witness_OperationsKeepSelectionAndImage :
    (∃ t, Instr.isHostRequest .evPowerUp = true ∧ exec .evPowerUp (at0 [f, f]) = .next t) ∧
      ∃ t, Instr.isHostRequest .waitReady = true ∧ exec .waitReady (withImg imgA 1#32 [f]) = .next t :=
  ⟨⟨_, rfl, rfl⟩, ⟨_, rfl, rfl⟩⟩

theorem witness_FirmwareIsStoredAsItIs : State.reset.fw = none := rfl

/-- In the middle of an operation. -/
theorem witness_ASecondDeliveryIsRefused :
    ∃ s : State, s.fw ≠ none ∧ s.fwl = some ⟨0, [0x00#8]⟩ ∧ s.seq = .running .waitReady (.wt .l1) [] :=
  ⟨{ withImg imgA 0#32 [] with fwl := some ⟨0, [0x00#8]⟩, seq := .running .waitReady (.wt .l1) [] }, by decide, rfl,
    rfl⟩

/-- Due at once, due in front of the test, due behind it. -/
theorem witness_DeliveryIsSeenIffItPrecedesTheTest :
    ∀ n : Nat, n ∈ [0, 1, 2] → ∃ s : State, s.fw = none ∧ s.fwl = some ⟨n, imgA⟩ ∧ s.seq = .idle :=
  fun n _ => ⟨{ State.reset with fwl := some ⟨n, imgA⟩ }, rfl, rfl, rfl⟩

/-- An empty image; a mode beyond the count; a descriptor beyond the image (its first and its last byte); a
region beyond the image, and one that ends where the image ends. What mode 0 does is the parameter's. -/
theorem witness_ApplyModeChecksInOrder :
    (∀ bytes sel, (withImg bytes sel []).seq = .idle ∧ (withImg bytes sel []).fw = some (Memory.load bytes) ∧
        Memory.wf (Memory.load bytes) = true) ∧
      Memory.size (Memory.load []) = 0 ∧
      (Memory.read (Memory.load imgA) 0 = some 2#8 ∧ (2#8).toNat < (3#32).toNat ∧
        (2#32).toNat ≤ (2#8).toNat) ∧
      (descOff Config.cfg 3#32 = some 8 ∧ Memory.read (Memory.load [5#8]) 0 = some 5#8 ∧
        Memory.size (Memory.load [5#8]) < 8 + 3) ∧
      (descOff Config.cfg 1#32 = some 2 ∧ Memory.size (Memory.load [1#8, 0#8, 0#8, 5#8]) < 2 + 3) ∧
      (Memory.read (Memory.load [1#8, 0#8, 0#8, 6#8, 0#8]) 2 = some 0#8 ∧
        Memory.read (Memory.load [1#8, 0#8, 0#8, 6#8, 0#8]) 3 = some 6#8 ∧
        Memory.read (Memory.load [1#8, 0#8, 0#8, 6#8, 0#8]) 4 = some 0#8 ∧
        Memory.size (Memory.load [1#8, 0#8, 0#8, 6#8, 0#8]) < 256 * (0#8).toNat + (6#8).toNat + 5 * (0#8).toNat) ∧
      (Memory.read (Memory.load [1#8, 0#8, 0#8, 5#8, 0#8]) 3 = some 5#8 ∧
        256 * (0#8).toNat + (5#8).toNat + 5 * (0#8).toNat ≤ Memory.size (Memory.load [1#8, 0#8, 0#8, 5#8, 0#8])) :=
  ⟨fun bytes _ => ⟨rfl, rfl, Memory.load_wf bytes⟩, rfl, by decide, ⟨rfl, by decide, by decide⟩,
    ⟨rfl, by decide⟩, by decide, by decide⟩

theorem witness_ApplyModeWithoutFirmware :
    State.reset.seq = .idle ∧ State.reset.fw = none ∧ State.reset.fwl = none := ⟨rfl, rfl, rfl⟩

/-- The image of the specification's example, mode 1, two entries; a device busy ten times at the first. -/
theorem witness_ApplyModeReplaysEveryEntry :
    ∃ (s : State) (l : List EntryAnswers), s.seq = .idle ∧ s.fw = some (Memory.load imgA) ∧
      Memory.wf (Memory.load imgA) = true ∧ Memory.read (Memory.load imgA) 0 = some 2#8 ∧
      (1#32).toNat ≤ (2#8).toNat ∧ descOff Config.cfg 1#32 = some 2 ∧
      Memory.read (Memory.load imgA) 2 = some 0#8 ∧ Memory.read (Memory.load imgA) 3 = some 8#8 ∧
      Memory.read (Memory.load imgA) 4 = some 2#8 ∧
      256 * (0#8).toNat + (8#8).toNat + 5 * (2#8).toNat ≤ Memory.size (Memory.load imgA) ∧
      l.length = (2#8).toNat ∧ (∀ q ∈ l, q.good Config.cfg) ∧ s.willAnswer (l.flatMap EntryAnswers.all) := by
  let l : List EntryAnswers := [⟨0#32, 0#32, 0#32, List.replicate 10 bz, 0#32⟩, ⟨0#32, 0#32, 0#32, [], 0#32⟩]
  refine ⟨withImg imgA 0#32 (l.flatMap EntryAnswers.all), l, rfl, rfl, Memory.load_wf _, by decide, by decide,
    rfl, by decide, by decide, by decide, by decide, by decide, ?_, answers_at _ _ rfl⟩
  intro q hq
  simp only [l, List.mem_cons, List.not_mem_nil, or_false] at hq
  rcases hq with rfl | rfl
  · exact ⟨by decide, all_bz 10, zero_idle⟩
  · exact ⟨by decide, by simp, zero_idle⟩

/-- A replay that fails at its first entry, and one of a mode without entries, which answers `Ok`. -/
theorem witness_ReplayWritesTheEntriesInOrder :
    (∃ t, exec (.applyMode 1#32) (withImg imgA 0#32 [k, f]) = .next t ∧ descOff Config.cfg 1#32 = some 2) ∧
      (∃ t, exec (.applyMode 1#32) (withImg [1#8, 0#8, 0#8, 5#8, 0#8] 0#32 []) = .next t ∧
        t.resp = some respOk) ∧
      Memory.read (Memory.load [1#8, 0#8, 0#8, 5#8, 0#8]) 0 = some 1#8 ∧
      Memory.read (Memory.load [1#8, 0#8, 0#8, 5#8, 0#8]) 2 = some 0#8 ∧
      Memory.read (Memory.load [1#8, 0#8, 0#8, 5#8, 0#8]) 3 = some 5#8 ∧
      Memory.read (Memory.load [1#8, 0#8, 0#8, 5#8, 0#8]) 4 = some 0#8 ∧
      256 * (0#8).toNat + (5#8).toNat + 5 * (0#8).toNat ≤ Memory.size (Memory.load [1#8, 0#8, 0#8, 5#8, 0#8]) :=
  ⟨⟨_, rfl, rfl⟩, ⟨_, rfl, rfl⟩, by decide⟩

/-- A mode beyond the count, a region beyond the image, no image, and a replay that made events. -/
theorem witness_NothingIsWrittenBeforeEveryCheckHasPassed :
    ((withImg imgA 0#32 []).seq = .idle ∧ (withImg imgA 0#32 []).fw = some (Memory.load imgA) ∧
        Memory.read (Memory.load imgA) 0 = some 2#8 ∧ (2#8).toNat < (3#32).toNat) ∧
      (Memory.read (Memory.load [1#8, 0#8, 0#8, 6#8, 0#8]) 0 = some 1#8 ∧ (1#32).toNat ≤ (1#8).toNat ∧
        descOff Config.cfg 1#32 = some 2 ∧ Memory.read (Memory.load [1#8, 0#8, 0#8, 6#8, 0#8]) 2 = some 0#8 ∧
        Memory.read (Memory.load [1#8, 0#8, 0#8, 6#8, 0#8]) 3 = some 6#8 ∧
        Memory.read (Memory.load [1#8, 0#8, 0#8, 6#8, 0#8]) 4 = some 0#8 ∧
        Memory.size (Memory.load [1#8, 0#8, 0#8, 6#8, 0#8]) < 256 * (0#8).toNat + (6#8).toNat + 5 * (0#8).toNat) ∧
      (State.reset.seq = .idle ∧ State.reset.fw = none ∧ State.reset.fwl = none) ∧
      ∃ t, exec (.applyMode 1#32) (withImg imgA 0#32 [k, f]) = .next t ∧ t.trace.length = 2 :=
  ⟨⟨rfl, rfl, rfl, by decide⟩, ⟨rfl, by decide, rfl, by decide⟩, ⟨rfl, rfl, rfl⟩, ⟨_, rfl, rfl⟩⟩

/-- The first entry succeeds behind ten busy reads, and the second one's data write fails; the write alone
does the same. -/
theorem witness_AReplayStopsAtTheFirstFailedEntry :
    ∃ (s u v : State) (l : List EntryAnswers) (evs : List Event),
      s.seq = .idle ∧ s.fw = some (Memory.load imgA) ∧ Memory.wf (Memory.load imgA) = true ∧
      Memory.read (Memory.load imgA) 0 = some 2#8 ∧ (1#32).toNat ≤ (2#8).toNat ∧
      descOff Config.cfg 1#32 = some 2 ∧ Memory.read (Memory.load imgA) 2 = some 0#8 ∧
      Memory.read (Memory.load imgA) 3 = some 8#8 ∧ Memory.read (Memory.load imgA) 4 = some 2#8 ∧
      256 * (0#8).toNat + (8#8).toNat + 5 * (2#8).toNat ≤ Memory.size (Memory.load imgA) ∧
      l.length < (2#8).toNat ∧ (∀ q ∈ l, q.good Config.cfg) ∧
      Memory.read (Memory.load imgA) (8 + 5 * l.length) = some 0x22#8 ∧
      Memory.read (Memory.load imgA) (8 + 5 * l.length + 1) = some 0xF9#8 ∧
      Memory.read (Memory.load imgA) (8 + 5 * l.length + 2) = some 0x00#8 ∧
      Memory.read (Memory.load imgA) (8 + 5 * l.length + 3) = some 0x01#8 ∧
      u.seq = .idle ∧ exec (.dspWrite (bigEndian 0x22#8 0xF9#8) (bigEndian 0x00#8 0x01#8)) u = .next v ∧
      u.willAnswer [k, f] ∧ v.trace = u.trace ++ evs ∧ evs.length = [k, f].length ∧
      v.resp = some (respIo e7) ∧ respIo e7 ≠ respOk ∧
      s.willAnswer (l.flatMap EntryAnswers.all ++ [k, f]) := by
  let l : List EntryAnswers := [⟨0#32, 0#32, 0#32, List.replicate 10 bz, 0#32⟩]
  refine ⟨withImg imgA 0#32 (l.flatMap EntryAnswers.all ++ [k, f]), at0 [k, f], _, l, _, rfl, rfl,
    Memory.load_wf _, by decide, by decide, rfl, by decide, by decide, by decide, by decide, by decide, ?_,
    by decide, by decide, by decide, by decide, rfl, rfl, answers_at0 _, rfl, rfl, rfl, by decide, answers_at _ _ rfl⟩
  intro q hq
  rw [List.mem_singleton.mp hq]
  exact ⟨by decide, all_bz 10, zero_idle⟩

/-- A replay at its entry, alone and called by each of the two host events, for every row of the abort table
and any answers; the same without a value in `EI`, and in `EP`; a machine that is not there. -/
theorem witness_WriteEntryPerformsOneDspWrite :
    (∀ l, (placeWords Config.cfg (at0 l) (.entry 0x22F900017F#40)).seq =
          .running (.applyMode 1#32) (.am .l9) [] ∧
        (placeWords Config.cfg (at0 l) (.entry 0x22F900017F#40)).wr.ei = some 0#8 ∧
        (placeWords Config.cfg (at0 l) (.entry 0x22F900017F#40)).wr.ep = some 0#17 ∧
        (placeWords Config.cfg (at0 l) (.entry 0x22F900017F#40)).willAnswer l) ∧
      (List.replicate 10 bz).length ≤ 10 ∧ (∀ r ∈ List.replicate 10 bz, isBusy Config.cfg r = true) ∧
      busy Config.cfg 0#32 = false ∧ (∀ op stack, State.reset.seq ≠ .running op (.am .l9) stack) ∧
      (List.replicate 11 bz).length = 11 ∧ (∀ r ∈ List.replicate 11 bz, isBusy Config.cfg r = true) ∧
      (∀ caller ∈ [Label.pu .l1, .pb .l2], ∀ l, ∃ s : State, s.seq = .running .evProbe (.am .l9) [caller] ∧
        s.wr.ei = some 0#8 ∧ s.wr.ep = some 0#17 ∧ s.willAnswer l) ∧
      (∃ s : State, s.seq = .running .evProbe (.am .l9) [] ∧ s.wr.ep = none) ∧
      ∀ l, ∃ s : State, s.seq = .running .evProbe (.am .l9) [] ∧ s.wr.ep = some 0#17 ∧ s.wr.ei = none ∧
        s.willAnswer l :=
  ⟨fun l => ⟨rfl, rfl, rfl, answers_at _ _ rfl⟩, by decide, all_bz 10, zero_idle, (by intro _ _ h; cases h),
    by decide, all_bz 11,
    fun caller _ l => ⟨{ placeWords Config.cfg (at0 l) (.entry 0x22F900017F#40) with
      seq := .running .evProbe (.am .l9) [caller] }, rfl, rfl, rfl, answers_at _ _ rfl⟩,
    ⟨{ State.reset with seq := .running .evProbe (.am .l9) [] }, rfl, rfl⟩,
    fun l => ⟨{ at0 l with
      seq := .running .evProbe (.am .l9) []
      wr := { WorkRegs.empty with ep := some 0#17 } }, rfl, rfl, rfl, answers_at _ _ rfl⟩⟩

/-- At the two lines, and elsewhere. -/
theorem witness_HeaderAndDescriptorLoadTheirRegisters :
    (placeWords Config.cfg State.reset (.hdr 2#8)).seq = .running (.applyMode 1#32) (.am .l2) [] ∧
      (placeWords Config.cfg State.reset (.desc 0x001201#24)).seq = .running (.applyMode 1#32) (.am .l5) [] ∧
      (∀ op stack, State.reset.seq ≠ .running op (.am .l2) stack) ∧
      ∀ op stack, State.reset.seq ≠ .running op (.am .l5) stack :=
  ⟨rfl, rfl, (by intro _ _ h; cases h), (by intro _ _ h; cases h)⟩

/-- At each of the four lines, with an answer of either kind. -/
theorem witness_CommandWordsAreWrittenAtTheirLines :
    ∀ l ∈ [Label.dw .l3, .dr .l3, .dr .l6, .dr .l9],
      (∃ s : State, s.seq = .running (.dspRead 0#16) l [] ∧ s.answer = Answer.ok 0#32) ∧
        ∃ s : State, s.seq = .running (.dspRead 0#16) l [] ∧ s.answer = Answer.err e7 :=
  fun l _ => ⟨⟨{ at0 [k] with seq := .running (.dspRead 0#16) l [] }, rfl, rfl⟩,
    ⟨{ at0 [f] with seq := .running (.dspRead 0#16) l [] }, rfl, rfl⟩⟩

/-- The image's last byte, and the offset behind it. -/
theorem witness_ImageFetchGivesTheByteOrTheFault : 22 < imgA.length ∧ imgA.length ≤ 23 := by decide

theorem witness_PositionBytesAreBigEndian :
    Memory.read (Memory.load imgA) 5 = some 0x00#8 ∧ Memory.read (Memory.load imgA) 6 = some 0x12#8 ∧
      Memory.read (Memory.load imgA) 7 = some 0x01#8 := by decide

theorem witness_EntryOperandsAreBigEndian :
    Memory.read (Memory.load imgA) 8 = some 0x22#8 ∧ Memory.read (Memory.load imgA) 9 = some 0xF8#8 ∧
      Memory.read (Memory.load imgA) 10 = some 0x80#8 ∧ Memory.read (Memory.load imgA) 11 = some 0x05#8 := by
  decide

/-- The whole operation, and its line MS.1. -/
theorem witness_OnlyModeSetChangesTheSelection :
    (∃ t, step (held [] [0x6000000000000004#64]) = .next t ∧ t.modeSel ≠ (held [] []).modeSel) ∧
      ∃ s t : State, s.seq = .running (.modeSet 4#32) (.ms .l1) [] ∧ step s = .next t ∧ t.modeSel ≠ s.modeSel :=
  ⟨⟨_, rfl, by decide⟩,
    ⟨{ State.reset with seq := .running (.modeSet 4#32) (.ms .l1) [], grain := .line }, _, rfl, rfl, by decide⟩⟩

/-- Both answers good, and both failed. -/
theorem witness_PowerUpWithoutFirmwarePulsesAndReports :
    ∀ l ∈ [[k, k], [f, f]], (at0 l).seq = .idle ∧ (at0 l).fw = none ∧ (at0 l).fwl = none ∧ (at0 l).willAnswer l :=
  fun l _ => ⟨rfl, rfl, rfl, answers_at0 l⟩

theorem witness_ProbeWithoutFirmwareOnAnIdealDevice :
    ∃ s : State, s.seq = .idle ∧ s.fw = none ∧ s.fwl = none ∧ busy Config.cfg 0#32 = false ∧
      s.willAnswer [k, k, k, k, k, k, Answer.ok 0#32, k] :=
  ⟨_, rfl, rfl, rfl, zero_idle, answers_at0 _⟩

/-- Each host event answers a next state. -/
theorem witness_HostEventsAlwaysAnswerOk :
    (∃ t, exec .evPowerUp (at0 [k, f]) = .next t) ∧ (∃ t, exec .evPowerDown (at0 [f]) = .next t) ∧
      ∃ t, exec .evProbe (at0 [k, f, k, f, k]) = .next t :=
  ⟨⟨_, rfl⟩, ⟨_, rfl⟩, ⟨_, rfl⟩⟩

theorem witness_RequestsAreRefusedWhileRunning :
    Instr.isHostRequest .modeGet = true ∧
      (placeWords Config.cfg State.reset (.hdr 2#8)).seq = .running (.applyMode 1#32) (.am .l2) [] := ⟨rfl, rfl⟩

/-- Two machines with different pasts. -/
theorem witness_OperationsKeepNothingFromEarlierOnes :
    ∃ s s' : State, Instr.isHostRequest (.applyMode 1#32) = true ∧ s.seq = .idle ∧ s'.seq = .idle ∧
      s'.modeSel = s.modeSel ∧ s'.fw = s.fw ∧ s'.fwl = s.fwl ∧ s'.script = s.script ∧ s'.drawn = s.drawn ∧
      s.trace ≠ s'.trace ∧ (∃ t, exec (.applyMode 1#32) s = .next t) ∧
      (exec (.applyMode 1#32) { s with fw := some [] } = .fault (.imgFetch 0)) :=
  ⟨withImg imgA 0#32 [f], { withImg imgA 0#32 [f] with trace := [pwrOn none], wr := { WorkRegs.empty with ei := some 3#8 } },
    rfl, rfl, rfl, rfl, rfl, rfl, rfl, rfl, by decide, ⟨_, rfl⟩, rfl⟩

/-- The loader's step, and an operation that reads the image. -/
theorem witness_APresentImageNeverChanges :
    (∃ s t : State, s.fw = none ∧ step s = .next t ∧ t.fw ≠ none) ∧ ∃ t, step (held [1#8, 0#8, 0#8, 5#8, 0#8] [0x4000000000000001#64]) = .next t ∧
      (held [1#8, 0#8, 0#8, 5#8, 0#8] [0x4000000000000001#64]).fw = some (Memory.load [1#8, 0#8, 0#8, 5#8, 0#8]) :=
  ⟨⟨{ State.reset with fwl := some ⟨0, imgA⟩ }, _, rfl, rfl, by decide⟩, ⟨_, rfl, rfl⟩⟩

/-- A step that appends events, a failed one among them. -/
theorem witness_StepsAppendOnlyAllowedEvents :
    ∃ t, step { at0 [k, f] with requests := [0x8000000000000000#64] } = .next t ∧ t.trace.length = 3 :=
  ⟨_, rfl, rfl⟩

theorem witness_OperationsStayWithinTheirEventBounds :
    ∃ t, exec .evPowerDown (at0 [k, f]) = .next t := ⟨_, rfl⟩

/-- A line with one event, and one with an event and its report. -/
theorem witness_ALineMakesAtMostOneEvent :
    (∃ s t : State, s.seq = .running .waitReady (.wt .l1) [] ∧ seqStep tc s = .next t) ∧
      ∃ s t : State, s.seq = .running .evProbe (.pb .l0) [] ∧ seqStep tc s = .next t ∧ t.trace.length = 2 :=
  ⟨⟨{ at0 [f] with seq := .running .waitReady (.wt .l1) [] }, _, rfl, rfl⟩,
    ⟨{ at0 [f] with seq := .running .evProbe (.pb .l0) [] }, _, rfl, rfl, rfl⟩⟩

theorem witness_CalleesKeepTheReplayRegisters :
    ∃ s t : State, s.seq = .running (.applyMode 1#32) (.dw .l1) [.am .l10] ∧
      (Label.dw .l1).proc ∈ [Proc.wt, Proc.dw] ∧ seqStep tc s = .next t ∧ t.seq ≠ .idle ∧
      s.wr.ei = some 0#8 :=
  ⟨{ (atEntry [k]).setOperands 0x22F9#16 1#16 with
      seq := .running (.applyMode 1#32) (.dw .l1) [.am .l10] }, _, rfl, by decide, rfl, by decide, rfl⟩

theorem witness_ResetLeavesTheStateOfTheSpec :
    (withImg imgA 1#32 [b]).seq = .idle ∧ (withImg imgA 1#32 [b]).requests = [] ∧
      (withImg imgA 1#32 [b]).fwl = none := ⟨rfl, rfl, rfl⟩

/-- Reset, and a replay at its first line. -/
theorem witness_EveryStepKeepsTheInvariant :
    (∃ t, inv State.reset = true ∧ step State.reset = .next t) ∧
      ∃ t, inv (placeWords Config.cfg State.reset (.hdr 2#8)) = true ∧
        step (placeWords Config.cfg State.reset (.hdr 2#8)) = .next t :=
  ⟨⟨_, rfl, rfl⟩, ⟨_, rfl, rfl⟩⟩

theorem witness_NoStepReadsAnUnwrittenRegister :
    inv (placeWords Config.cfg State.reset (.entry 0x22F900017F#40)) = true := by decide

theorem witness_EntryFetchesNeverFault :
    inv (placeWords Config.cfg State.reset (.entry 0x22F900017F#40)) = true ∧
      (placeWords Config.cfg State.reset (.entry 0x22F900017F#40)).seq =
        .running (.applyMode 1#32) (.am .l9) [] := ⟨by decide, rfl⟩

/-- The deepest stack. -/
theorem witness_ReturnStackHoldsAtMostThreeLabels :
    ∃ s : State, inv s = true ∧ s.seq = .running .evProbe (.wt .l0) [.dw .l4, .pw .l0, .pb .l4] :=
  ⟨{ State.reset with seq := .running .evProbe (.wt .l0) [.dw .l4, .pw .l0, .pb .l4] }, by decide, rfl⟩

theorem witness_LinesRunToTheOperationsOutcome :
    Instr.isHostRequest .evProbe = true ∧ (withImg imgA 1#32 [b, f]).seq = .idle := ⟨rfl, rfl⟩

end Sys2Proof.Tests
end

section
/-! SUPPORT and PROOFS. The state's statements (spec/10_state.md): what a step does to the selection, the image and
the trace, the invariant and the depth of the calls, what one line does, what the next step is, and the operations
run line by line. -/

namespace Sys2Proof.Machine

/-! ## What a step does to the selection, the image and the trace -/

section

variable {s t u : State} {evs : List Event}

/-- A delivery that is due, where no image is present, is what the loader does in front of a line. -/
theorem State.tick_due {bytes : List Byte} (hd : s.dueDelivery = some bytes) (hf : s.fw = none) :
    s.tick = { s with fw := some (Memory.load bytes), fwl := none } := by
  unfold State.dueDelivery at hd
  split at hd
  · rename_i hl
    cases hd
    simp [State.tick, hl, hf]
  · cases hd

/-- The state with another selection. -/
def State.withSel (s : State) (v : W32) : State := { s with modeSel := v }

/-- The loader does not look at the selection. -/
theorem State.tick_withSel (s : State) (v : W32) : (s.withSel v).tick = s.tick.withSel v := by
  unfold State.tick State.withSel
  split <;> rename_i h <;> simp only at h <;> simp [h]
  cases hf : s.fw <;> simp [hf, h]

/-- `MODE_SET v` ends as from a state that selects `v` already: without an event, and with all else kept. -/
theorem modeSet_ran (v : W32) (s : State) : Ran (s.withSel v) 0 [] (modeSet v s).2 := by
  unfold modeSet
  split
  · rename_i h
    rw [State.tick_modeSel] at h
    subst h
    exact (Ran.refl s).tick.setST _
  · have h : (s.withSel v).tick.tick = s.tick.tick.withSel v := by rw [State.tick_withSel, State.tick_withSel]
    have hr := (Ran.refl (s.withSel v)).tick.tick
    rw [h] at hr
    exact hr.tick.setST _

/-- What a taken operation's body did, seen from in front of the taking: a finished operation moved the machine. -/
theorem Ran.finished {r : Option Response} {n : Nat} (h : Ran { s with resp := r } n evs t) (x : Result) :
    Moved s evs (finish x t) :=
  ⟨n, { t with resp := s.resp }, .idle, .empty, some (respond x),
    ⟨h.trace, h.script, h.drawn, h.modeSel, h.seq, rfl, h.requests, h.grain, h.loader⟩, rfl⟩

/-- `MODE_SET v` is about to write the selection: it is the host's next request, or it is running. -/
def SetsSelection (s : State) (v : W32) : Prop :=
  (∃ q rest, s.seq = .idle ∧ s.requests = q :: rest ∧ decodeRequest q = .instr (.modeSet v)) ∨
    ∃ l stack, s.seq = .running (.modeSet v) (.ms l) stack

/-- A host operation moves the machine: `MODE_SET v` from the selection `v`, any other from the one there is. -/
theorem exec_hostRequest_moved {i : Instr} (hi : i.isHostRequest = true) (h : exec i s = .next t) :
    ∃ v evs, Moved (s.withSel v) evs t ∧ (∀ ev ∈ evs, allowedEvent Config.cfg ev) ∧
      (v = s.modeSel ∨ i = .modeSet v) := by
  obtain ⟨-, p, hp, rfl⟩ := exec_hostRequest_next hi h
  by_cases hv : ∃ v, i = .modeSet v
  · obtain ⟨v, rfl⟩ := hv
    cases hp
    exact ⟨v, [], (modeSet_ran v { s with resp := none }).finished (s := s.withSel v) _, by simp, .inr rfl⟩
  · obtain ⟨k, evs, hr, -, ha⟩ := opBody_span _ _ _ _ (fun v hv' => hv ⟨v, hv'⟩) hp
    exact ⟨s.modeSel, evs, hr.finished _, ha, .inl rfl⟩

theorem setArg_cases (op : Instr) (s : State) : setArg op s = s.modeSel ∨ op = .modeSet (setArg op s) := by
  cases op with
  | modeSet v => exact .inr rfl
  | _ => exact .inl rfl

/-- A line moves the machine: `MODE_SET v`'s second one from the selection `v`, any other from the one there is. -/
theorem lineAt_moved_withSel {op : Instr} {upc : Label} {stack : List Label} (hs : s.seq = .running op upc stack)
    (h : lineAt Config.cfg op upc stack s.tick = .next t) :
    ∃ v evs, Moved (s.withSel v) evs t ∧ (∀ ev ∈ evs, allowedEvent Config.cfg ev) ∧
      (v = s.modeSel ∨ SetsSelection s v) := by
  by_cases hu : upc = .ms .l1
  · subst hu
    have hr := (Ran.refl (s.withSel (setArg op s))).tick
    rw [State.tick_withSel] at hr
    refine ⟨setArg op s, [], ?_, by simp, ?_⟩
    · have harg : setArg op s.tick = setArg op s := by cases op <;> simp [setArg]
      rw [lineAt_ms1, harg] at h
      cases h
      exact hr.goto _ _ _
    · exact (setArg_cases op s).imp_right fun h => .inr ⟨.l1, stack, by rw [hs, ← h]⟩
  · obtain ⟨evs, hm, ha, -⟩ := lineAt_moved _ _ _ _ _ _ hu h
    exact ⟨s.modeSel, evs, hm.of_tick, ha, .inl rfl⟩

/-- Every step, but for the request it may take off the queue and the selection a `MODE_SET` writes, moves the
machine: allowed events are appended, the loader may deliver, and the rest is kept. -/
theorem step_moved (h : step s = .next t) :
    ∃ v rest evs, Moved { s.withSel v with requests := rest } evs t ∧
      (∀ ev ∈ evs, allowedEvent Config.cfg ev) ∧ (v = s.modeSel ∨ SetsSelection s v) := by
  cases step_kind h with
  | delivery bytes hd hf ht =>
    rw [ht, ← State.tick_due hd hf]
    exact ⟨s.modeSel, s.requests, [], (Ran.refl s).tick.moved, by simp, .inl rfl⟩
  | waiting hs hr ht =>
    rw [ht]
    exact ⟨s.modeSel, s.requests, [], (Ran.refl s).tick.moved, by simp, .inl rfl⟩
  | operation q rest i hs hr hq hi ht =>
    obtain ⟨v, evs, hm, ha, hv⟩ := exec_hostRequest_moved hi ht
    refine ⟨v, rest, evs, hm, ha, hv.imp_right ?_⟩
    rintro rfl
    exact .inl ⟨q, rest, hs, hr, hq⟩
  | taken q rest i l hs hr hq hl ht =>
    rw [ht]
    exact ⟨s.modeSel, rest, [], (Ran.refl { s with requests := rest }).moved.regs _ _ _, by simp, .inl rfl⟩
  | line op upc stack hs ht =>
    obtain ⟨v, evs, hm, ha, hv⟩ := lineAt_moved_withSel hs ht
    exact ⟨v, s.requests, evs, hm, ha, hv⟩
  | entry op stack ep a d hs hep hf ht =>
    obtain ⟨evs, hm, -, ha⟩ := opWr_moved ht
    exact ⟨s.modeSel, s.requests, evs, hm, ha, .inl rfl⟩

/-- The image survives every step, or the loader delivers it where there was none. -/
theorem step_imageKept (h : step s = .next t) : imageKept s t := by
  obtain ⟨v, rest, evs, hm, -, -⟩ := step_moved h
  exact hm.imageKept

end

/-! ## The invariant -/

section

variable {c : Cfg} {s t : State} {op : Instr} {upc : Label} {stack : List Label}

theorem inv_iff (s : State) : inv s = true ↔ imageWf s = true ∧ seqWf Config.cfg s = true := by
  simp [inv]

/-- The loader's chance in front of a line keeps a well-formed sequencer. -/
theorem seqWf_tick (h : seqWf c s = true) : seqWf c s.tick = true :=
  seqWf_of_fw (State.tick_wr s) (tick_fw_or s) (State.tick_seq s) h

/-- An operation's first line reads no working register. -/
theorem entryLine_ready {i : Instr} {l : Label} (h : entryLine i = some l) (t : State) :
    lineReady c t l = true := by
  cases i <;> cases h <;> rfl

/-- An operation that ended leaves a well-formed, idle sequencer. -/
theorem seqWf_of_exec {i : Instr} (hi : i.isHostRequest = true) (h : exec i s = .next t) : seqWf c t = true := by
  obtain ⟨-, p, -, rfl⟩ := exec_hostRequest_next hi h
  exact seqWf_finish _ _

/-- A whole entry of the replay leads from a well-formed place to a well-formed place: to the return of its
error, or to the next entry. -/
theorem opWr_wf {a d : W16} (hw : seqWf c s = true) (h : opWr c a d s = .next t) : seqWf c t = true := by
  obtain ⟨op, stack, ep, hs, -, hend⟩ := opWr_next h
  obtain ⟨hc, hl, -⟩ := (seqWf_running hs).mp hw
  rcases hend with ⟨x, -, rfl⟩ | ⟨p, -, hadv⟩
  · have hst : (writeEntry c a d s).2.wr.st = some (writeEntry c a d s).1 := write_st c a d _
    exact seqWf_returnTo op _ _ stack .am hc (stack_ready_am hc _) (.inl (by rw [hst]; rfl))
  · obtain ⟨ei, ep, hei, hep, rfl⟩ := advanceEntry_next hadv
    obtain ⟨⟨-, -, hpo, hec⟩, hei', hep'⟩ := (writeEntry_entryKeeps c a d s).tick
    obtain ⟨k, evs, hr, -⟩ := writeEntry_trail c a d s
    have hfw : (writeEntry c a d s).2.tick.fw = s.fw := by
      obtain ⟨m, -, -, -, -, hm, -⟩ := (replayAt_iff false s).mp hl
      rw [hm]
      exact hr.tick.fw_present hm
    refine seqWf_goto hc rfl ?_ (stack_ready_am hc _)
    exact replayAt_advance hl (hei' ▸ hei) (hep' ▸ hep) hfw hpo hec rfl rfl

/-- Every step keeps the sequencer well-formed. -/
theorem step_seqWf (hw : seqWf Config.cfg s = true) (h : step s = .next t) : seqWf Config.cfg t = true := by
  cases step_kind h with
  | delivery bytes hd hf ht =>
    rw [ht, ← State.tick_due hd hf]
    exact seqWf_tick hw
  | waiting hs hr ht => exact ht ▸ seqWf_tick hw
  | operation q rest i hs hr hq hi ht => exact seqWf_of_exec hi ht
  | taken q rest i l hs hr hq hl ht =>
    subst ht
    refine (seqWf_running rfl).mpr ⟨?_, entryLine_ready hl _, rfl⟩
    simp [chainOk, hl]
  | line op upc stack hs ht =>
    obtain ⟨hc, hl, hst⟩ := (seqWf_running hs).mp hw
    exact lineAt_wf upc hc (lineReady_tick _ hl) (all_lineReady_tick _ hst) ht
  | entry op stack ep a d hs hep hf ht => exact opWr_wf hw ht

/-! ## No step reads a register without a value -/

theorem Written.refused {α : Type} (r : Refusal) : Written (.refused r : Out α) := fun _ h => by cases h

/-- What a procedure run at once comes to: an answer, which `ST` then holds (10_state.md R37), or an image fetch
that faults. It reads back no register that it writes. -/
def Ends (x : Out (Result × State)) : Prop :=
  (∃ p, x = .next p ∧ p.2.wr.st = some p.1) ∨ ∃ o, x = .fault (.imgFetch o)

theorem Ends.ret (r : Result) (s : State) : Ends (.next (ret r s)) := .inl ⟨_, rfl, rfl⟩

theorem Ends.andThen {α : Type} {x : Out α} {k : α → Out (Result × State)} (hw : Written x)
    (hr : ∀ r, x ≠ .refused r) (hk : ∀ a, Ends (k a)) : Ends (andThen x k) := by
  cases x with
  | next a => exact hk a
  | refused r => exact absurd rfl (hr r)
  | fault f =>
    cases f with
    | imgFetch o => exact .inr ⟨o, rfl⟩
    | unwrittenRegister name => exact absurd rfl (hw name)

theorem Ends.written {x : Out (Result × State)} (h : Ends x) : Written x := by
  intro name hx
  rcases h with ⟨p, rfl, -⟩ | ⟨o, rfl⟩ <;> cases hx

theorem replay_ends (n : Nat) (ei : BitVec 8) (ep : BitVec 17) (s : State) : Ends (replay c n ei ep s) := by
  induction n generalizing ei ep s with
  | zero => exact Ends.ret _ _
  | succ n ih =>
    refine Ends.andThen (fetchEntry_written _ _) (fetchEntry_ne_refused _ _) fun entry => ?_
    have hst : (writeEntry c entry.1 entry.2 s.tick).2.wr.st = some (writeEntry c entry.1 entry.2 s.tick).1 :=
      write_st c _ _ _
    unfold replayEntry
    generalize writeEntry c entry.1 entry.2 s.tick = p at hst
    obtain ⟨r, u⟩ := p
    cases r with
    | err x => exact .inl ⟨_, rfl, hst⟩
    | ok x => exact ih _ _ _

theorem checkAndReplay_ends (p : W16) (n : Byte) (s : State) : Ends (checkAndReplay c p n s) := by
  unfold checkAndReplay
  split
  · exact Ends.ret _ _
  · exact replay_ends _ _ _ _

theorem lookUpAndReplay_ends (index : W32) (s : State) : Ends (lookUpAndReplay c index s) := by
  unfold lookUpAndReplay
  split
  · exact Ends.ret _ _
  · exact Ends.andThen (fetchDesc_written _ _) (fetchDesc_ne_refused _ _) fun p => checkAndReplay_ends _ _ _

theorem countAndReplay_ends (index : W32) (s : State) : Ends (countAndReplay c index s) := by
  refine Ends.andThen (memRead_written _ _) (memRead_ne_refused _ _) fun n => ?_
  simp only
  split
  · exact Ends.ret _ _
  · exact lookUpAndReplay_ends _ _

theorem applyMode_ends (c : Cfg) (index : W32) (s : State) : Ends (applyMode c index s) := by
  unfold applyMode
  simp only
  split
  · exact Ends.ret _ _
  · exact countAndReplay_ends _ _

theorem opBody_written (c : Cfg) (i : Instr) (hi : i.isHostRequest = true) (s : State) : Written (opBody c i s) := by
  cases i with
  | applyMode m => exact (applyMode_ends c m s).written
  | evPowerUp => exact (applyMode_ends c _ _).written.andThen fun p => Written.next _
  | evProbe => exact (applyMode_ends c _ _).written.andThen fun p => Written.next _
  | waitReady => exact Written.next _
  | dspWrite a d => exact Written.next _
  | dspRead r => exact Written.next _
  | modeGet => exact Written.next _
  | modeSet v => exact Written.next _
  | evPowerDown => exact Written.next _
  | _ => cases hi

theorem exec_hostRequest_written {i : Instr} (hi : i.isHostRequest = true) (s : State) : Written (exec i s) := by
  rw [exec_hostRequest i s hi]
  unfold hostOp
  split
  · exact (opBody_written _ i hi _).andThen fun p => Written.next _
  · exact Written.refused _

theorem begin_written (i : Instr) (s : State) : Written (begin i s) := by
  unfold begin
  split
  · exact Written.refused _
  · split
    · exact Written.next _
    · exact Written.refused _

theorem deliver_written (bytes : List Byte) (s : State) : Written (deliver bytes s) := by
  unfold deliver
  split
  · exact Written.next _
  · exact Written.refused _

/-- An idle sequencer's step reads no working register. -/
theorem stepIdle_written (s : State) : Written (stepIdle s) := by
  unfold stepIdle
  split
  · exact Written.next _
  · split
    · exact Written.refused _
    · rename_i hq
      split
      · exact exec_hostRequest_written (decodeRequest_isHostRequest hq) _
      · exact begin_written _ _

theorem seqStep_running (c : Cfg) (hs : s.seq = .running op upc stack) :
    seqStep c s = lineAt c op upc stack s.tick := by
  simp only [seqStep, hs]

/-- The line a well-formed place names finds the registers it reads. -/
theorem seqStep_written (hs : s.seq = .running op upc stack) (hw : seqWf c s = true) : Written (seqStep c s) := by
  obtain ⟨hc, hl, hst⟩ := (seqWf_running hs).mp hw
  rw [seqStep_running c hs]
  exact lineAt_written upc hc (lineReady_tick _ hl) (all_lineReady_tick _ hst)

/-- At line AM.9 of a well-formed place an entry is still to come. -/
theorem replayAt_of_seqWf (hs : s.seq = .running op (.am .l9) stack) (hw : seqWf c s = true) :
    replayAt false s = true := by
  obtain ⟨-, hl, -⟩ := (seqWf_running hs).mp hw
  exact hl

/-- Fetching a well-formed place's item reads `EP` at most, which is there. -/
theorem fetchItem_written (hw : seqWf c s = true) {x : Out Instr} (h : fetchItem c s = some x) : Written x := by
  unfold fetchItem at h
  split at h
  · cases h; exact (memRead_written _ _).andThen fun n => Written.next _
  · split at h
    · cases h
    · cases h; exact (fetchDesc_written _ _).andThen fun p => Written.next _
  · rename_i hs
    cases h
    obtain ⟨-, -, hep⟩ := replayAt_isSome (replayAt_of_seqWf hs hw)
    exact Written.readReg hep fun ep => (fetchEntry_written _ _).andThen fun e => Written.next _
  · cases h; exact Written.next _
  · cases h; exact Written.next _
  · cases h; exact Written.next _
  · cases h; exact Written.next _
  · cases h

/-- A whole entry at a well-formed place finds `EP`, and behind its write `EI` and `EP`. -/
theorem opWr_written (hs : s.seq = .running op (.am .l9) stack) (hw : seqWf c s = true) (a d : W16) :
    Written (opWr c a d s) := by
  obtain ⟨-, hei, hep⟩ := replayAt_isSome (replayAt_of_seqWf hs hw)
  obtain ⟨ep, hep'⟩ := Option.isSome_iff_exists.mp hep
  obtain ⟨-, kei, kep⟩ := (writeEntry_entryKeeps c a d s).tick
  rw [opWr_at hs hep']
  generalize writeEntry c a d s = p at kei kep
  obtain ⟨r, u⟩ := p
  cases r with
  | err x => exact Written.next _
  | ok x => exact Written.readReg (kei ▸ hei) fun ei => Written.readReg (kep ▸ hep) fun ep => Written.next _

/-- A well-formed running sequencer's step finds the registers it reads, at either grain. -/
theorem stepRunning_written (hs : s.seq = .running op upc stack) (hw : seqWf Config.cfg s = true) :
    Written (stepRunning s) := by
  have hline := seqStep_written hs hw
  unfold stepRunning
  split
  · exact hline
  · split
    · exact hline
    · rename_i x hx
      cases x with
      | fault f => exact fun name h => fetchItem_written hw hx name (by cases h; rfl)
      | refused r => exact Written.refused r
      | next i =>
        cases fetchItem_kind hs hx with
        | asLine he =>
          show Written (exec i s)
          rw [he]
          rwa [seqStep_running _ hs] at hline
        | entry ep a d pad hu hep hf hi =>
          subst hu hi
          exact opWr_written hs hw a d

/-- Under the invariant no step reads a register that holds no value (10_state.md R31). -/
theorem step_written (hw : seqWf Config.cfg s = true) : Written (step s) := by
  unfold step
  split
  · exact deliver_written _ _
  · split
    · exact stepIdle_written s
    · rename_i hs
      exact stepRunning_written hs hw

/-! ## The depth of the calls -/

/-- How many calls a procedure can run under (10_state.md R28, R33): `wait_ready` is called by `write`, this by
`apply_mode`, this by the events. -/
def Proc.depth : Proc → Nat
  | .wt => 3
  | .dw => 2
  | .am => 1
  | .pw => 1
  | .rs => 1
  | .dr => 0
  | .mg => 0
  | .ms => 0
  | .pd => 0
  | .pu => 0
  | .pb => 0

/-- A call leads one deeper, at least. -/
theorem depth_of_call {l : Label} {p : Proc} (h : calledProc l = some p) : l.proc.depth < p.depth := by
  unfold calledProc at h
  split at h <;> cases h <;> decide

theorem chainOk_length {p : Proc} (h : chainOk op p stack = true) : stack.length ≤ p.depth := by
  induction stack generalizing p with
  | nil => exact Nat.zero_le _
  | cons l stack ih =>
    simp only [chainOk, Bool.and_eq_true, beq_iff_eq] at h
    obtain ⟨hl, hstack⟩ := h
    have h1 := depth_of_call hl
    have h2 := ih hstack
    rw [List.length_cons]
    omega

theorem Proc.depth_le (p : Proc) : p.depth ≤ 3 := by cases p <;> decide

end

/-! ## One line -/

section

variable {c : Cfg} {s t : State} {op : Instr} {stack : List Label}

/-- Every line's events, `MODE_SET`'s second line with them, which makes none. -/
theorem lineAt_events {upc : Label} (h : lineAt c op upc stack s = .next t) :
    ∃ evs, t.trace = s.trace ++ evs ∧ LineEvents c upc.proc evs := by
  by_cases hu : upc = .ms .l1
  · subst hu
    cases h
    exact ⟨[], (List.append_nil _).symm, .none _ _⟩
  · obtain ⟨evs, hm, he⟩ := lineAt_moved c op upc stack s t hu h
    exact ⟨evs, hm.trace, he⟩

/-- The operation has ended, or the replay's registers are as they were (10_state.md R28). -/
def EndedOrKept (s t : State) : Prop := t.seq = .idle ∨ EntryKeeps s t

theorem EntryKeeps.returnTo (h : EntryKeeps s t) (op : Instr) (r : Result) (stack : List Label) :
    EndedOrKept s (returnTo op r t stack) := by
  rcases returnTo_cases op r t stack with hr | ⟨l, rest, pre, -, next, -, hr⟩ <;> rw [hr]
  · exact .inl rfl
  · exact .inr h

theorem EntryKeeps.retLine (h : EntryKeeps s t) (op : Instr) (stack : List Label) (r : Result) :
    EndedOrKept s (retLine op stack r t) :=
  EntryKeeps.returnTo (t := t.setST r) h op r stack

theorem EntryKeeps.goto (h : EntryKeeps s t) (op : Instr) (stack : List Label) (l : Label) :
    EndedOrKept s (goto op stack l t) := .inr h

theorem writeLine_keeps (op : Instr) (stack : List Label) (a : RegAddr) (v : W32) (next : Label) (s : State) :
    EndedOrKept s (writeLine op stack a v next s) := by
  have h : EntryKeeps s (s.twrite a v) := EntryKeeps.refl s
  unfold writeLine
  split
  · exact h.retLine _ _ _
  · exact h.goto _ _ _

theorem lineWt_keeps {l : WtLine} (h : lineWt c op stack l s = .next t) : EndedOrKept s t := by
  have hk := EntryKeeps.refl s
  cases l with
  | l0 => cases h; exact .inr hk
  | l1 =>
    unfold lineWt at h
    simp only at h
    split at h
    · cases h; exact EntryKeeps.retLine (t := s.tread c.regStatus) hk _ _ _
    · obtain ⟨n, -, h⟩ := andThen_eq_next h
      cases h; exact .inr hk
  | l2 =>
    obtain ⟨v, -, h⟩ := andThen_eq_next h
    cases h
    split
    · exact hk.goto _ _ _
    · exact hk.retLine _ _ _
  | l3 =>
    obtain ⟨n, -, h⟩ := andThen_eq_next h
    cases h
    split
    · exact hk.retLine _ _ _
    · exact hk.goto _ _ _

theorem lineDw_keeps {l : DwLine} (h : lineDw c op stack l s = .next t) : EndedOrKept s t := by
  have hk := EntryKeeps.refl s
  cases l with
  | l0 => obtain ⟨p, -, h⟩ := andThen_eq_next h; cases h; exact .inr hk
  | l1 => obtain ⟨a, -, h⟩ := andThen_eq_next h; cases h; exact writeLine_keeps _ _ _ _ _ _
  | l2 => obtain ⟨d, -, h⟩ := andThen_eq_next h; cases h; exact writeLine_keeps _ _ _ _ _ _
  | l3 => cases h; exact writeLine_keeps _ _ _ _ _ _
  | l4 => cases h; exact .inr hk
  | l5 => cases h; exact hk.retLine _ _ _

/-- A line of `wait_ready` or `write` keeps the replay's registers. -/
theorem callee_keeps {upc : Label} (hp : upc.proc ∈ [Proc.wt, Proc.dw]) (h : lineAt c op upc stack s = .next t) :
    EndedOrKept s t := by
  cases upc with
  | wt l => exact lineWt_keeps h
  | dw l => exact lineDw_keeps h
  | _ => simp [Label.proc] at hp

/-! ## What the next step is -/

theorem step_idle (hs : s.seq = .idle) (hd : s.dueDelivery = none) : step s = stepIdle s := by
  simp only [step, hd, hs]

theorem step_running {upc : Label} (hs : s.seq = .running op upc stack) (hd : s.dueDelivery = none) :
    step s = stepRunning s := by
  simp only [step, hd, hs]

theorem stepIdle_operation {q : Q64} {rest : List Q64} {i : Instr} (hr : s.requests = q :: rest)
    (hq : decodeRequest q = .instr i) (hg : s.stepGrain = .operation) :
    stepIdle s = exec i { s with requests := rest } := by
  simp only [stepIdle, hr, hq, hg]

theorem stepIdle_line {q : Q64} {rest : List Q64} {i : Instr} (hr : s.requests = q :: rest)
    (hq : decodeRequest q = .instr i) (hg : s.stepGrain = .line) :
    stepIdle s = begin i { s with requests := rest } := by
  simp only [stepIdle, hr, hq, hg]

theorem stepRunning_item {x : Out Instr} (hg : s.stepGrain = .operation) (hx : fetchItem Config.cfg s = some x) :
    stepRunning s = andThen x fun i => exec i s := by
  simp only [stepRunning, hg, hx]

theorem stepRunning_noItem (hg : s.stepGrain = .operation) (hx : fetchItem Config.cfg s = none) :
    stepRunning s = seqStep Config.cfg s := by
  simp only [stepRunning, hg, hx]

theorem stepRunning_line (hg : s.stepGrain = .line) : stepRunning s = seqStep Config.cfg s := by
  simp only [stepRunning, hg]

end

/-! ## Placed words -/

section

variable {s : State} {op : Instr} {upc : Label} {stack : List Label}

/-- A host request's word decodes to it. -/
theorem decodeRequest_of_encode {c : Cfg} {i : Instr} {q : Q64} (h : encode c i = some (.request q)) :
    decodeRequest q = .instr i := by
  cases i <;> cases h <;> simp [decodeRequest, decodeByOp, provided]

/-- At the operation grain, with the loader at rest, a running sequencer runs the item its line fetches. -/
theorem step_item {i : Instr} (hs : s.seq = .running op upc stack) (hl : s.fwl = none) (hg : s.grain = .operation)
    (hx : fetchItem Config.cfg s = some (.next i)) : step s = exec i s := by
  have hd : s.dueDelivery = none := by simp only [State.dueDelivery, hl]
  rw [step_running hs hd, stepRunning_item ((State.stepGrain_own (.inr hl)).trans hg) hx, andThen_next]

/-- A placed request is what the idle machine takes next. -/
theorem step_placed_request {c : Cfg} {i : Instr} {q : Q64} (s : State) (hq : decodeRequest q = .instr i) :
    step (placeWords c s (.request q)) =
      exec i { placeWords c s (.request q) with requests := s.requests } := by
  rw [step_idle rfl rfl, stepIdle_operation rfl hq (State.stepGrain_own (.inr rfl))]

/-- A placed entry is what line AM.9 fetches, its pad byte included. -/
theorem fetchItem_placed_entry (c : Cfg) (s : State) (e : BitVec 40) :
    fetchItem c (placeWords c s (.entry e)) = some (.next (decodeEntry e)) := rfl

/-- A placed descriptor is mode 1's, which line AM.5 fetches. -/
theorem fetchItem_placed_desc (c : Cfg) (s : State) (d : BitVec 24) :
    fetchItem c (placeWords c s (.desc d)) = some (.next (decodeDesc d)) := rfl

theorem fetchItem_placed_hdr (c : Cfg) (s : State) (h : Byte) :
    fetchItem c (placeWords c s (.hdr h)) = some (.next (.hdr h)) := rfl

/-- A command word that shares no earlier one's value is told by it. -/
theorem decodeCommand_of_wellFormed {c : Cfg} {i : Instr} {w : W16} (h : encode c i = some (.command w))
    (hwf : i.wellFormed c = true) : decodeCommand c w = .instr i := by
  cases i <;> cases h
  case cwMw => exact if_pos rfl
  case cwMr =>
    have hne : c.cwMr ≠ c.cwMw := by simpa [Instr.wellFormed] using hwf
    simp [decodeCommand, hne]
  case cwRr =>
    have hne : c.cwRr ≠ c.cwMw ∧ c.cwRr ≠ c.cwMr := by simpa [Instr.wellFormed] using hwf
    simp [decodeCommand, hne]

/-- A placed command word is what the line at which it is placed writes. -/
theorem step_placed_command {c : Cfg} {i : Instr} {w : W16} (s : State) (hi : i = .cwMw ∨ i = .cwMr ∨ i = .cwRr)
    (h : decodeCommand c w = .instr i) :
    step (placeWords c s (.command w)) = exec i (placeWords c s (.command w)) := by
  unfold placeWords
  rcases hi with rfl | rfl | rfl <;> simp only [h] <;> exact step_item rfl rfl rfl rfl

/-- Placing a command word leaves the host's queue alone. -/
theorem placeWords_command_requests (c : Cfg) (s : State) (w : W16) :
    { placeWords c s (.command w) with requests := s.requests } = placeWords c s (.command w) := by
  simp only [placeWords]
  split <;> rfl

end

/-! ## Every host operation, line by line -/

section

variable {c : Cfg} {op : Instr} {s : State}

/-- A returning line, with what it returned. -/
theorem LinesTo.retAt {r : Result} {u : State} {stack : List Label} {l : Label}
    (h : lineAt c op l stack (goto op stack l s.tick) = .next (retLine op stack r (goto op stack l u))) :
    LinesTo c op stack 1 (goto op stack l s) (.next (Machine.ret r u)) :=
  LinesTo.ret (h.trans (congrArg Host.Outcome.next (returnTo_goto op op r stack stack l (u.setST r))))

theorem modeGet_lines (c : Cfg) (s : State) :
    LinesTo c .modeGet [] 1 (goto .modeGet [] .mg s) (.next (modeGet s)) := LinesTo.retAt rfl

theorem modeSet_lines (c : Cfg) (v : W32) (s : State) :
    LinesTo c (.modeSet v) [] 3 (goto (.modeSet v) [] (.ms .l0) s) (.next (modeSet v s)) := by
  have h0 : lineAt c (.modeSet v) (.ms .l0) [] (goto (.modeSet v) [] (.ms .l0) s.tick) =
      .next (if v = s.tick.modeSel then retLine (.modeSet v) [] (.ok none) (goto (.modeSet v) [] (.ms .l0) s.tick)
        else goto (.modeSet v) [] (.ms .l1) s.tick) := rfl
  unfold modeSet
  by_cases hv : v = s.tick.modeSel
  · rw [if_pos hv] at h0 ⊢
    exact (LinesTo.retAt h0).mono (by omega)
  · rw [if_neg hv] at h0 ⊢
    have h2 : LinesTo c (.modeSet v) [] 1 (goto (.modeSet v) [] (.ms .l2) (s.tick.tick.withSel v))
        (.next (ret (.ok none) (s.tick.tick.withSel v).tick)) := LinesTo.retAt rfl
    exact (h2.step (lineAt_ms1 c _ _ (goto (.modeSet v) [] (.ms .l1) s.tick.tick))).step h0

theorem powerDown_lines (c : Cfg) (s : State) :
    LinesTo c .evPowerDown [] 45 (goto .evPowerDown [] (.pd .l0) s) (.next (powerDown c s)) := by
  have h1 : LinesTo c .evPowerDown [] 1 (goto .evPowerDown [] (.pd .l1) (pdWrite c s.tick))
      (.next (powerDown c s)) := LinesTo.retAt rfl
  exact ((pdWrite_lines c .evPowerDown [.pd .l0] s.tick).call h1).step rfl

/-- `apply_mode` under an event's line, which goes on whatever the result: what follows runs behind an answer,
and a fault is the event's too. -/
theorem applyMode_call_lines {b : Nat} {caller next : Label} {index : W32} {k : Result × State → Result × State}
    (h0 : lineAt c op (.am .l0) [caller] (goto op [caller] (.am .l0) s.tick) =
      .next (goto op [caller] (.am .l1) (s.tick.setMI index)))
    (hcall : afterCall caller = .goOn next)
    (hk : ∀ r u, u.wr.st = some r → LinesTo c op [] b (goto op [] next u) (.next (k (r, u)))) :
    LinesTo c op [] (11229 + b) (goto op [caller] (.am .l0) s)
      (andThen (applyMode c index s) fun p => .next (k p)) := by
  have hl := applyMode_lines c op [caller] index s h0
  rcases applyMode_ends c index s with ⟨⟨r, u⟩, hp, hst⟩ | ⟨o, hf⟩
  · rw [hp] at hl ⊢
    have hret : returnTo op r u [caller] = goto op [] next u := by simp only [returnTo, hcall]
    exact hl.call (hret ▸ hk r u hst)
  · rw [hf] at hl ⊢
    exact hl.faultThrough.mono (by omega)

theorem powerUp_lines (c : Cfg) (s : State) :
    LinesTo c .evPowerUp [] 11237 (goto .evPowerUp [] (.pu .l0) s) (powerUp c s) := by
  have hback : ∀ r u, u.wr.st = some r → LinesTo c .evPowerUp [] 2 (goto .evPowerUp [] (.pu .l2) u)
      (.next (ret (.ok none) (u.tick.reportIf r).tick)) := by
    intro r u hst
    have h2 : lineAt c .evPowerUp (.pu .l2) [] (goto .evPowerUp [] (.pu .l2) u.tick) =
        .next (goto .evPowerUp [] (.pu .l3) (u.tick.reportIf r)) := by
      simp only [lineAt, linePu, goto_wr, State.tick_wr, hst, readReg_some, andThen_next]
      rfl
    exact (LinesTo.retAt rfl).step h2
  refine LinesTo.step (b := 11236) (t := goto .evPowerUp [.pu .l0] (.rs .l0) s.tick) rfl ?_
  refine LinesTo.call (b := 4) (b' := 11232) (resetPulse_lines c .evPowerUp [.pu .l0] s.tick) ?_
  refine LinesTo.step (b := 11231) (t := goto .evPowerUp [.pu .l1] (.am .l0) (State.tick _)) rfl ?_
  refine applyMode_call_lines (k := fun p => ret (.ok none) (p.2.tick.reportIf p.1).tick) ?_ rfl hback
  rw [← State.tick_modeSel (s := (resetPulse c s.tick).tick)]
  rfl

theorem probeTail_lines (c : Cfg) (s : State) :
    LinesTo c .evProbe [] 48 (goto .evProbe [] (.pb .l3) s) (.next (probeTail c s)) := by
  refine LinesTo.step (b := 47) (t := goto .evProbe [] (.pb .l4) (s.tick.emit (.dl c.tProbeSettle))) rfl ?_
  refine LinesTo.step (b := 46) (t := goto .evProbe [.pb .l4] (.pw .l0) (State.tick _)) rfl ?_
  refine LinesTo.call (b := 43) (b' := 3) (pdWrite_lines c .evProbe [.pb .l4] _) ?_
  refine LinesTo.step (b := 2) (t := goto .evProbe [] (.pb .l6)
    ((State.tick _).updateOrReport c.pwrReg c.pwrMask c.pwrOff)) rfl ?_
  refine LinesTo.step (b := 1) (t := goto .evProbe [] (.pb .l7) ((State.tick _).emit (.fq c.fwName))) rfl ?_
  exact LinesTo.retAt rfl

theorem probe_lines (c : Cfg) (s : State) :
    LinesTo c .evProbe [] 11284 (goto .evProbe [] (.pb .l0) s) (probe c s) := by
  refine LinesTo.step (b := 11283) (t := goto .evProbe [] (.pb .l1)
    (s.tick.updateOrReport c.pwrReg c.pwrMask c.pwrOn)) rfl ?_
  refine LinesTo.step (b := 11282) (t := goto .evProbe [.pb .l1] (.rs .l0) (State.tick _)) rfl ?_
  refine LinesTo.call (b := 4) (b' := 11278) (resetPulse_lines c .evProbe [.pb .l1] _) ?_
  refine LinesTo.step (b := 11277) (t := goto .evProbe [.pb .l2] (.am .l0) (State.tick _)) rfl ?_
  exact applyMode_call_lines (k := fun p => probeTail c p.2) rfl rfl fun r u _ => probeTail_lines c u

/-- The lines of every host operation, from its first one, reach what its body answers. -/
theorem opBody_lines (c : Cfg) {i : Instr} {l : Label} (hl : entryLine i = some l) (s : State) :
    LinesTo c i [] 12000 (goto i [] l s) (opBody c i s) := by
  cases i <;> cases hl
  case waitReady => exact (waitReady_lines c _ [] s).mono (by omega)
  case dspWrite a d => exact (write_lines c _ [] a d s rfl).mono (by omega)
  case dspRead r => exact (read_lines c r s).mono (by omega)
  case applyMode m => exact (applyMode_lines c _ [] m s rfl).mono (by omega)
  case modeGet => exact (modeGet_lines c s).mono (by omega)
  case modeSet v => exact (modeSet_lines c v s).mono (by omega)
  case evPowerUp => exact (powerUp_lines c s).mono (by omega)
  case evPowerDown => exact (powerDown_lines c s).mono (by omega)
  case evProbe => exact (probe_lines c s).mono (by omega)

end

end Sys2Proof.Machine

open Sys2Proof Sys2Proof.Machine

/-! ## The statements -/

/-- Settles O33: a step moves the machine from the selection it leaves, and only a `MODE_SET` makes that another
one than before. -/
theorem onlyModeSetChangesTheSelection : Obligations.OnlyModeSetChangesTheSelection := by
  intro s t h hne
  obtain ⟨v, rest, evs, hm, -, hv⟩ := step_moved h
  have hsel : t.modeSel = v := hm.frame.modeSel
  rcases hv with rfl | ⟨q, rest, hs, hr, hq⟩ | ⟨l, stack, hs⟩
  · exact absurd hsel hne
  · exact .inl ⟨q, rest, v, hs, hr, hq, hsel⟩
  · exact .inr ⟨v, l, stack, hs, hsel⟩

/-- Settles O43: the events by which a step moves the machine are allowed ones, appended. -/
theorem stepsAppendOnlyAllowedEvents : Obligations.StepsAppendOnlyAllowedEvents := by
  intro s t h
  obtain ⟨v, rest, evs, hm, ha, -⟩ := step_moved h
  exact ⟨evs, hm.trace, ha⟩

/-- Settles O49: the image is kept or delivered in canonical form, and the sequencer stays well-formed. -/
theorem everyStepKeepsTheInvariant : Obligations.EveryStepKeepsTheInvariant := by
  intro s t hinv h
  obtain ⟨hi, hw⟩ := (inv_iff s).mp hinv
  exact (inv_iff t).mpr ⟨imageWf_of_kept hi (step_imageKept h), step_seqWf hw h⟩

/-- Settles O50: every line, item and operation finds the registers it reads. -/
theorem noStepReadsAnUnwrittenRegister : Obligations.NoStepReadsAnUnwrittenRegister := by
  intro s name hinv
  obtain ⟨-, hw⟩ := (inv_iff s).mp hinv
  exact step_written hw name

/-- Settles O7: format by format, the placed state is one whose step takes the words' instruction. -/
theorem placedWordsRunNext : Obligations.PlacedWordsRunNext := by
  intro s i w henc hwf
  cases w with
  | request q => exact step_placed_request s (decodeRequest_of_encode henc)
  | entry e =>
    have hi : i = decodeEntry e := by
      cases i <;> cases henc
      exact (decodeEntry_entryWord _ _ _).symm
    subst hi
    exact step_item rfl rfl rfl (fetchItem_placed_entry _ s e)
  | desc d =>
    have hi : i = decodeDesc d := by
      cases i <;> cases henc
      exact (decodeDesc_descWord _ _).symm
    subst hi
    exact step_item rfl rfl rfl (fetchItem_placed_desc _ s d)
  | hdr h =>
    have hi : i = .hdr h := by cases i <;> cases henc; rfl
    subst hi
    exact step_item rfl rfl rfl (fetchItem_placed_hdr _ s h)
  | command w =>
    have hi : i = .cwMw ∨ i = .cwMr ∨ i = .cwRr := by cases i <;> cases henc <;> simp
    rw [placeWords_command_requests]
    exact step_placed_command s hi (decodeCommand_of_wellFormed henc hwf)

/-- Settles O45: the loader's chance in front of the line makes no event, and the line at most those of its
kind. -/
theorem aLineMakesAtMostOneEvent : Obligations.ALineMakesAtMostOneEvent := by
  intro c s t op upc stack hs h
  rw [seqStep_running c hs] at h
  obtain ⟨evs, htrace, -, hevs⟩ := lineAt_events h
  rw [State.tick_trace] at htrace
  exact ⟨evs, htrace, hevs⟩

/-- Settles O46: `wait_ready` and `write` write `RA`, `RD`, `RV`, `PCNT` and `ST` only, and a return goes to a
place behind a call or ends the operation. -/
theorem calleesKeepTheReplayRegisters : Obligations.CalleesKeepTheReplayRegisters := by
  intro c s t op upc stack hs hp h hrun
  rw [seqStep_running c hs] at h
  rcases callee_keeps hp h with hidle | ⟨⟨hmi, hmc, hpo, hec⟩, hei, hep⟩
  · exact absurd hidle hrun
  · rw [State.tick_wr] at hmi hmc hpo hec hei hep
    exact ⟨hmi, hmc, hpo, hec, hei, hep⟩

/-- Settles O52: every call leads to a procedure that can stand one deeper. -/
theorem returnStackHoldsAtMostThreeLabels : Obligations.ReturnStackHoldsAtMostThreeLabels := by
  intro s op upc stack hinv hs
  obtain ⟨-, hw⟩ := (inv_iff s).mp hinv
  obtain ⟨hc, -, -⟩ := (seqWf_running hs).mp hw
  exact (chainOk_length hc).trans upc.proc.depth_le

/-- Settles O53: the lines reach what the operation's body answers, and the return to no caller is its end. -/
theorem linesRunToTheOperationsOutcome : Obligations.LinesRunToTheOperationsOutcome := by
  intro i s hi hs
  obtain ⟨l, hl, hb⟩ := begin_idle i s hs hi
  obtain ⟨n, hn, hrun⟩ := opBody_lines Config.cfg hl { s with resp := none }
  refine ⟨_, n, hb, hn, ?_⟩
  calc seqRun Config.cfg n (goto i [] l { s with resp := none })
      = andThen (opBody Config.cfg i { s with resp := none }) fun p => .next (finish p.1 p.2) := hrun 0
    _ = exec i s := by rw [exec_hostRequest i s hi, hostOp_idle _ _ hs]

/-- Settles O5: with no second delivery to come the grain is the state's own, and otherwise it is a line. -/
theorem stepRunsTheRequestedOperation : Obligations.StepRunsTheRequestedOperation := by
  intro s q rest i hs hd hr hq
  rw [step_idle hs hd]
  refine ⟨fun hg hown => ?_, fun hline => ?_⟩
  · exact stepIdle_operation hr hq ((State.stepGrain_own hown).trans hg)
  · exact stepIdle_line hr hq (State.stepGrain_line hline)

/-- Settles O6: a due delivery first, then by the grain and by what the line fetches. -/
theorem stepRunsTheFetchedItemOrTheLine : Obligations.StepRunsTheFetchedItemOrTheLine := by
  intro s op upc stack hs
  refine ⟨fun bytes hd => by simp only [step, hd], fun hd => ?_⟩
  rw [step_running hs hd, ← seqStep_running Config.cfg hs]
  refine ⟨fun hg hown => ?_, fun hline => stepRunning_line (State.stepGrain_line hline)⟩
  have hop := (State.stepGrain_own hown).trans hg
  refine ⟨fun i hx => ?_, fun f hx => ?_, fun hx => stepRunning_noItem hop hx⟩
  · rw [stepRunning_item hop hx, andThen_next]
  · rw [stepRunning_item hop hx, andThen_fault]

/-- Settles O48: at reset there is no image, and the sequencer is idle without register values. -/
theorem resetMeetsTheInvariant : Obligations.ResetMeetsTheInvariant :=
  (inv_iff State.reset).mpr ⟨rfl, rfl⟩
end

section
/-! SUPPORT and PROOFS. The memory's statements (spec/20_memory.md): what a step does to the image, and what a
fetch of the image gives. -/

namespace Sys2Proof.Machine

/-! ## What a kept image is -/

section

variable {s t : State}

theorem imageKept.present {m : Memory} (h : imageKept s t) (hm : s.fw = some m) : t.fw = some m := by
  rcases h with hsame | ⟨habsent, -, -⟩
  · exact hsame.trans hm
  · rw [hm] at habsent
    cases habsent

/-- Where there was no image and now is one, the pending delivery's is there and that delivery is gone. -/
theorem imageKept.delivered (h : imageKept s t) (hs : s.fw = none) (ht : t.fw ≠ none) :
    ∃ d, s.fwl = some d ∧ t.fwl = none ∧ t.fw = some (Memory.load d.bytes) := by
  rcases h with hsame | ⟨-, hgone, d, hpending, hload⟩
  · exact absurd (hsame.trans hs) ht
  · exact ⟨d, hpending, hgone, hload⟩

end

end Sys2Proof.Machine

open Sys2Proof Sys2Proof.Machine

/-! ## The statements -/

/-- Settles O42: every step keeps the image or delivers the pending one where there was none. -/
theorem aPresentImageNeverChanges : Obligations.APresentImageNeverChanges := by
  intro s t h
  have hkept : imageKept s t := step_imageKept h
  exact ⟨fun m => hkept.present, hkept.delivered⟩

/-- Settles O28: what was delivered is what is fetched, and beyond it there is no byte. -/
theorem imageFetchGivesTheByteOrTheFault : Obligations.ImageFetchGivesTheByteOrTheFault := by
  intro bytes o
  refine ⟨fun ho => memRead_some ?_, fun ho => memRead_none ?_, memRead_absent o⟩
  · rw [Memory.read_load, List.getElem?_eq_getElem ho]
  · rw [Memory.read_load, List.getElem?_eq_none ho]

/-- Settles O29: the fetched position is its two bytes in big-endian order. -/
theorem positionBytesAreBigEndian : Obligations.PositionBytesAreBigEndian :=
  ⟨decodeDesc_descWord 0x0005#16 3#8,
    fun _ _ hi lo _ hhi hlo hcount => ⟨bigEndian hi lo, fetchDesc_some hhi hlo hcount, bigEndian_toNat hi lo⟩⟩

/-- Settles O30: the first four bytes, in two big-endian pairs, are all that the fetch of an entry takes. -/
theorem entryOperandsAreBigEndian : Obligations.EntryOperandsAreBigEndian := by
  intro m o b0 b1 b2 b3 h0 h1 h2 h3
  exact ⟨_, _, fetchEntry_some h0 h1 h2 h3, bigEndian_toNat b0 b1, bigEndian_toNat b2 b3⟩
end

section
/-! SUPPORT and PROOFS. The encoding's statements (spec/30_encoding.md): the encoder and the decoder invert each
other, what a request word's fields decide, the checks of `APPLY_MODE` in their order (R115), and the lines that
consume the count byte, a descriptor and the command words. -/

namespace Sys2Proof

/-! ## Request words by their fields -/

section

variable {c : Cfg} {q : Q64} {i j : Instr}

/-- `arg0` is its two halves side by side (30_encoding.md R93). -/
theorem reqArg0_eq_append_iff (q : Q64) (x y : W16) :
    reqArg0 q = x ++ y ↔ reqArg0Hi q = x ∧ reqArg0Lo q = y := by
  have hhi : reqArg0Hi q = (reqArg0 q).extractLsb' 16 16 := by
    rw [reqArg0, BitVec.extractLsb'_extractLsb'_of_le (by decide)]; rfl
  have hlo : reqArg0Lo q = (reqArg0 q).extractLsb' 0 16 := by
    rw [reqArg0, BitVec.extractLsb'_extractLsb'_of_le (by decide)]; rfl
  have hcut : reqArg0 q = reqArg0Hi q ++ reqArg0Lo q := by
    rw [hhi, hlo, BitVec.extractLsb'_append_extractLsb'_eq_extractLsb' (by rfl)]
    exact BitVec.extractLsb'_eq_self.symm
  rw [hcut]
  exact append_eq_append _ _ _ _

/-- A request word is put together from the fields it has, its reserved one being 0 (30_encoding.md R91). -/
theorem requestWord_eq_iff (op : BitVec 4) (a1 : W16) (a0 : W32) :
    requestWord op a1 a0 = q ↔ reqOp q = op ∧ reqRsv q = 0#12 ∧ reqArg1 q = a1 ∧ reqArg0 q = a0 := by
  constructor
  · rintro rfl
    simp
  · rintro ⟨rfl, hrsv, rfl, rfl⟩
    exact (hrsv ▸ request_fields q).symm

theorem provided_eq_instr {zero : Bool} : provided zero j = .instr i ↔ zero = true ∧ j = i := by
  cases zero <;> simp [provided]

/-- Every word that decodes is the encoding of what it decodes to: under each assigned `op` the check that the
row's unused fields are 0 leaves no field open but the operands. -/
theorem encode_of_decodeRequest (c : Cfg) (h : decodeRequest q = .instr i) :
    encode c i = some (.request q) := by
  unfold decodeRequest at h
  split at h
  case isFalse => cases h
  case isTrue hrsv =>
    unfold decodeByOp at h
    split at h
    case h_10 => cases h
    all_goals
      rename_i hop
      obtain ⟨hzero, rfl⟩ := provided_eq_instr.mp h
      simp only [Bool.and_eq_true, beq_iff_eq] at hzero
      simp [encode, requestWord_eq_iff, reqArg0_eq_append_iff, BitVec.toNat_eq (x := reqOp q), hop, hrsv, hzero]

theorem decodeRequest_eq_instr_iff (c : Cfg) : decodeRequest q = .instr i ↔ encode c i = some (.request q) :=
  ⟨encode_of_decodeRequest c, Machine.decodeRequest_of_encode⟩

/-! ## Rows as masks and matches (30_encoding.md R93) -/

/-- A row without operands: every bit is given. -/
theorem requestWord_fixed_iff (op : BitVec 4) :
    requestWord op 0#16 0#32 = q ↔ q &&& 0xFFFFFFFFFFFFFFFF#64 = requestWord op 0#16 0#32 := by
  rw [show 0xFFFFFFFFFFFFFFFF#64 = BitVec.allOnes 64 from rfl, BitVec.and_allOnes, eq_comm]

/-- A row whose operand is `arg0`. -/
theorem requestWord_arg0_iff (op : BitVec 4) (x : W32) :
    requestWord op 0#16 x = q ↔ q &&& 0xFFFFFFFF00000000#64 = requestWord op 0#16 0#32 ∧ x = reqArg0 q := by
  have hmask := request_and q 0xFFFFFFFF00000000#64 (requestWord op 0#16 0#32) (.allOnes 4) op (.allOnes 12) 0#12
    (.allOnes 16) 0#16 0#16 0#16 0#16 0#16 rfl rfl
  simp only [BitVec.and_allOnes, BitVec.and_zero, and_true] at hmask
  rw [requestWord_eq_iff, hmask, eq_comm (a := x), and_assoc, and_assoc]

/-- The row of `DSP_WRITE`: the upper half of `arg0` is 0. -/
theorem requestWord_dspWrite_iff (a d : W16) :
    requestWord 0x2#4 d (0#16 ++ a) = q ↔
      q &&& 0xFFFF0000FFFF0000#64 = 0x2000000000000000#64 ∧ a = reqArg0Lo q ∧ d = reqArg1 q := by
  have hmask := request_and q 0xFFFF0000FFFF0000#64 0x2000000000000000#64 (.allOnes 4) 0x2#4 (.allOnes 12) 0#12
    0#16 0#16 (.allOnes 16) 0#16 0#16 0#16 rfl rfl
  simp only [BitVec.and_allOnes, BitVec.and_zero, true_and, and_true] at hmask
  rw [requestWord_eq_iff, reqArg0_eq_append_iff, hmask, eq_comm (a := a), eq_comm (a := d)]
  tauto

/-- The row of `DSP_READ`: `arg1` and the upper half of `arg0` are 0. -/
theorem requestWord_dspRead_iff (r : W16) :
    requestWord 0x3#4 0#16 (0#16 ++ r) = q ↔
      q &&& 0xFFFFFFFFFFFF0000#64 = 0x3000000000000000#64 ∧ r = reqArg0Lo q := by
  have hmask := request_and q 0xFFFFFFFFFFFF0000#64 0x3000000000000000#64 (.allOnes 4) 0x3#4 (.allOnes 12) 0#12
    (.allOnes 16) 0#16 (.allOnes 16) 0#16 0#16 0#16 rfl rfl
  simp only [BitVec.and_allOnes, BitVec.and_zero, and_true] at hmask
  rw [requestWord_eq_iff, reqArg0_eq_append_iff, hmask, eq_comm (a := r)]
  tauto

/-! ## Reserved words (30_encoding.md R109) -/

/-- `op` selects no row, the reserved field is not 0, or a field that the row requires to be 0 is not. -/
def reservedRequest (q : Q64) : Prop :=
  (reqOp q).toNat = 0 ∨ 10 ≤ (reqOp q).toNat ∨ reqRsv q ≠ 0#12 ∨
    ((reqOp q).toNat ∈ [1, 5, 7, 8, 9] ∧ (reqArg1 q ≠ 0#16 ∨ reqArg0 q ≠ 0#32)) ∨
    ((reqOp q).toNat = 2 ∧ reqArg0Hi q ≠ 0#16) ∨
    ((reqOp q).toNat = 3 ∧ (reqArg1 q ≠ 0#16 ∨ reqArg0Hi q ≠ 0#16)) ∨
    ((reqOp q).toNat ∈ [4, 6] ∧ reqArg1 q ≠ 0#16)

/-- The encoder makes no reserved word. -/
theorem not_reservedRequest_of_encode (h : encode c i = some (.request q)) : ¬ reservedRequest q := by
  cases i <;> cases h <;> simp [reservedRequest]

/-- So a reserved word, which encodes nothing, decodes to nothing. -/
theorem decodeRequest_of_reserved (h : reservedRequest q) : ∃ why, decodeRequest q = .reject why := by
  cases hq : decodeRequest q with
  | reject why => exact ⟨why, rfl⟩
  | instr i => exact absurd h (not_reservedRequest_of_encode (encode_of_decodeRequest Config.cfg hq))

end

end Sys2Proof

namespace Sys2Proof.Machine

/-! ## A refused request, and an operation whose body faults -/

theorem stepIdle_malformed {s : State} {q : Q64} {rest : List Q64} {why : DecodeReject}
    (hr : s.requests = q :: rest) (hq : decodeRequest q = .reject why) :
    stepIdle s = .refused (.malformedRequest q) := by
  simp only [stepIdle, hr, hq]

theorem exec_of_fault {i : Instr} {s : State} {f : Fault} (h : i.isHostRequest = true) (hs : s.seq = .idle)
    (hp : opBody Config.cfg i { s with resp := none } = .fault f) : exec i s = .fault f := by
  rw [exec_hostRequest i s h, hostOp_idle _ _ hs, hp, andThen_fault]

/-! ## Lines that write a command word -/

section

variable {s : State} {op : Instr} {stack : List Label} {a : RegAddr} {v : W32} {next : Label}

/-- One write, then the next line or the return of its error. -/
theorem writeLine_event (op : Instr) (stack : List Label) (a : RegAddr) (v : W32) (next : Label) (s : State) :
    Moved s [.tw a v s.answer.err?] (writeLine op stack a v next s) := by
  have hr : Ran s 1 [.tw a v s.answer.err?] (s.twrite a v) := (Ran.refl s).twrite a v
  unfold writeLine
  split
  · exact hr.retLine _ _ _
  · exact hr.goto _ _ _

theorem writeLine_ok {x : W32} (h : s.answer = .ok x) :
    writeLine op stack a v next s = goto op stack next (s.twrite a v) := by
  simp only [writeLine, h]

theorem writeLine_err {e : IoErr} (h : s.answer = .err e) :
    writeLine op stack a v next s = retLine op stack (.err (.io e)) (s.twrite a v) := by
  simp only [writeLine, h]

/-- `l` is a line that writes the command word `i`, whose value is `w`, and `l'` the line behind it
(30_encoding.md R103, R104, R105). -/
def writesCommand (c : Cfg) (i : Instr) (w : W16) (l l' : Label) : Prop :=
  (i = .cwMw ∧ w = c.cwMw ∧ l = .dw .l3 ∧ l' = .dw .l4) ∨
    (i = .cwMr ∧ w = c.cwMr ∧ l = .dr .l3 ∧ l' = .dr .l4) ∨
    (i = .cwRr ∧ w = c.cwRr ∧ l = .dr .l6 ∧ l' = .dr .l7) ∨
    (i = .cwRr ∧ w = c.cwRr ∧ l = .dr .l9 ∧ l' = .dr .l10)

/-- At its line a command word is written to the command register. -/
theorem exec_commandWord {i : Instr} {w : W16} {l l' : Label} (h : writesCommand Config.cfg i w l l')
    (hs : s.seq = .running op l stack) :
    exec i s = .next (writeLine op stack Config.cfg.regCmd (zext32 w) l' s.tick) := by
  rcases h with ⟨rfl, rfl, rfl, rfl⟩ | ⟨rfl, rfl, rfl, rfl⟩ | ⟨rfl, rfl, rfl, rfl⟩ | ⟨rfl, rfl, rfl, rfl⟩
  · simp only [exec, execCwMw, hs]; rfl
  · simp only [exec, execCwMr, hs]; rfl
  · simp only [exec, execCwRr, hs]; rfl
  · simp only [exec, execCwRr, hs]; rfl

end

/-! ## Lines that take the count byte and a descriptor -/

section

variable {s : State} {op : Instr} {stack : List Label}

theorem exec_hdr_at (n : Byte) (hs : s.seq = .running op (.am .l2) stack) :
    exec (.hdr n) s = .next (goto op stack (.am .l3) (s.tick.setMC n)) := by
  simp only [exec, execHdr, hs]

theorem exec_hdr_elsewhere (n : Byte) (h : ∀ op stack, s.seq ≠ .running op (.am .l2) stack) :
    exec (.hdr n) s = .refused .notAtItsLine := by
  rw [exec, execHdr]
  split
  · rename_i hs
    exact absurd hs (h _ _)
  · rfl

theorem exec_desc_at (p : W16) (n : Byte) (hs : s.seq = .running op (.am .l5) stack) :
    exec (.desc p n) s = .next (goto op stack (.am .l6) (s.tick.setDesc p n)) := by
  simp only [exec, execDesc, hs]

theorem exec_desc_elsewhere (p : W16) (n : Byte) (h : ∀ op stack, s.seq ≠ .running op (.am .l5) stack) :
    exec (.desc p n) s = .refused .notAtItsLine := by
  rw [exec, execDesc]
  split
  · rename_i hs
    exact absurd hs (h _ _)
  · rfl

end

/-! ## `APPLY_MODE`, check by check (30_encoding.md R115) -/

section

variable {s : State} {m : Memory} {index : W32}

/-- An image without a count byte faults at AM.2. -/
theorem applyMode_empty (c : Cfg) (index : W32) (hm : s.fw = some m) (h0 : Memory.read m 0 = none) :
    applyMode c index s = .fault (.imgFetch 0) := by
  rw [applyMode_present c index hm, countAndReplay_empty c index ((Ran.toCount s index).fw_present hm) h0]

/-- With an image that has a count byte, AM.3 decides on it before anything is performed. -/
theorem applyMode_count (c : Cfg) (index : W32) {n : Byte} (hm : s.fw = some m) (hn : Memory.read m 0 = some n) :
    ∃ u, Ran s 0 [] u ∧ applyMode c index s =
      if n.toNat < index.toNat then .next (ret (.err .invalidMode) u) else lookUpAndReplay c index u := by
  have hcount := Ran.toCount s index
  refine ⟨_, hcount.trans (Ran.toIndexCheck _ n), ?_⟩
  rw [applyMode_present c index hm, countAndReplay_some c index (hcount.fw_present hm) hn]

/-- `APPLY_MODE` that answers before its first event. -/
theorem exec_applyMode_silent {r : Result} {u : State} (hs : s.seq = .idle)
    (hp : opBody Config.cfg (.applyMode index) { s with resp := none } = .next (ret r u))
    (hr : Ran { s with resp := none } 0 [] u) :
    ∃ t, exec (.applyMode index) s = .next t ∧ t.trace = s.trace ∧ t.resp = some (respond r) ∧ OpFrame s t := by
  have h := exec_of_ran rfl hs (by simp) hp (hr.setST r)
  rwa [List.append_nil] at h

end

end Sys2Proof.Machine

open Sys2Proof Sys2Proof.Machine

/-! ## The statements -/

/-- Settles O2: format by format, the decoder reads back what the encoder wrote. -/
theorem decodeOfEncodeIsTheInstruction : Obligations.DecodeOfEncodeIsTheInstruction := by
  intro c i w hwf henc
  cases w with
  | request q => exact decodeRequest_of_encode henc
  | entry e =>
    cases i <;> cases henc
    exact congrArg Decoded.instr (decodeEntry_entryWord _ _ _)
  | desc d =>
    cases i <;> cases henc
    exact congrArg Decoded.instr (decodeDesc_descWord _ _)
  | hdr h =>
    cases i <;> cases henc
    rfl
  | command w => exact decodeCommand_of_wellFormed henc hwf

/-- Settles O3: a word decodes to a row's instruction exactly when it is that instruction's encoding, whose given
bits are the row's mask and match. -/
theorem requestRowsAreTheirMasksAndMatches : Obligations.RequestRowsAreTheirMasksAndMatches := by
  intro q
  simp only [decodeRequest_eq_instr_iff Config.cfg, encode, Option.some.injEq, Words.request.injEq]
  exact ⟨requestWord_fixed_iff 0x1#4, requestWord_dspWrite_iff, requestWord_dspRead_iff,
    requestWord_arg0_iff 0x4#4, requestWord_fixed_iff 0x5#4, requestWord_arg0_iff 0x6#4,
    requestWord_fixed_iff 0x7#4, requestWord_fixed_iff 0x8#4, requestWord_fixed_iff 0x9#4⟩

/-- Settles O4: a reserved word decodes to no instruction, and the idle step refuses such a word. -/
theorem reservedRequestsAreRefused : Obligations.ReservedRequestsAreRefused := by
  intro s q rest hs hd hr hres
  obtain ⟨why, hq⟩ := decodeRequest_of_reserved (q := q) hres
  rw [step_idle hs hd, stepIdle_malformed hr hq]

/-- Settles O19: the image is present all along, so each check decides on its own bytes, and what fails it is
answered before anything is performed. -/
theorem applyModeChecksInOrder : Obligations.ApplyModeChecksInOrder := by
  intro s m index hs hm hw answers
  refine ⟨fun hsize => ?_, fun hne => if_neg hne, if_pos rfl, fun n hn => ?_⟩
  · have hempty : Memory.read m 0 = none := Memory.read_of_le m 0 hw hsize.le
    exact exec_of_fault rfl hs (applyMode_empty (s := { s with resp := none }) _ index hm hempty)
  obtain ⟨u, hu, hbody⟩ := applyMode_count Config.cfg index (s := { s with resp := none }) hm hn
  refine ⟨fun hlt => exec_applyMode_silent hs (hbody.trans (if_pos hlt)) hu, fun hle => ?_⟩
  rw [if_neg hle.not_gt] at hbody
  cases hd : descOff Config.cfg index with
  | none => exact exec_applyMode_silent hs (hbody.trans (lookUpAndReplay_none _ index u hd)) hu.tick
  | some d =>
    have hpresent := hu.fw_present hm
    refine ⟨fun hshort => ?_, fun b0 b1 b2 h0 h1 h2 => ?_⟩
    · exact exec_of_fault rfl hs (hbody.trans (lookUpAndReplay_short _ index hpresent hw hd hshort))
    have hdesc := hu.tick.tick.setDesc (bigEndian b0 b1) b2
    rw [lookUpAndReplay_some _ index hpresent hd h0 h1 h2] at hbody
    rw [← regionEnd_bigEndian]
    refine ⟨fun hout => ?_, fun hin => ?_⟩
    · exact exec_applyMode_silent hs (hbody.trans (checkAndReplay_outside _ (hdesc.fw_present hm) hout)) hdesc.tick
    · obtain ⟨p, hp, -⟩ := checkAndReplay_inside Config.cfg (hdesc.fw_present hm) hw hin
      have hend : opBody Config.cfg (.applyMode index) { s with resp := none } = .next p := hbody.trans hp
      exact ⟨_, exec_of_body rfl hs hend, opBody_frame s _ p (by simp) hend⟩

/-- Settles O27: each of the four lines is one write to the command register, with the loader's chance in front
of it. -/
theorem commandWordsAreWrittenAtTheirLines : Obligations.CommandWordsAreWrittenAtTheirLines := by
  intro s i w l l' op stack hrow hs
  have hmoved := (writeLine_event op stack Config.cfg.regCmd (zext32 w) l' s.tick).of_tick
  rw [State.tick_answer] at hmoved
  refine ⟨_, exec_commandWord hrow hs, hmoved.trace, hmoved.frame, fun x hx => ?_, ?_⟩
  · rw [writeLine_ok ((State.tick_answer s).trans hx)]
    exact ⟨rfl, State.tick_wr s, State.tick_resp s⟩
  · rintro e he rfl
    rw [writeLine_err ((State.tick_answer s).trans he)]
    exact ⟨rfl, rfl, rfl⟩

/-- Settles O1: four of the words are encodings, two of them meet the rules of R109, and the image's items are
put together from their fields. -/
theorem sampleWordsDecodeAsTheTablesSay : Obligations.SampleWordsDecodeAsTheTablesSay := by
  have henc : ∀ {i : Instr} {q : Q64}, encode Config.cfg i = some (.request q) → decodeRequest q = .instr i :=
    decodeRequest_of_encode
  exact ⟨henc rfl, henc rfl, henc rfl, henc rfl, by decide, by decide,
    decodeEntry_entryWord 0x0102#16 0x0304#16 0x05#8, decodeDesc_descWord 0x0005#16 3#8, rfl⟩

/-- Settles O26: each item goes to its registers at its line, and is refused at every other. -/
theorem headerAndDescriptorLoadTheirRegisters : Obligations.HeaderAndDescriptorLoadTheirRegisters := by
  intro s
  refine ⟨fun n op stack hs => ?_, exec_hdr_elsewhere, fun p n op stack hs => ?_, exec_desc_elsewhere⟩
  · have hmoved := ((Ran.refl s).tick.setMC n).goto op stack (.am .l3)
    exact ⟨_, exec_hdr_at n hs, rfl, by simp [goto], by simp [goto], by simp [goto], hmoved.frame⟩
  · have hmoved := ((Ran.refl s).tick.setDesc p n).goto op stack (.am .l6)
    exact ⟨_, exec_desc_at p n hs, rfl, by simp [goto], by simp [goto], by simp [goto], hmoved.frame⟩
end

section
/-! SUPPORT and PROOFS. The engine's statements (spec/40_command_poll.md): the poll and its laws (R131 to R133), the
abort table of a DSP write (R135, R136), and the phases of a DSP read (R140 to R143). -/

namespace Sys2Proof.Machine

/-! ## What a response tells of a result -/

theorem respond_eq_respBusy_iff {r : Result} : respond r = respBusy ↔ r = .err .busy := by
  cases r with
  | ok p => simp [respond, respBusy, stCode]
  | err k => cases k <;> simp [respond, respBusy, stCode, payload, ioOf]

theorem respond_eq_respIo_iff {r : Result} {e : IoErr} : respond r = respIo e ↔ r = .err (.io e) := by
  cases r with
  | ok p => simp [respond, respIo, stCode]
  | err k => cases k <;> simp [respond, respIo, stCode, payload, ioOf]

/-! ## `WAIT_READY` -/

@[simp] theorem statusEvents_length (c : Cfg) (l : List Answer) : (statusEvents c l).length = l.length :=
  List.length_map _

section

variable {c : Cfg} {n : Nat} {l : List Answer} {r : Result}

/-- A wait makes no more than its bound of status reads (40_command_poll.md R133(a)). -/
theorem WaitEnd.length_le (h : WaitEnd c n l r) : l.length ≤ n := by
  cases h with
  | idle l v hl hn hv => simpa using hn
  | failed l e hl hn => simpa using hn
  | exhausted l hl hn => exact hn.le

/-- The status reads decide the result. -/
theorem WaitEnd.result_eq {r' : Result} (h : WaitEnd c n l r) (h' : WaitEnd c n l r') : r = r' :=
  (h.unique (x := []) h' rfl).2

/-- `Busy` comes exactly when all reads were busy (40_command_poll.md R133(b)). -/
theorem WaitEnd.eq_busy_iff (h : WaitEnd c n l r) :
    r = .err .busy ↔ l.length = n ∧ ∀ a ∈ l, isBusy c a = true := by
  constructor
  · rintro rfl
    cases h with
    | exhausted l hl hn => exact ⟨hn, hl⟩
  · rintro ⟨hn, hl⟩
    exact h.result_eq (.exhausted l hl hn)

/-- `Ok` comes exactly behind busy reads and an idle one (40_command_poll.md R133(c)). -/
theorem WaitEnd.eq_ok_iff (h : WaitEnd c n l r) :
    r = .ok none ↔ ∃ k v, l = k ++ [Answer.ok v] ∧ busy c v = false ∧ ∀ a ∈ k, isBusy c a = true := by
  constructor
  · rintro rfl
    cases h with
    | idle k v hk hn hv => exact ⟨k, v, rfl, hv, hk⟩
  · rintro ⟨k, v, rfl, hv, hk⟩
    have hn : k.length < n := by simpa using h.length_le
    exact h.result_eq (.idle k v hk hn hv)

/-- A transport error comes exactly behind busy reads and the failed one (40_command_poll.md R133(e)). -/
theorem WaitEnd.eq_io_iff (h : WaitEnd c n l r) (e : IoErr) :
    r = .err (.io e) ↔ ∃ k, l = k ++ [Answer.err e] ∧ ∀ a ∈ k, isBusy c a = true := by
  constructor
  · rintro rfl
    cases h with
    | failed k e hk hn => exact ⟨k, rfl, hk⟩
  · rintro ⟨k, rfl, hk⟩
    have hn : k.length < n := by simpa using h.length_le
    exact h.result_eq (.failed k e hk hn)

/-- A wait's `Ok` carries no payload, so its response tells it apart. -/
theorem WaitEnd.respond_eq_respOk_iff (h : WaitEnd c n l r) : respond r = respOk ↔ r = .ok none := by
  cases h with
  | idle l v hl hn hv => simp
  | failed l e hl hn => simp [respond, respOk, stCode]
  | exhausted l hl hn => simp [respond, respOk, stCode]

end

section

variable {s t : State} {r : Result} {l : List Answer}

/-- `WAIT_READY` on known answers. -/
theorem exec_waitReady_of (hs : s.seq = .idle) (hw : WaitEnd Config.cfg 11 l r) (hl : s.willAnswer l) :
    ∃ t, exec .waitReady s = .next t ∧ t.trace = s.trace ++ statusEvents Config.cfg l ∧
      t.resp = some (respond r) ∧ OpFrame s t := by
  obtain ⟨rfl, hran⟩ := waitReady_of (s := { s with resp := none }) hw hl
  exact exec_of_ran rfl hs (by simp) rfl hran

/-- `WAIT_READY` on whatever the device answers. -/
theorem exec_waitReady_ends (hs : s.seq = .idle) :
    ∃ t l r, exec .waitReady s = .next t ∧ WaitEnd Config.cfg 11 l r ∧ s.willAnswer l ∧
      t.trace = s.trace ++ statusEvents Config.cfg l ∧ t.resp = some (respond r) := by
  obtain ⟨l, hw, hl, -⟩ := waitReady_ran Config.cfg (Ran.refl s)
  obtain ⟨t, hexec, htrace, hresp, -⟩ := exec_waitReady_of hs hw hl
  exact ⟨t, l, _, hexec, hw, hl, htrace, hresp⟩

/-- Line by line `WAIT_READY` ends where it ends at once, within `1 + 3*11` lines (40_command_poll.md R133(d)). -/
theorem exec_waitReady_lines (hs : s.seq = .idle) (h : exec .waitReady s = .next t) :
    ∃ b n, begin .waitReady s = .next b ∧ n ≤ 1 + 3 * 11 ∧ seqRun Config.cfg n b = .next t := by
  obtain ⟨l, hl, hb⟩ := begin_idle .waitReady s hs rfl
  cases hl
  obtain ⟨n, hn, hrun⟩ := waitReady_lines Config.cfg .waitReady [] { s with resp := none }
  refine ⟨_, n, hb, hn, ?_⟩
  rw [← h, exec_of_body rfl hs rfl]
  exact hrun 0

end

/-! ## `DSP_WRITE` -/

/-- The request word of `DSP_WRITE`, field by field (30_encoding.md R93). -/
theorem decodeRequest_dspWriteWord (a d : W16) :
    decodeRequest (0x2#4 ++ 0#12 ++ d ++ 0#16 ++ a) = .instr (.dspWrite a d) := by
  have hword : (0x2#4 ++ 0#12 ++ d ++ 0#16 ++ a : Q64) = requestWord 0x2#4 d (0#16 ++ a) :=
    BitVec.append_assoc
  rw [hword]
  exact decodeRequest_of_encode (c := Config.cfg) rfl

section

variable {s : State} {a d : W16} {r : Result} {l : List Answer} {evs : List Event}

/-- `DSP_WRITE` on known answers. -/
theorem exec_dspWrite_of (hs : s.seq = .idle) (hw : WriteEnd Config.cfg a d l r evs) (hl : s.willAnswer l) :
    ∃ t, exec (.dspWrite a d) s = .next t ∧ t.trace = s.trace ++ evs ∧ t.resp = some (respond r) ∧
      OpFrame s t := by
  obtain ⟨rfl, hran⟩ := write_of (s := { s with resp := none }) hw hl
  exact exec_of_ran rfl hs (by simp) rfl hran

/-- `DSP_WRITE` whose three writes succeed ends as its wait does. -/
theorem exec_dspWrite_waited {x y z : W32} (hs : s.seq = .idle) (hw : WaitEnd Config.cfg 11 l r)
    (hl : s.willAnswer (.ok x :: .ok y :: .ok z :: l)) :
    ∃ t, exec (.dspWrite a d) s = .next t ∧
      t.trace = s.trace ++ [evA Config.cfg a, evD Config.cfg d, evC Config.cfg Config.cfg.cwMw] ++
        statusEvents Config.cfg l ∧
      t.resp = some (respond r) ∧ OpFrame s t := by
  rw [List.append_assoc]
  exact exec_dspWrite_of hs (.waited x y z l r hw) hl

end

/-! ## `DSP_READ` -/

/-- A phase of `read` behind a wait: a write to the address register, one to the command register, and the next
wait (40_command_poll.md R140). -/
def phaseThen (c : Cfg) (x w : W16) (k : State → Result × State) (s : State) : Result × State :=
  writeThen c.regAddr (zext32 x) s fun s => writeThen c.regCmd (zext32 w) s fun s => waitThen c s k

/-- `read` is its first wait, three phases, and the data-out read. -/
theorem read_eq_phases (c : Cfg) (r : W16) (s : State) :
    read c r s = waitThen c (s.tick.setRA r) (phaseThen c r c.cwMr
      (phaseThen c Config.idxHi c.cwRr (phaseThen c Config.idxLo c.cwRr (readOut c)))) := rfl

/-- `read` from `s` comes, having made the events `evs`, to a wait that it follows with `k`, and the answers `rest`
are then to come. -/
def ReadWaits (c : Cfg) (r : W16) (s : State) (k : State → Result × State) (evs : List Event)
    (rest : List Answer) : Prop :=
  ∃ n t, read c r s = waitThen c t k ∧ Ran s n evs t ∧ t.willAnswer rest

section

variable {c : Cfg} {r : W16} {s : State} {k : State → Result × State} {evs : List Event} {l rest : List Answer}

theorem readWaits_first (c : Cfg) (r : W16) (h : s.willAnswer rest) :
    ReadWaits c r s (phaseThen c r c.cwMr
      (phaseThen c Config.idxHi c.cwRr (phaseThen c Config.idxLo c.cwRr (readOut c)))) [] rest :=
  ⟨0, _, read_eq_phases c r s, (Ran.refl s).tick.setRA r,
    (State.willAnswer_congr rest (State.tick_script s) (State.tick_drawn s)).mpr h⟩

/-- From one wait to the next. -/
theorem ReadWaits.phase {x w : W16} {y z : W32}
    (h : ReadWaits c r s (phaseThen c x w k) evs (l ++ .ok y :: .ok z :: rest)) (hw : WaitEnd c 11 l (.ok none)) :
    ReadWaits c r s k (evs ++ statusEvents c l ++ [evA c x, evC c w]) rest := by
  obtain ⟨n, t, hread, hran, hans⟩ := h
  obtain ⟨t1, h1, hran1, hans1⟩ := waitThen_of (k := phaseThen c x w k) hran hw hans
  obtain ⟨t2, h2, hran2, hans2⟩ := writeThen_of (a := c.regAddr) (v := zext32 x)
    (k := fun s => writeThen c.regCmd (zext32 w) s fun s => waitThen c s k) hran1 hans1
  obtain ⟨t3, h3, hran3, hans3⟩ := writeThen_of (a := c.regCmd) (v := zext32 w) (k := fun s => waitThen c s k)
    hran2 hans2
  rw [List.append_assoc] at hran3
  exact ⟨_, t3, hread.trans (h1.trans (h2.trans h3)), hran3, hans3⟩

end

section

variable {s : State} {r : W16} {k : State → Result × State} {evs : List Event} {l : List Answer}

/-- The data-out read on a known answer that succeeds (40_command_poll.md R141). -/
theorem readOut_of {c : Cfg} {s0 : State} {n : Nat} {v : W32} (hr : Ran s0 n evs s) (hv : s.willAnswer [.ok v]) :
    ∃ t, readOut c s = (.ok (some v), t) ∧ Ran s0 (n + 1) (evs ++ [.tr c.regDout (.ok v)]) t := by
  have hans : s.answer = .ok v := ((State.willAnswer_cons s _ _ fun ans => .tr c.regDout ans).mp hv).1
  have hran := hr.tick.tread c.regDout
  rw [State.tick_answer, hans] at hran
  refine ⟨_, ?_, (hran.setRV v).tick.setST (.ok (some v))⟩
  simp only [readOut, State.tick_answer, hans]
  rfl

/-- `DSP_READ` that stays busy at the wait it stands in front of (40_command_poll.md R143). -/
theorem ReadWaits.exec_busy {m : Nat} (h : ReadWaits Config.cfg r { s with resp := none } k evs l)
    (hs : s.seq = .idle) (hn : l.length = 11) (hl : ∀ a ∈ l, isBusy Config.cfg a = true)
    (hm : evs.length + 11 = m) :
    ∃ t, exec (.dspRead r) s = .next t ∧ t.trace = s.trace ++ (evs ++ statusEvents Config.cfg l) ∧
      (evs ++ statusEvents Config.cfg l).length = m ∧ t.resp = some respBusy ∧ OpFrame s t := by
  obtain ⟨n, u, hread, hran, hans⟩ := h
  obtain ⟨u', hstop, hran'⟩ := waitThen_stop (k := k) hran (.exhausted l hl hn) hans
  have hlen : (evs ++ statusEvents Config.cfg l).length = m := by
    rw [List.length_append, statusEvents_length, hn, hm]
  obtain ⟨t, hexec, htrace, hrest⟩ :=
    exec_of_ran (i := .dspRead r) rfl hs (by simp) (congrArg Host.Outcome.next (hread.trans hstop)) hran'
  exact ⟨t, hexec, htrace, hlen, hrest⟩

/-- `DSP_READ` whose last wait ends idle returns what its data-out read gives. -/
theorem ReadWaits.exec_ok {v : W32}
    (h : ReadWaits Config.cfg r { s with resp := none } (readOut Config.cfg) evs (l ++ [.ok v]))
    (hs : s.seq = .idle) (hw : WaitEnd Config.cfg 11 l (.ok none)) :
    ∃ t, exec (.dspRead r) s = .next t ∧
      t.trace = s.trace ++ (evs ++ statusEvents Config.cfg l ++ [.tr Config.cfg.regDout (.ok v)]) ∧
      t.resp = some (respVal v) ∧ OpFrame s t := by
  obtain ⟨n, u, hread, hran, hans⟩ := h
  obtain ⟨t1, h1, hran1, hans1⟩ := waitThen_of (k := readOut Config.cfg) hran hw hans
  obtain ⟨t2, h2, hran2⟩ := readOut_of (c := Config.cfg) hran1 hans1
  exact exec_of_ran (i := .dspRead r) rfl hs (by simp) (congrArg Host.Outcome.next (hread.trans (h1.trans h2))) hran2

/-- `DSP_READ` through all four waits, each ending idle. -/
theorem exec_dspRead_of {l1 l2 l3 l4 : List Answer} {x1 x2 x3 x4 x5 x6 v : W32} (hs : s.seq = .idle)
    (h1 : WaitEnd Config.cfg 11 l1 (.ok none)) (h2 : WaitEnd Config.cfg 11 l2 (.ok none))
    (h3 : WaitEnd Config.cfg 11 l3 (.ok none)) (h4 : WaitEnd Config.cfg 11 l4 (.ok none))
    (h : s.willAnswer (l1 ++ [.ok x1, .ok x2] ++ l2 ++ [.ok x3, .ok x4] ++ l3 ++ [.ok x5, .ok x6] ++ l4 ++ [.ok v])) :
    ∃ t, exec (.dspRead r) s = .next t ∧
      t.trace = s.trace ++ (statusEvents Config.cfg l1 ++ [evA Config.cfg r, evC Config.cfg Config.cfg.cwMr] ++
        statusEvents Config.cfg l2 ++ [evA Config.cfg Config.idxHi, evC Config.cfg Config.cfg.cwRr] ++
        statusEvents Config.cfg l3 ++ [evA Config.cfg Config.idxLo, evC Config.cfg Config.cfg.cwRr] ++
        statusEvents Config.cfg l4 ++ [.tr Config.cfg.regDout (.ok v)]) ∧
      t.resp = some (respVal v) ∧ OpFrame s t := by
  simp only [List.append_assoc, List.cons_append, List.nil_append] at h
  have hfirst := readWaits_first (s := { s with resp := none }) Config.cfg r h
  exact (((hfirst.phase h1).phase h2).phase h3).exec_ok hs h4

end

end Sys2Proof.Machine

open Sys2Proof Sys2Proof.Machine

/-! ## The statements -/

/-- Settles O11: three phases lead from the first wait to the last, and behind it the data-out register is read. -/
theorem dspReadRunsItsFourPhasesAndReturnsTheRawValue :
    Obligations.DspReadRunsItsFourPhasesAndReturnsTheRawValue := by
  intro s r l1 l2 l3 l4 v1 v2 v3 v4 x1 x2 x3 x4 x5 x6 v hs hpolls hidle hans
  have hwait : ∀ l ∈ [l1, l2, l3, l4], ∀ w ∈ [v1, v2, v3, v4],
      WaitEnd Config.cfg 11 (l ++ [Answer.ok w]) (.ok none) := fun l hl w hw =>
    .idle l w (hpolls l hl).2 (Nat.lt_succ_of_le (hpolls l hl).1) (hidle w hw)
  exact exec_dspRead_of hs (hwait l1 (by simp) v1 (by simp)) (hwait l2 (by simp) v2 (by simp))
    (hwait l3 (by simp) v3 (by simp)) (hwait l4 (by simp) v4 (by simp)) hans

/-- Settles O12: phase by phase, the read reaches its next wait, and fails there when it stays busy. -/
theorem dspReadAbortsAtTheBusyWait : Obligations.DspReadAbortsAtTheBusyWait := by
  intro s r l v1 v2 v3 x1 x2 x3 x4 x5 x6 hs hn hl hidle phase S
  have hwait : ∀ v ∈ [v1, v2, v3], WaitEnd Config.cfg 11 [Answer.ok v] (.ok none) := fun v hv =>
    .idle [] v (by simp) (by simp) (hidle v hv)
  have hw1 := hwait v1 (by simp)
  have hw2 := hwait v2 (by simp)
  have hw3 := hwait v3 (by simp)
  have hfirst := fun {rest} => readWaits_first (s := { s with resp := none }) (rest := rest) Config.cfg r
  refine ⟨fun h => ?_, fun h => ?_, fun h => ?_, fun h => ?_⟩
  · exact (hfirst h).exec_busy hs hn hl rfl
  · exact ((hfirst h).phase hw1).exec_busy hs hn hl rfl
  · exact (((hfirst h).phase hw1).phase hw2).exec_busy hs hn hl rfl
  · exact ((((hfirst h).phase hw1).phase hw2).phase hw3).exec_busy hs hn hl rfl

/-- Settles O8: each of the three answers is one end of the wait. -/
theorem waitReadyPollsUntilIdleAtMostElevenTimes : Obligations.WaitReadyPollsUntilIdleAtMostElevenTimes := by
  intro s hs
  refine ⟨fun l v hn hl hv hans => ?_, fun l e hn hl hans => ?_, fun l hn hl hans => ?_⟩
  · exact exec_waitReady_of hs (.idle l v hl (Nat.lt_succ_of_le hn) hv) hans
  · exact exec_waitReady_of hs (.failed l e hl (Nat.lt_succ_of_le hn)) hans
  · exact exec_waitReady_of hs (.exhausted l hl hn) hans

/-- Settles O9: whatever the answers, the wait has one of its three ends, and the response tells which. -/
theorem waitReadyLaws : Obligations.WaitReadyLaws := by
  intro s hs
  obtain ⟨t, l, r, hexec, hw, hans, htrace, hresp⟩ := exec_waitReady_ends hs
  refine ⟨t, l, hexec, htrace, hans, hw.length_le, ?_, ?_, fun e => ?_, exec_waitReady_lines hs hexec⟩ <;>
    rw [hresp, Option.some_inj]
  · rw [respond_eq_respBusy_iff, hw.eq_busy_iff]
  · rw [hw.respond_eq_respOk_iff, hw.eq_ok_iff]
  · rw [respond_eq_respIo_iff, hw.eq_io_iff]

/-- Settles O10: each row is one end of the write, and behind three successful writes one of the wait. -/
theorem dspWriteFollowsItsAbortTable : Obligations.DspWriteFollowsItsAbortTable := by
  intro s a d hs
  refine ⟨decodeRequest_dspWriteWord a d, fun e h => exec_dspWrite_of hs (.address e) h,
    fun x e h => exec_dspWrite_of hs (.data x e) h, fun x y e h => exec_dspWrite_of hs (.command x y e) h,
    fun x y z l hl => ⟨fun e hn h => ?_, fun hn h => ?_, fun v hn hv h => ?_⟩⟩
  · exact exec_dspWrite_waited hs (.failed l e hl (Nat.lt_succ_of_le hn)) h
  · exact exec_dspWrite_waited hs (.exhausted l hl hn) h
  · exact exec_dspWrite_waited hs (.idle l v hl (Nat.lt_succ_of_le hn) hv) h
end

section
/-! SUPPORT and PROOFS. The loader's and the replay's statements (spec/41_firmware_replay.md): deliveries (R160 to
R162), the replay of a mode's entries (R165 to R170, R172), a whole write-entry, and that an operation's outcome
depends on nothing but the selection, the image, the loader and the device's answers (R171). -/

namespace Sys2Proof.Machine

/-! ## Deliveries, and `APPLY_MODE` without an image -/

section

variable {s : State} {bytes : List Byte} {index : W32}

theorem exec_fwDeliver_absent (bytes : List Byte) (h : s.fw = none) :
    exec (.fwDeliver bytes) s = .next { s with fw := some (Memory.load bytes) } := by
  simp only [exec, execFwDeliver, deliver, h]

theorem exec_fwDeliver_present (bytes : List Byte) (h : s.fw ≠ none) :
    exec (.fwDeliver bytes) s = .refused .secondDelivery := by
  obtain ⟨m, hm⟩ := Option.ne_none_iff_exists'.mp h
  simp only [exec, execFwDeliver, deliver, hm]

/-- A delivery that is due is the step, whatever the sequencer does. -/
theorem step_due (h : s.fwl = some ⟨0, bytes⟩) : step s = exec (.fwDeliver bytes) { s with fwl := none } := by
  simp only [step, State.dueDelivery, h]

/-- A delivery in front of one of the first two lines is there at the test of AM.1, which is the second. -/
theorem applyMode_of_delivery (c : Cfg) (index : W32) {k : Nat} (hf : s.fw = none) (hl : s.fwl = some ⟨k, bytes⟩)
    (hk : k ≤ 1) :
    applyMode c index s = applyMode c index { s with fw := some (Memory.load bytes), fwl := none } := by
  have hsame : (s.tick.setMI index).tick =
      ((State.tick { s with fw := some (Memory.load bytes), fwl := none }).setMI index).tick := by
    rcases Nat.le_one_iff_eq_zero_or_eq_one.mp hk with rfl | rfl <;> simp [State.tick, State.setMI, hf, hl]
  simp only [applyMode, hsame]

/-- `APPLY_MODE` does what its body does. -/
theorem exec_applyMode_congr {s s' : State} (hs : s.seq = .idle) (hs' : s'.seq = .idle)
    (h : applyMode Config.cfg index { s with resp := none } = applyMode Config.cfg index { s' with resp := none }) :
    exec (.applyMode index) s = exec (.applyMode index) s' := by
  have hbody : ∀ u : State, u.seq = .idle → exec (.applyMode index) u =
      andThen (applyMode Config.cfg index { u with resp := none }) fun p => .next (finish p.1 p.2) :=
    fun u hu => hostOp_idle _ u hu
  rw [hbody s hs, hbody s' hs', h]

/-- Where the loader's two chances in front of the test leave no image, `APPLY_MODE` answers `NoFirmware`. -/
theorem exec_applyMode_absent {d : Option Delivery} (hs : s.seq = .idle)
    (h : tickFw (tickFw (s.fw, s.fwl)) = (none, d)) :
    ∃ t, exec (.applyMode index) s = .next t ∧ t.trace = s.trace ∧ t.resp = some respNoFirmware ∧
      t.fw = none ∧ t.fwl = d ∧ OpFrame s t := by
  have hran := Ran.toCount { s with resp := none } index
  generalize hu : ((State.tick { s with resp := none }).setMI index).tick = u at hran
  have hloader : (u.fw, u.fwl) = (none, d) := by
    rw [← h, ← hu, State.tick_loader, State.setMI_fw, State.setMI_fwl, State.tick_loader]
  obtain ⟨hfw, hfwl⟩ := Prod.mk.inj hloader
  have hbody : opBody Config.cfg (.applyMode index) { s with resp := none } = .next (ret (.err .noFirmware) u) := by
    subst hu
    exact applyMode_absent _ index hfw
  exact ⟨_, exec_of_body rfl hs hbody, by simpa using hran.trace, rfl, hfw, hfwl, hran.opFrame _⟩

end

/-! ## The replay behind its checks -/

section

variable {c : Cfg} {s : State} {m : Memory} {index : W32} {n b0 b1 b2 : Byte} {d : Nat}

/-- The image passes every check of `index` (30_encoding.md R115): the count byte `n` allows it, the descriptor at
`d` is there, and the region that its bytes name lies inside the image. -/
structure ChecksPassed (c : Cfg) (m : Memory) (index : W32) (n : Byte) (d : Nat) (b0 b1 b2 : Byte) : Prop where
  count : Memory.read m 0 = some n
  valid : index.toNat ≤ n.toNat
  desc : descOff c index = some d
  high : Memory.read m d = some b0
  low : Memory.read m (d + 1) = some b1
  entries : Memory.read m (d + 2) = some b2
  inside : 256 * b0.toNat + b1.toNat + 5 * b2.toNat ≤ Memory.size m

/-- `EP` at the first entry. -/
theorem firstEntry_toNat (b0 b1 : Byte) :
    ((bigEndian b0 b1).setWidth 17).toNat = 256 * b0.toNat + b1.toNat := by
  rw [BitVec.toNat_setWidth_of_le (by omega), bigEndian_toNat]

/-- Up to the bounds check of AM.6 nothing is performed, and the check decides on the bytes of the descriptor. -/
theorem applyMode_desc (hm : s.fw = some m) (hn : Memory.read m 0 = some n) (hv : index.toNat ≤ n.toNat)
    (hd : descOff c index = some d) (h0 : Memory.read m d = some b0) (h1 : Memory.read m (d + 1) = some b1)
    (h2 : Memory.read m (d + 2) = some b2) :
    ∃ u, Ran s 0 [] u ∧ applyMode c index s = checkAndReplay c (bigEndian b0 b1) b2 u := by
  obtain ⟨u, hu, hbody⟩ := applyMode_count c index hm hn
  rw [if_neg hv.not_gt, lookUpAndReplay_some c index (hu.fw_present hm) hd h0 h1 h2] at hbody
  exact ⟨_, hu.tick.tick.setDesc _ _, hbody⟩

/-- With every check passed `apply_mode` is its replay, with nothing performed in front of it. -/
theorem ChecksPassed.applyMode (h : ChecksPassed c m index n d b0 b1 b2) (hm : s.fw = some m) :
    ∃ u, Ran s 0 [] u ∧
      applyMode c index s = replay c b2.toNat 0#8 ((bigEndian b0 b1).setWidth 17) u := by
  obtain ⟨u, hu, hbody⟩ := applyMode_desc hm h.count h.valid h.desc h.high h.low h.entries
  refine ⟨_, hu.tick.tick.setEntry 0#8 ((bigEndian b0 b1).setWidth 17), hbody.trans ?_⟩
  have hin := h.inside
  rw [← regionEnd_bigEndian] at hin
  rw [checkAndReplay, hu.tick.fw_present hm]
  exact if_neg hin.not_gt

theorem memRead_eq_next {o : Nat} {b : Byte} (h : memRead (some m) o = .next b) : Memory.read m o = some b := by
  cases hb : Memory.read m o with
  | none => rw [memRead_none hb] at h; cases h
  | some b' => rw [memRead_some hb] at h; cases h; rfl

/-- What a fetched descriptor was: three bytes of the image. -/
theorem fetchDesc_eq_next {q : W16 × Byte} (h : fetchDesc (some m) d = .next q) :
    ∃ b0 b1 b2, Memory.read m d = some b0 ∧ Memory.read m (d + 1) = some b1 ∧
      Memory.read m (d + 2) = some b2 := by
  obtain ⟨b0, h0, h⟩ := andThen_eq_next h
  obtain ⟨b1, h1, h⟩ := andThen_eq_next h
  obtain ⟨b2, h2, -⟩ := andThen_eq_next h
  exact ⟨b0, b1, b2, memRead_eq_next h0, memRead_eq_next h1, memRead_eq_next h2⟩

/-- A result returned before anything was performed. -/
theorem trace_of_ret {r : Result} {t : State} {p : Result × State} (ht : Ran s 0 [] t)
    (h : (.next (ret r t) : Out (Result × State)) = .next p) : p.2.trace = s.trace := by
  cases h
  exact ht.trace.trans (List.append_nil _)

/-- Lines AM.2 to AM.11 that complete have performed nothing, or the image has passed every check. -/
theorem countAndReplay_next {p : Result × State} (hm : s.fw = some m) (h : countAndReplay c index s = .next p) :
    p.2.trace = s.trace ∨ ∃ n d b0 b1 b2, p.2.fw = some m ∧ ChecksPassed c m index n d b0 b1 b2 := by
  cases hn : Memory.read m 0 with
  | none => rw [countAndReplay_empty c index hm hn] at h; cases h
  | some n =>
    rw [countAndReplay_some c index hm hn] at h
    have hu := Ran.toIndexCheck s n
    generalize (s.tick.setMC n).tick = u at h hu
    split at h
    · exact .inl (trace_of_ret hu h)
    · rename_i hv
      cases hd : descOff c index with
      | none => rw [lookUpAndReplay_none c index u hd] at h; exact .inl (trace_of_ret hu.tick h)
      | some d =>
        have hpresent := hu.tick.tick.fw_present hm
        obtain ⟨q, hq, -⟩ := andThen_eq_next (by simpa only [lookUpAndReplay, hd, hpresent] using h)
        obtain ⟨b0, b1, b2, h0, h1, h2⟩ := fetchDesc_eq_next hq
        rw [lookUpAndReplay_some c index (hu.fw_present hm) hd h0 h1 h2] at h
        have hdesc := hu.tick.tick.setDesc (bigEndian b0 b1) b2
        rcases Nat.lt_or_ge (Memory.size m) (regionEnd (bigEndian b0 b1) b2) with hout | hin
        · rw [checkAndReplay_outside c (hdesc.fw_present hm) hout] at h
          exact .inl (trace_of_ret hdesc.tick h)
        · obtain ⟨k, evs, hran, -⟩ := checkAndReplay_trail _ _ _ _ _ h
          rw [regionEnd_bigEndian] at hin
          exact .inr ⟨n, d, b0, b1, b2, (hdesc.trans hran).fw_present hm, hn, not_lt.mp hv, hd, h0, h1, h2, hin⟩

/-- `apply_mode` that completes has performed nothing, or the image that is then present has passed every check. -/
theorem applyMode_next {p : Result × State} (h : applyMode c index s = .next p) :
    p.2.trace = s.trace ∨ ∃ m n d b0 b1 b2, p.2.fw = some m ∧ ChecksPassed c m index n d b0 b1 b2 := by
  have htrace : (s.tick.setMI index).tick.trace = s.trace := by simp
  cases hf : (s.tick.setMI index).tick.fw with
  | none =>
    rw [applyMode_absent c index hf] at h
    cases h
    exact .inl htrace
  | some m =>
    have hcount : countAndReplay c index (s.tick.setMI index).tick = .next p := by
      simpa only [applyMode, hf] using h
    exact (countAndReplay_next hf hcount).imp (·.trans htrace) fun hpassed => ⟨m, hpassed⟩

end

/-! ## The replay on known answers -/

section

variable {c : Cfg} {s : State} {m : Memory} {a d : W16} {ei : BitVec 8} {ep : BitVec 17} {l rest : List Answer}
  {r : Result} {evs : List Event}

/-- What is to come does not change where the loader has its chance. -/
theorem willAnswer_tick : s.tick.willAnswer l ↔ s.willAnswer l :=
  State.willAnswer_congr l (State.tick_script s) (State.tick_drawn s)

/-- What a part of an operation does behind the loader's chance, it does from in front of it. -/
theorem Ran.of_tick {n : Nat} {t : State} (h : Ran s.tick n evs t) : Ran s n evs t := by
  have hall := (Ran.refl s).tick.trans h
  rwa [Nat.zero_add, List.nil_append] at hall

/-- Every event of a DSP write is one transport call, with its answer. -/
theorem WriteEnd.length_eq (h : WriteEnd c a d l r evs) : evs.length = l.length := by
  cases h with
  | address e => rfl
  | data x e => rfl
  | command x y e => rfl
  | waited x y z l r hw => simp

/-- A DSP write that succeeds has no payload. -/
theorem WriteEnd.ok_none {p : Option W32} (h : WriteEnd c a d l (.ok p) evs) : p = none := by
  cases h with
  | waited x y z l r hw => cases hw; rfl

/-- The write of an entry on known answers. -/
theorem writeEntry_of (hw : WriteEnd c a d l r evs) (hl : s.willAnswer l) :
    ∃ t, writeEntry c a d s = (r, t) ∧ Ran s l.length evs t := by
  have hans : (s.tick.setOperands a d).tick.willAnswer l :=
    willAnswer_tick.mpr ((State.willAnswer_congr l (State.tick_script s) (State.tick_drawn s)).mpr hl)
  obtain ⟨hr, hran⟩ := write_of hw hans
  have hall := ((Ran.refl s).tick.setOperands a d).tick.trans hran
  rw [Nat.zero_add, List.nil_append] at hall
  exact ⟨_, Prod.ext hr rfl, hall⟩

/-- An entry of the replay on known answers. -/
theorem replayEntry_of (ei : BitVec 8) (ep : BitVec 17) (hw : WriteEnd c a d l r evs) (hl : s.willAnswer l) :
    ∃ t, replayEntry c ei ep a d s = (r, t) ∧ Ran s l.length evs t := by
  obtain ⟨t, hentry, hran⟩ := writeEntry_of hw hl
  rw [replayEntry, hentry]
  cases r with
  | err x => exact ⟨t, rfl, hran⟩
  | ok p => exact ⟨_, rfl, hran.tick.setEntry _ _⟩

/-- A replay whose next entry is written goes on with the one behind it. -/
theorem replay_written (n : Nat) (ei : BitVec 8) (hm : s.fw = some m)
    (hf : fetchEntry (some m) ep.toNat = .next (a, d)) (hw : WriteEnd c a d l (.ok none) evs)
    (hl : s.willAnswer (l ++ rest)) :
    ∃ t, replay c (n + 1) ei ep s = replay c n (ei + 1#8) (ep + 5#17) t ∧ Ran s l.length evs t ∧
      t.willAnswer rest := by
  obtain ⟨t, hentry, hran⟩ := replayEntry_of (s := s.tick) ei ep hw (willAnswer_tick.mpr (willAnswer_left hl))
  refine ⟨t, ?_, hran.of_tick, ((hran.of_tick.willAnswer_append l rest rfl).mp hl).2⟩
  rw [replay, (Ran.refl s).tick.fw_present hm, hf, andThen_next, hentry]

/-- A replay whose next entry fails ends there, with the write's error. -/
theorem replay_failed (n : Nat) (ei : BitVec 8) {x : ErrKind} (hm : s.fw = some m)
    (hf : fetchEntry (some m) ep.toNat = .next (a, d)) (hw : WriteEnd c a d l (.err x) evs) (hl : s.willAnswer l) :
    ∃ t, replay c (n + 1) ei ep s = .next (.err x, t) ∧ Ran s l.length evs t := by
  obtain ⟨t, hentry, hran⟩ := replayEntry_of (s := s.tick) ei ep hw (willAnswer_tick.mpr hl)
  refine ⟨t, ?_, hran.of_tick⟩
  rw [replay, (Ran.refl s).tick.fw_present hm, hf, andThen_next, hentry]

theorem add_five_toNat (h : ep.toNat + 5 < 2 ^ 17) : (ep + 5#17).toNat = ep.toNat + 5 := by
  rw [BitVec.toNat_add]
  exact Nat.mod_eq_of_lt h

/-- The answers to an entry that succeeds are those of a DSP write (40_command_poll.md R135). -/
theorem EntryAnswers.good.writeEnd {q : EntryAnswers} (h : q.good c) (a d : W16) :
    WriteEnd c a d q.all (.ok none)
      (evA c a :: evD c d :: evC c c.cwMw :: statusEvents c (q.polls ++ [Answer.ok q.idle])) := by
  obtain ⟨hn, hbusy, hidle⟩ := h
  exact .waited q.address q.data q.command _ _ (.idle q.polls q.idle hbusy (Nat.lt_succ_of_le hn) hidle)

/-- A replay whose next entries all succeed performs them and goes on behind them, with the answers `rest` to
come. -/
theorem replay_good (hw : Memory.wf m = true) (k : Nat) {qs : List EntryAnswers} (hm : s.fw = some m)
    (hin : ep.toNat + 5 * qs.length ≤ Memory.size m) (h17 : ep.toNat + 5 * qs.length < 2 ^ 17)
    (hgood : ∀ q ∈ qs, q.good c) (hl : s.willAnswer (qs.flatMap EntryAnswers.all ++ rest)) :
    ∃ t n ei' ep', replay c (qs.length + k) ei ep s = replay c k ei' ep' t ∧
      ep'.toNat = ep.toNat + 5 * qs.length ∧ Ran s n (entryEvents c m qs ep.toNat) t ∧ t.willAnswer rest := by
  induction qs generalizing s ei ep with
  | nil => exact ⟨s, 0, ei, ep, by rw [List.length_nil, Nat.zero_add], rfl, Ran.refl s, hl⟩
  | cons q qs ih =>
    rw [List.length_cons] at hin h17
    rw [List.flatMap_cons, List.append_assoc] at hl
    obtain ⟨hq, hqs⟩ := List.forall_mem_cons.mp hgood
    obtain ⟨b0, b1, b2, b3, h0, h1, h2, h3, hf⟩ := fetchEntry_inside (e := ep.toNat) hw (by omega)
    obtain ⟨t, hstep, hran, hrest⟩ := replay_written (qs.length + k) ei hm hf (hq.writeEnd _ _) hl
    have hep : (ep + 5#17).toNat = ep.toNat + 5 := add_five_toNat (by omega)
    obtain ⟨u, n, ei', ep', hgo, hep', hran', hu⟩ := ih (ei := ei + 1#8) (ep := ep + 5#17)
      (hran.fw_present hm) (by rw [hep]; omega) (by rw [hep]; omega) hqs hrest
    rw [hep] at hep' hran'
    refine ⟨u, q.all.length + n, ei', ep', ?_, ?_, ?_, hu⟩
    · rw [List.length_cons, Nat.add_right_comm, hstep, hgo]
    · rw [hep', List.length_cons]; omega
    · simpa [entryEvents, h0, h1, h2, h3] using hran.trans hran'

/-- With every check passed, and the first entries of the mode written, the replay stands at the entry behind them. -/
theorem ChecksPassed.replay_good {index : W32} {n b0 b1 b2 : Byte} {d : Nat} {k : Nat} {qs : List EntryAnswers}
    (h : ChecksPassed c m index n d b0 b1 b2) (hm : s.fw = some m) (hw : Memory.wf m = true)
    (hk : b2.toNat = qs.length + k) (hgood : ∀ q ∈ qs, q.good c)
    (hl : s.willAnswer (qs.flatMap EntryAnswers.all ++ rest)) :
    ∃ t j ei' ep', Machine.applyMode c index s = replay c k ei' ep' t ∧
      ep'.toNat = 256 * b0.toNat + b1.toNat + 5 * qs.length ∧
      Ran s j (entryEvents c m qs (256 * b0.toNat + b1.toNat)) t ∧ t.willAnswer rest := by
  obtain ⟨u, hu, hbody⟩ := h.applyMode hm
  have hin := h.inside
  rw [hk] at hin
  have hsplit := (hu.willAnswer_append [] (qs.flatMap EntryAnswers.all ++ rest) rfl).mp hl
  obtain ⟨t, j, ei', ep', hgo, hep, hran, hrest⟩ := Machine.replay_good (ei := 0#8)
    (ep := (bigEndian b0 b1).setWidth 17) hw k (hu.fw_present hm)
    (by rw [firstEntry_toNat]; omega) (by rw [firstEntry_toNat]; omega) hgood hsplit.2
  rw [firstEntry_toNat] at hep hran
  exact ⟨t, _, ei', ep', by rw [hbody, hk, hgo], hep, hu.trans hran, hrest⟩

/-- A DSP write that was run alone and failed, told by its answers, events and response, has the end that an
entry's write has on the same answers. -/
theorem writeEnd_of_exec {u v : State} {p : Response} (hu : u.seq = .idle) (h : exec (.dspWrite a d) u = .next v)
    (hl : u.willAnswer l) (htrace : v.trace = u.trace ++ evs) (hlen : evs.length = l.length)
    (hresp : v.resp = some p) (hp : p ≠ respOk) :
    ∃ x, WriteEnd Config.cfg a d l (.err x) evs ∧ p = respond (.err x) := by
  obtain ⟨l', evs', hw, hl', -⟩ := write_ran Config.cfg a d (Ran.refl u)
  generalize (write Config.cfg a d u).1 = r at hw
  obtain ⟨v', h', htrace', hresp', -⟩ := exec_dspWrite_of hu hw hl'
  cases h.symm.trans h'
  obtain rfl : evs = evs' := List.append_cancel_left (htrace.symm.trans htrace')
  obtain rfl : p = respond r := Option.some.inj (hresp.symm.trans hresp')
  obtain rfl : l = l' := by rw [← hl, ← hl', ← hlen, hw.length_eq]
  cases r with
  | err x => exact ⟨x, hw, rfl⟩
  | ok q =>
    cases hw.ok_none
    exact absurd rfl hp

end

/-! ## A whole write-entry -/

section

variable {s : State} {a d : W16} {pad : Byte} {op : Instr} {stack : List Label} {ei : BitVec 8} {ep : BitVec 17}
  {l : List Answer} {evs : List Event}

theorem exec_wr_elsewhere (a d : W16) (pad : Byte) (h : ∀ op stack, s.seq ≠ .running op (.am .l9) stack) :
    exec (.wr a d pad) s = .refused .notAtItsLine := opWr_elsewhere Config.cfg a d h

/-- Line AM.9 reads `EP`. -/
theorem exec_wr_noEP (a d : W16) (pad : Byte) (hs : s.seq = .running op (.am .l9) stack) (hep : s.wr.ep = none) :
    exec (.wr a d pad) s = .fault (.unwrittenRegister .ep) := by
  simp only [exec, execWr, opWr, hs, hep, readReg_none, andThen_fault]

/-- Behind a write that succeeded comes line AM.11, with the replay's registers as they were. -/
theorem exec_wr_written (pad : Byte) (hs : s.seq = .running op (.am .l9) stack) (hep : s.wr.ep = some ep)
    (hw : WriteEnd Config.cfg a d l (.ok none) evs) (hl : s.willAnswer l) :
    ∃ u, exec (.wr a d pad) s = advanceEntry op stack u ∧ Ran s l.length evs u ∧ EntryKeeps s u := by
  obtain ⟨u, hentry, hran⟩ := writeEntry_of hw hl
  have hkeeps := writeEntry_entryKeeps Config.cfg a d s
  rw [hentry] at hkeeps
  exact ⟨u.tick, (opWr_at hs hep).trans (by rw [hentry]), hran.tick, hkeeps.tick⟩

/-- A write that failed is returned with its error, which `ST` holds, and the replay's registers as they were. -/
theorem exec_wr_failed (pad : Byte) {x : ErrKind} (hs : s.seq = .running op (.am .l9) stack)
    (hep : s.wr.ep = some ep) (hw : WriteEnd Config.cfg a d l (.err x) evs) (hl : s.willAnswer l) :
    ∃ u, exec (.wr a d pad) s = .next (returnTo op (.err x) u stack) ∧ Ran s l.length evs u ∧ EntryKeeps s u ∧
      u.wr.st = some (.err x) := by
  obtain ⟨u, hentry, hran⟩ := writeEntry_of hw hl
  have hkeeps := writeEntry_entryKeeps Config.cfg a d s
  have hst : (writeEntry Config.cfg a d s).2.wr.st = some (writeEntry Config.cfg a d s).1 := write_st _ a d _
  rw [hentry] at hkeeps hst
  exact ⟨u, (opWr_at hs hep).trans (by rw [hentry]), hran, hkeeps, hst⟩

/-- Line AM.11 reads `EI`, and is reached behind a write that succeeded. -/
theorem exec_wr_noEI (pad : Byte) (hs : s.seq = .running op (.am .l9) stack) (hep : s.wr.ep = some ep)
    (hei : s.wr.ei = none) (hw : WriteEnd Config.cfg a d l (.ok none) evs) (hl : s.willAnswer l) :
    exec (.wr a d pad) s = .fault (.unwrittenRegister .ei) := by
  obtain ⟨u, hexec, -, -, hei', -⟩ := exec_wr_written pad hs hep hw hl
  rw [hexec, advanceEntry, hei', hei, readReg_none, andThen_fault]

/-- A write-entry that succeeds advances `EI` by 1 and `EP` by 5 and goes to the test of the loop. -/
theorem exec_wr_advances (pad : Byte) (hs : s.seq = .running op (.am .l9) stack) (hep : s.wr.ep = some ep)
    (hei : s.wr.ei = some ei) (hw : WriteEnd Config.cfg a d l (.ok none) evs) (hl : s.willAnswer l) :
    ∃ t, exec (.wr a d pad) s = .next t ∧ t.seq = .running op (.am .l8) stack ∧ t.trace = s.trace ++ evs ∧
      t.wr.ei = some (ei + 1#8) ∧ t.wr.ep = some (ep + 5#17) ∧ SameReplay s t ∧ t.resp = s.resp ∧
      LineFrame s t := by
  obtain ⟨u, hexec, hran, hsame, hei', hep'⟩ := exec_wr_written pad hs hep hw hl
  have hmoved := (hran.setEntry (ei + 1#8) (ep + 5#17)).goto op stack (.am .l8)
  refine ⟨_, hexec.trans ?_, rfl, hmoved.trace, rfl, rfl, hsame, hran.resp, hmoved.frame⟩
  rw [advanceEntry, hei', hep', hei, hep, readReg_some, andThen_next, readReg_some, andThen_next]

/-- A write-entry that fails ends the operation where `apply_mode` has no caller, and otherwise goes on behind the
line that called it (42_mode_state_events.md R201, R205). -/
theorem exec_wr_returns (pad : Byte) {x : ErrKind} (hs : s.seq = .running op (.am .l9) stack)
    (hep : s.wr.ep = some ep) (hw : WriteEnd Config.cfg a d l (.err x) evs) (hl : s.willAnswer l) :
    ∃ t, exec (.wr a d pad) s = .next t ∧ t.trace = s.trace ++ evs ∧ LineFrame s t ∧
      (stack = [] → t.seq = .idle ∧ t.wr = .empty ∧ t.resp = some (respond (.err x))) ∧
      ∀ rest caller next, stack = caller :: rest →
        (caller = .pu .l1 ∧ next = .pu .l2) ∨ (caller = .pb .l2 ∧ next = .pb .l3) →
        t.seq = .running op next rest ∧ t.wr.st = some (.err x) ∧ t.wr.ei = s.wr.ei ∧ t.wr.ep = some ep ∧
          SameReplay s t ∧ t.resp = s.resp := by
  obtain ⟨u, hexec, hran, ⟨hsame, hei', hep'⟩, hst⟩ := exec_wr_failed pad hs hep hw hl
  have hmoved := hran.moved.returnTo op (.err x) stack
  refine ⟨_, hexec, hmoved.trace, hmoved.frame, ?_, ?_⟩
  · rintro rfl
    exact ⟨rfl, rfl, rfl⟩
  · rintro rest caller next rfl (⟨rfl, rfl⟩ | ⟨rfl, rfl⟩) <;>
      exact ⟨rfl, hst, hei', hep'.trans hep, hsame, hran.resp⟩

/-- A write-entry with values in `EI` and `EP` completes, whatever the device answers. -/
theorem exec_wr_completes (a d : W16) (pad : Byte) (hs : s.seq = .running op (.am .l9) stack)
    (hep : s.wr.ep = some ep) (hei : s.wr.ei = some ei) :
    ∃ t, exec (.wr a d pad) s = .next t ∧ LineFrame s t := by
  obtain ⟨l, evs, hw, hl, -⟩ := write_ran Config.cfg a d (Ran.refl s)
  generalize (write Config.cfg a d s).1 = r at hw
  cases r with
  | err x =>
    obtain ⟨t, hexec, -, hframe, -⟩ := exec_wr_returns pad hs hep hw hl
    exact ⟨t, hexec, hframe⟩
  | ok p =>
    cases hw.ok_none
    obtain ⟨t, hexec, -, -, -, -, -, -, hframe⟩ := exec_wr_advances pad hs hep hei hw hl
    exact ⟨t, hexec, hframe⟩

/-- At line AM.9 of a place that meets the invariant an entry is there to be fetched, and the line goes on to its
write. -/
theorem seqStep_fetchEntry (hinv : inv s = true) (hs : s.seq = .running op (.am .l9) stack) :
    ∃ t, seqStep Config.cfg s = .next t ∧ t.seq = .running op (.am .l10) stack := by
  obtain ⟨hwf, hseq⟩ := (inv_iff s).mp hinv
  obtain ⟨m, po, ec, ei, ep, hm, -, -, -, hep, hlt, hat, hin⟩ :=
    (replayAt_iff false s).mp (replayAt_of_seqWf hs hseq)
  rw [if_neg Bool.false_ne_true] at hlt
  have hmwf : Memory.wf m = true := by simpa only [imageWf, hm] using hwf
  obtain ⟨b0, b1, b2, b3, -, -, -, -, hf⟩ := fetchEntry_inside (e := ep.toNat) hmwf (by omega)
  refine ⟨goto op stack (.am .l10) (s.tick.setOperands (bigEndian b0 b1) (bigEndian b2 b3)), ?_, rfl⟩
  rw [seqStep_running _ hs, lineAt, lineAm, State.tick_wr, hep, readReg_some, andThen_next,
    (Ran.refl s).tick.fw_present hm, hf, andThen_next]

end

/-! ## Two runs that differ in nothing an operation depends on (R171)

Every primitive keeps twins twins, and so does every procedure, which comes to the same result: none looks at the
trace, and none that is run at once reads a working register. -/

/-- Twins agree on the selection, the image, the loader and the device's answers, and the same events were appended
to the traces `b` and `b'` with which their runs began. -/
structure Twin (b b' : List Event) (s s' : State) : Prop where
  modeSel : s'.modeSel = s.modeSel
  fw : s'.fw = s.fw
  fwl : s'.fwl = s.fwl
  script : s'.script = s.script
  drawn : s'.drawn = s.drawn
  trace : ∃ evs, s.trace = b ++ evs ∧ s'.trace = b' ++ evs

/-- Two procedures came to the same result with twins behind it, or to the same fault. -/
inductive SameEnd (b b' : List Event) : Out (Result × State) → Out (Result × State) → Prop where
  | next (r : Result) {t t' : State} (h : Twin b b' t t') : SameEnd b b' (.next (r, t)) (.next (r, t'))
  | fault (f : Fault) : SameEnd b b' (.fault f) (.fault f)

section

variable {b b' : List Event} {s s' : State}

/-! ### Primitives -/

theorem Twin.answer (h : Twin b b' s s') : s'.answer = s.answer := by
  simp only [State.answer, h.script, h.drawn]

theorem Twin.tick (h : Twin b b' s s') : Twin b b' s.tick s'.tick := by
  have hloader : (s'.tick.fw, s'.tick.fwl) = (s.tick.fw, s.tick.fwl) := by
    rw [State.tick_loader, State.tick_loader, h.fw, h.fwl]
  obtain ⟨hfw, hfwl⟩ := Prod.mk.inj hloader
  exact ⟨by simpa using h.modeSel, hfw, hfwl, by simpa using h.script, by simpa using h.drawn,
    by simpa using h.trace⟩

/-- Working registers are written alike or not; nothing depends on it. -/
theorem Twin.regs (h : Twin b b' s s') (w w' : WorkRegs) : Twin b b' { s with wr := w } { s' with wr := w' } :=
  ⟨h.modeSel, h.fw, h.fwl, h.script, h.drawn, h.trace⟩

theorem Twin.append (h : Twin b b' s s') (evs : List Event) :
    Twin b b' { s with trace := s.trace ++ evs } { s' with trace := s'.trace ++ evs } := by
  obtain ⟨evs0, htrace, htrace'⟩ := h.trace
  exact ⟨h.modeSel, h.fw, h.fwl, h.script, h.drawn, evs0 ++ evs, by rw [htrace, List.append_assoc],
    by rw [htrace', List.append_assoc]⟩

theorem Twin.access (h : Twin b b' s s') (ev : Answer → Event) : Twin b b' (s.access ev) (s'.access ev) := by
  have htrace := (h.append [ev s.answer]).trace
  refine ⟨h.modeSel, h.fw, h.fwl, congrArg List.tail h.script, ?_, ?_⟩
  · rw [State.access_drawn, State.access_drawn, h.script, h.drawn]
  · rw [State.access_trace, State.access_trace, h.answer]
    exact htrace

theorem Twin.updateOrReport (h : Twin b b' s s') (a : RegAddr) (m v : W32) :
    Twin b b' (s.updateOrReport a m v) (s'.updateOrReport a m v) := by
  have hupd := (h.access fun ans => .tu a m v ans.err?).append (reportsOfAnswer s.answer)
  rw [State.updateOrReport, State.updateOrReport, h.answer]
  exact hupd

theorem Twin.ret (h : Twin b b' s s') (r : Result) : SameEnd b b' (.next (ret r s)) (.next (ret r s')) :=
  .next r (h.regs _ _)

theorem SameEnd.ite {P : Prop} [Decidable P] {x x' y y' : Out (Result × State)} (hx : SameEnd b b' x x')
    (hy : SameEnd b b' y y') : SameEnd b b' (if P then x else y) (if P then x' else y') := by
  split
  · exact hx
  · exact hy

/-- What follows a fetch, which both runs make of the same image. -/
theorem SameEnd.fetched {α : Type} {x : Out α} {k k' : α → Out (Result × State)} (hx : ∀ r, x ≠ .refused r)
    (hk : ∀ a, SameEnd b b' (k a) (k' a)) : SameEnd b b' (andThen x k) (andThen x k') := by
  cases x with
  | next a => exact hk a
  | fault f => exact .fault f
  | refused r => exact absurd rfl (hx r)

/-- What follows a procedure. -/
theorem SameEnd.andThen {x x' : Out (Result × State)} {k : Result × State → Out (Result × State)}
    (h : SameEnd b b' x x') (hk : ∀ r t t', Twin b b' t t' → SameEnd b b' (k (r, t)) (k (r, t'))) :
    SameEnd b b' (andThen x k) (andThen x' k) := by
  cases h with
  | next r h => exact hk r _ _ h
  | fault f => exact .fault f

/-! ### The engine -/

theorem Twin.poll (h : Twin b b' s s') (c : Cfg) (n : Nat) :
    SameEnd b b' (.next (poll c n s)) (.next (poll c n s')) := by
  induction n generalizing s s' with
  | zero => exact h.ret _
  | succ n ih =>
    have hread := h.tick.access fun ans => .tr c.regStatus ans
    rw [poll_succ, poll_succ, h.answer]
    cases s.answer with
    | err e => exact hread.ret _
    | ok v =>
      by_cases hv : busy c v = true
      · simp only [if_pos hv]
        exact ih (Twin.tick (Twin.tick (hread.regs _ _)))
      · simp only [if_neg hv]
        exact Twin.ret (Twin.tick (hread.regs _ _)) _

theorem Twin.waitReady (h : Twin b b' s s') (c : Cfg) :
    SameEnd b b' (.next (waitReady c s)) (.next (waitReady c s')) :=
  Twin.poll (h.tick.regs _ _) c Config.pollMax

theorem Twin.writeThen (h : Twin b b' s s') (a : RegAddr) (v : W32) {k : State → Result × State}
    (hk : ∀ {t t'}, Twin b b' t t' → SameEnd b b' (.next (k t)) (.next (k t'))) :
    SameEnd b b' (.next (writeThen a v s k)) (.next (writeThen a v s' k)) := by
  have hwrite := h.tick.access fun ans => .tw a v ans.err?
  unfold Machine.writeThen
  rw [h.tick.answer]
  cases s.tick.answer with
  | err e => exact hwrite.ret _
  | ok x => exact hk hwrite

theorem Twin.waitThen (h : Twin b b' s s') (c : Cfg) {k : State → Result × State}
    (hk : ∀ {t t'}, Twin b b' t t' → SameEnd b b' (.next (k t)) (.next (k t'))) :
    SameEnd b b' (.next (waitThen c s k)) (.next (waitThen c s' k)) := by
  have hwait := h.tick.waitReady c
  unfold Machine.waitThen
  generalize Machine.waitReady c s.tick = p at hwait
  generalize Machine.waitReady c s'.tick = p' at hwait
  cases hwait with
  | next r ht =>
    cases r with
    | err x => exact .next _ ht
    | ok x => exact hk ht

theorem Twin.write (h : Twin b b' s s') (c : Cfg) (a d : W16) :
    SameEnd b b' (.next (write c a d s)) (.next (write c a d s')) :=
  Twin.writeThen (h.tick.regs _ _) _ _ fun h => h.writeThen _ _ fun h => h.writeThen _ _ fun h =>
    h.waitThen c fun h => h.tick.ret _

theorem Twin.readOut (h : Twin b b' s s') (c : Cfg) :
    SameEnd b b' (.next (readOut c s)) (.next (readOut c s')) := by
  have hread := h.tick.access fun ans => .tr c.regDout ans
  unfold Machine.readOut
  rw [h.tick.answer]
  cases s.tick.answer with
  | err e => exact hread.ret _
  | ok v => exact (hread.regs _ _).tick.ret _

theorem Twin.read (h : Twin b b' s s') (c : Cfg) (r : W16) :
    SameEnd b b' (.next (read c r s)) (.next (read c r s')) :=
  Twin.waitThen (h.tick.regs _ _) c fun h => h.writeThen _ _ fun h => h.writeThen _ _ fun h =>
    h.waitThen c fun h => h.writeThen _ _ fun h => h.writeThen _ _ fun h =>
    h.waitThen c fun h => h.writeThen _ _ fun h => h.writeThen _ _ fun h => h.waitThen c fun h => h.readOut c

/-! ### `apply_mode` -/

theorem Twin.replayEntry (h : Twin b b' s s') (c : Cfg) (ei : BitVec 8) (ep : BitVec 17) (a d : W16) :
    SameEnd b b' (.next (replayEntry c ei ep a d s)) (.next (replayEntry c ei ep a d s')) := by
  have hwrite : SameEnd b b' (.next (writeEntry c a d s)) (.next (writeEntry c a d s')) :=
    Twin.write (h.tick.regs _ _).tick c a d
  unfold Machine.replayEntry
  generalize writeEntry c a d s = p at hwrite
  generalize writeEntry c a d s' = p' at hwrite
  cases hwrite with
  | next r ht =>
    cases r with
    | err x => exact .next _ ht
    | ok x => exact .next _ (ht.tick.regs _ _)

theorem Twin.replay (h : Twin b b' s s') (c : Cfg) (n : Nat) (ei : BitVec 8) (ep : BitVec 17) :
    SameEnd b b' (replay c n ei ep s) (replay c n ei ep s') := by
  induction n generalizing ei ep s s' with
  | zero => exact h.tick.ret _
  | succ n ih =>
    unfold Machine.replay
    rw [h.tick.fw]
    refine .fetched (fetchEntry_ne_refused _ _) fun entry => ?_
    have hentry := h.tick.replayEntry c ei ep entry.1 entry.2
    generalize Machine.replayEntry c ei ep entry.1 entry.2 s.tick = p at hentry
    generalize Machine.replayEntry c ei ep entry.1 entry.2 s'.tick = p' at hentry
    cases hentry with
    | next r ht =>
      cases r with
      | err x => exact .next _ ht
      | ok x => exact ih ht _ _

theorem Twin.checkAndReplay (h : Twin b b' s s') (c : Cfg) (p : W16) (n : Byte) :
    SameEnd b b' (checkAndReplay c p n s) (checkAndReplay c p n s') := by
  unfold Machine.checkAndReplay
  rw [h.tick.fw]
  exact .ite (h.tick.ret _) (Twin.replay (h.tick.tick.regs _ _) c _ _ _)

theorem Twin.lookUpAndReplay (h : Twin b b' s s') (c : Cfg) (index : W32) :
    SameEnd b b' (lookUpAndReplay c index s) (lookUpAndReplay c index s') := by
  unfold Machine.lookUpAndReplay
  cases descOff c index with
  | none => exact h.tick.ret _
  | some d =>
    simp only [h.tick.tick.fw]
    exact .fetched (fetchDesc_ne_refused _ _) fun p => Twin.checkAndReplay (h.tick.tick.regs _ _) c _ _

theorem Twin.countAndReplay (h : Twin b b' s s') (c : Cfg) (index : W32) :
    SameEnd b b' (countAndReplay c index s) (countAndReplay c index s') := by
  unfold Machine.countAndReplay
  rw [h.tick.fw]
  refine .fetched (memRead_ne_refused _ _) fun n => ?_
  have hcount : Twin b b' (s.tick.setMC n).tick (s'.tick.setMC n).tick := Twin.tick (h.tick.regs _ _)
  exact .ite (hcount.ret _) (hcount.lookUpAndReplay c index)

theorem Twin.applyMode (h : Twin b b' s s') (c : Cfg) (index : W32) :
    SameEnd b b' (applyMode c index s) (applyMode c index s') := by
  have hindex : Twin b b' (s.tick.setMI index).tick (s'.tick.setMI index).tick := Twin.tick (h.tick.regs _ _)
  unfold Machine.applyMode
  simp only [hindex.fw]
  cases (s.tick.setMI index).tick.fw with
  | none => exact hindex.ret _
  | some m => exact hindex.countAndReplay c index

/-! ### The mode state and the host events -/

theorem Twin.modeGet (h : Twin b b' s s') : SameEnd b b' (.next (modeGet s)) (.next (modeGet s')) := by
  unfold Machine.modeGet
  rw [h.tick.modeSel]
  exact h.tick.ret _

theorem Twin.withSel (h : Twin b b' s s') (v : W32) : Twin b b' (s.withSel v) (s'.withSel v) :=
  ⟨rfl, h.fw, h.fwl, h.script, h.drawn, h.trace⟩

theorem Twin.modeSet (h : Twin b b' s s') (v : W32) :
    SameEnd b b' (.next (modeSet v s)) (.next (modeSet v s')) := by
  unfold Machine.modeSet
  rw [h.tick.modeSel]
  split
  · exact h.tick.ret _
  · exact (h.tick.tick.withSel v).tick.ret _

theorem Twin.resetPulse (h : Twin b b' s s') (c : Cfg) : Twin b b' (resetPulse c s) (resetPulse c s') :=
  (((h.tick.updateOrReport c.rstReg c.rstMask c.rstAssert).tick.append
    [.dl c.tResetSettle]).tick.updateOrReport c.rstReg c.rstMask c.rstDeassert).tick

theorem Twin.pdWrite (h : Twin b b' s s') (c : Cfg) : Twin b b' (pdWrite c s) (pdWrite c s') := by
  have hwrite := h.tick.write c c.pdAddr c.pdValue
  unfold Machine.pdWrite
  generalize Machine.write c c.pdAddr c.pdValue s.tick = p at hwrite
  generalize Machine.write c c.pdAddr c.pdValue s'.tick = p' at hwrite
  cases hwrite with
  | next r ht => exact (ht.tick.append (reportsOfResult r)).tick

theorem Twin.powerUp (h : Twin b b' s s') (c : Cfg) : SameEnd b b' (powerUp c s) (powerUp c s') := by
  have hpulse := (h.tick.resetPulse c).tick
  unfold Machine.powerUp
  simp only [hpulse.modeSel]
  exact (hpulse.applyMode c _).andThen fun r t t' ht => (ht.tick.append (reportsOfResult r)).tick.ret _

theorem Twin.probeTail (h : Twin b b' s s') (c : Cfg) :
    SameEnd b b' (.next (probeTail c s)) (.next (probeTail c s')) :=
  Twin.ret (((((h.tick.append [.dl c.tProbeSettle]).tick.pdWrite c).tick.updateOrReport c.pwrReg c.pwrMask
    c.pwrOff).tick.append [.fq c.fwName]).tick) _

theorem Twin.probe (h : Twin b b' s s') (c : Cfg) : SameEnd b b' (probe c s) (probe c s') :=
  SameEnd.andThen (Twin.applyMode (((h.tick.updateOrReport c.pwrReg c.pwrMask c.pwrOn).tick.resetPulse c).tick) c _)
    fun _ _ _ ht => ht.probeTail c

/-- Every host operation's body comes to the same end from twins. -/
theorem Twin.opBody (h : Twin b b' s s') (c : Cfg) {i : Instr} (hi : i.isHostRequest = true) :
    SameEnd b b' (opBody c i s) (opBody c i s') := by
  cases i with
  | waitReady => exact h.waitReady c
  | dspWrite a d => exact h.write c a d
  | dspRead r => exact h.read c r
  | applyMode m => exact h.applyMode c m
  | modeGet => exact h.modeGet
  | modeSet v => exact h.modeSet v
  | evPowerUp => exact h.powerUp c
  | evPowerDown => exact (h.tick.pdWrite c).tick.ret _
  | evProbe => exact h.probe c
  | _ => cases hi

end

end Sys2Proof.Machine

open Sys2Proof Sys2Proof.Machine

/-! ## The statements -/

/-- Settles O16: the delivered bytes are the image, in canonical form, and the state is the same otherwise. -/
theorem firmwareIsStoredAsItIs : Obligations.FirmwareIsStoredAsItIs := by
  intro s bytes hf
  exact ⟨Memory.load bytes, exec_fwDeliver_absent bytes hf, Memory.load_wf bytes, Memory.load_size bytes,
    Memory.read_load bytes⟩

/-- Settles O18: of the loader's chances in front of the lines AM.0 and AM.1 either makes the image that AM.1 finds,
and a delivery that neither makes comes nearer by two lines. -/
theorem deliveryIsSeenIffItPrecedesTheTest : Obligations.DeliveryIsSeenIffItPrecedesTheTest := by
  intro s index k bytes hf hl
  refine ⟨?_, fun hs => ⟨fun hk => ?_, fun hk => ?_⟩⟩
  · rintro rfl
    exact (step_due hl).trans (exec_fwDeliver_absent (s := { s with fwl := none }) bytes hf)
  · exact exec_applyMode_congr hs hs (applyMode_of_delivery (s := { s with resp := none }) _ index hf hl hk)
  · obtain ⟨j, rfl⟩ := Nat.exists_eq_add_of_le' hk
    exact exec_applyMode_absent hs (by rw [hf, hl]; rfl)

/-- Settles O21: behind the checks `APPLY_MODE` is its replay, which stays inside the region. -/
theorem replayWritesTheEntriesInOrder : Obligations.ReplayWritesTheEntriesInOrder := by
  intro s t m index n b0 b1 b2 d hs hm hw hn hv hd h0 h1 h2 hin hexec
  obtain ⟨-, p, hp, rfl⟩ := exec_hostRequest_next rfl hexec
  have hpassed : ChecksPassed Config.cfg m index n d b0 b1 b2 := ⟨hn, hv, hd, h0, h1, h2, hin⟩
  obtain ⟨u, hu, hbody⟩ := hpassed.applyMode (s := { s with resp := none }) hm
  obtain ⟨q, hq, k, evs, hran, hwrites⟩ := replay_inside Config.cfg m hw b2.toNat 0#8
    ((bigEndian b0 b1).setWidth 17) u (hu.fw_present hm) (by rw [firstEntry_toNat]; exact hin)
    (by rw [firstEntry_toNat]; omega)
  obtain rfl : q = p := Host.Outcome.next.inj ((hbody.trans hq).symm.trans hp)
  rw [firstEntry_toNat] at hwrites
  obtain ⟨hbegin, hall⟩ := hwrites
  refine ⟨evs, (hu.trans hran).trace, hbegin, fun hresp => ?_⟩
  obtain ⟨x, hx⟩ := respond_eq_respOk (Option.some.inj hresp)
  exact hall x hx

/-- Settles O22: the replay performs one entry after the other, and behind the last one the loop ends. -/
theorem applyModeReplaysEveryEntry : Obligations.ApplyModeReplaysEveryEntry := by
  intro s m index n b0 b1 b2 d qs hs hm hw hn hv hd h0 h1 h2 hin hlen hgood hans
  have hpassed : ChecksPassed Config.cfg m index n d b0 b1 b2 := ⟨hn, hv, hd, h0, h1, h2, hin⟩
  obtain ⟨t, j, ei, ep, hbody, -, hran, -⟩ := hpassed.replay_good (k := 0) (rest := [])
    (s := { s with resp := none }) hm hw hlen.symm hgood (by rwa [List.append_nil])
  exact exec_of_ran (i := .applyMode index) (p := ret (.ok none) t.tick) rfl hs (by simp) hbody (hran.tick.setST _)

/-- Settles O23: whatever fails a check is answered before the first event, and events come from the replay alone. -/
theorem nothingIsWrittenBeforeEveryCheckHasPassed : Obligations.NothingIsWrittenBeforeEveryCheckHasPassed := by
  intro s index hs passed silent
  have hsilent : ∀ {r : Result} {u : State}, Ran { s with resp := none } 0 [] u →
      applyMode Config.cfg index { s with resp := none } = .next (ret r u) → silent (respond r) := by
    intro r u hu hbody
    obtain ⟨t, hexec, htrace, hresp, -⟩ := exec_applyMode_silent hs hbody hu
    exact ⟨t, hexec, hresp, htrace⟩
  refine ⟨fun m n hm hn hlt => ?_, ?_, fun hf hl => ?_, fun t hexec hne => ?_⟩
  · obtain ⟨u, hu, hbody⟩ := applyMode_count Config.cfg index (s := { s with resp := none }) hm hn
    exact hsilent hu (hbody.trans (if_pos hlt))
  · rintro m n d b0 b1 b2 hm ⟨hn, hv, hd, h0, h1, h2⟩ hout
    obtain ⟨u, hu, hbody⟩ := applyMode_desc (s := { s with resp := none }) hm hn hv hd h0 h1 h2
    rw [← regionEnd_bigEndian] at hout
    exact hsilent hu.tick (hbody.trans (checkAndReplay_outside _ (hu.fw_present hm) hout))
  · obtain ⟨t, hexec, htrace, hresp, -⟩ := exec_applyMode_absent (d := none) hs (by rw [hf, hl]; rfl)
    exact ⟨t, hexec, hresp, htrace⟩
  · obtain ⟨-, p, hp, rfl⟩ := exec_hostRequest_next rfl hexec
    rcases applyMode_next hp with htrace | ⟨m, n, d, b0, b1, b2, hm, h⟩
    · exact absurd htrace hne
    · exact ⟨m, n, d, b0, b1, b2, hm, ⟨h.count, h.valid, h.desc, h.high, h.low, h.entries⟩, h.inside⟩

/-- Settles O24: the write run alone ends as it does in the replay, which performs the entries in front of it. -/
theorem aReplayStopsAtTheFirstFailedEntry : Obligations.AReplayStopsAtTheFirstFailedEntry := by
  intro s u v m index n b0 b1 b2 c0 c1 c2 c3 d qs ans evs p e hs hm hw hn hv hd h0 h1 h2 hin hlt hgood
    g0 g1 g2 g3 hu hexec hans htrace hlen hresp hne hall
  have hpassed : ChecksPassed Config.cfg m index n d b0 b1 b2 := ⟨hn, hv, hd, h0, h1, h2, hin⟩
  obtain ⟨x, hw', hx⟩ := writeEnd_of_exec hu hexec hans htrace hlen hresp hne
  obtain ⟨k, hk⟩ : ∃ k, b2.toNat = qs.length + (k + 1) := ⟨b2.toNat - qs.length - 1, by omega⟩
  obtain ⟨t, j, ei, ep, hbody, hep, hran, hrest⟩ := hpassed.replay_good (s := { s with resp := none })
    hm hw hk hgood hall
  rw [← hep] at g0 g1 g2 g3
  obtain ⟨t', hend, hran'⟩ := replay_failed k ei (hran.fw_present hm) (fetchEntry_some g0 g1 g2 g3) hw' hrest
  rw [hx, List.append_assoc]
  exact exec_of_ran (i := .applyMode index) (p := (.err x, t')) rfl hs (by simp) (hbody.trans hend) (hran.trans hran')

/-- Settles O25: an entry's write ends by one row of the abort table, or succeeds. -/
theorem writeEntryPerformsOneDspWrite : Obligations.WriteEntryPerformsOneDspWrite := by
  intro s a d pad
  refine ⟨fun _ => rfl, exec_wr_elsewhere a d pad, fun op stack hs => exec_wr_noEP a d pad hs,
    fun op stack ep hs hep => ⟨fun hei => ?_, fun x y z l v hn hl hv hans => ?_, ?_⟩⟩
  · obtain ⟨ei, hei⟩ := Option.ne_none_iff_exists'.mp hei
    exact exec_wr_completes a d pad hs hep hei
  · have hw : WriteEnd Config.cfg a d _ (.ok none) _ :=
      .waited x y z _ _ (.idle l v hl (Nat.lt_succ_of_le hn) hv)
    refine ⟨fun hei => exec_wr_noEI pad hs hep hei hw hans, fun ei hei => ?_⟩
    rw [List.append_assoc]
    exact exec_wr_advances pad hs hep hei hw hans
  · intro fails
    refine ⟨fun e => exec_wr_returns pad hs hep (.address e), fun x e => exec_wr_returns pad hs hep (.data x e),
      fun x y e => exec_wr_returns pad hs hep (.command x y e),
      fun x y z l hl => ⟨fun e hn => ?_, fun hn => ?_⟩⟩
    · exact exec_wr_returns pad hs hep (.waited x y z _ _ (.failed l e hl (Nat.lt_succ_of_le hn)))
    · exact exec_wr_returns pad hs hep (.waited x y z _ _ (.exhausted l hl hn))

/-- Settles O40: the two machines are twins when the request is taken, and so when the operation ends. -/
theorem operationsKeepNothingFromEarlierOnes : Obligations.OperationsKeepNothingFromEarlierOnes := by
  intro s s' i hi hs hs' hsel hfw hfwl hscript hdrawn
  have htwin : Twin s.trace s'.trace { s with resp := none } { s' with resp := none } :=
    ⟨hsel, hfw, hfwl, hscript, hdrawn, [], (List.append_nil _).symm, (List.append_nil _).symm⟩
  have hend := htwin.opBody Config.cfg hi
  rw [exec_hostRequest i s hi, exec_hostRequest i s' hi, hostOp_idle _ s hs, hostOp_idle _ s' hs']
  generalize opBody Config.cfg i { s with resp := none } = x at hend
  generalize opBody Config.cfg i { s' with resp := none } = x' at hend
  cases hend with
  | next r ht =>
    obtain ⟨evs, htrace, htrace'⟩ := ht.trace
    exact ⟨_, evs, rfl, htrace, htrace', rfl, ht.modeSel, ht.fw, rfl⟩
  | fault f => rfl

/-- Settles O51: the bounds that the invariant keeps hold every byte that the line fetches. -/
theorem entryFetchesNeverFault : Obligations.EntryFetchesNeverFault := by
  intro s op stack hinv hs
  exact seqStep_fetchEntry hinv hs

/-- Settles O17: the delivery is refused, and one that is due is the step. -/
theorem aSecondDeliveryIsRefused : Obligations.ASecondDeliveryIsRefused := by
  intro s bytes hf
  exact ⟨exec_fwDeliver_present bytes hf,
    fun hl => (step_due hl).trans (exec_fwDeliver_present (s := { s with fwl := none }) bytes hf)⟩

/-- Settles O20: without a delivery to come the test of AM.1 finds no image. -/
theorem applyModeWithoutFirmware : Obligations.ApplyModeWithoutFirmware := by
  intro s index hs hf hl
  obtain ⟨t, hexec, htrace, hresp, hfw, -, hframe⟩ := exec_applyMode_absent (d := none) hs (by rw [hf, hl]; rfl)
  exact ⟨t, hexec, htrace, hresp, hfw, hframe⟩
end

section
/-! SUPPORT and PROOFS. The mode state's and the host events' statements (spec/42_mode_state_events.md): the
selection (R191, R192), and the three host events with their sub-procedures (R190, R195 to R205). -/

namespace Sys2Proof.Machine

/-! ## Outcomes, answers and what was left alone -/

section

variable {s s' t : State} {n : Nat} {evs : List Event}

theorem andThen_assoc {α β γ : Type} (x : Out α) (k : α → Out β) (k' : β → Out γ) :
    andThen (andThen x k) k' = andThen x fun a => andThen (k a) k' := by
  cases x <;> rfl

theorem State.answer_congr (hscript : s'.script = s.script) (hdrawn : s'.drawn = s.drawn) :
    s'.answer = s.answer := by
  simp only [State.answer, hscript, hdrawn]

theorem reportsOfAnswer_eq_match (a : Answer) :
    reportsOfAnswer a = match a.err? with | some e => [Event.rp (.io e)] | none => [] := by
  cases a <;> rfl

theorem State.updateOrReport_withResp (s : State) (a : RegAddr) (m v : W32) (r : Option Response) :
    (s.withResp r).updateOrReport a m v = (s.updateOrReport a m v).withResp r := rfl

/-- What appends no event leaves the trace. -/
theorem Ran.trace_eq (h : Ran s n [] t) : t.trace = s.trace := by
  rw [h.trace, List.append_nil]

/-- What asks the device nothing draws no answer. -/
theorem Ran.drawn_eq (h : Ran s 0 evs t) : t.drawn = s.drawn := by
  rw [h.drawn, Nat.zero_sub, Nat.add_zero]

/-- Without an image and without a delivery to come, no operation finds or leaves an image. -/
theorem OpFrame.fw_none (h : OpFrame s t) (hf : s.fw = none) (hl : s.fwl = none) : t.fw = none := by
  rcases h.image with hfw | ⟨-, -, d, hd, -⟩
  · exact hfw.trans hf
  · cases hl.symm.trans hd

end

/-! ## Host operations taken by an idle sequencer -/

section

variable {s t : State} {i : Instr}

/-- A host operation taken by an idle sequencer is its body, finished. -/
theorem exec_idle (hi : i.isHostRequest = true) (hs : s.seq = .idle) :
    exec i s = andThen (opBody Config.cfg i (s.withResp none)) fun p => .next (finish p.1 p.2) :=
  (exec_hostRequest i s hi).trans (hostOp_idle _ s hs)

/-- The frame of every host operation but `MODE_SET`. -/
theorem exec_opFrame (hi : i.isHostRequest = true) (hv : ∀ v, i ≠ .modeSet v) (h : exec i s = .next t) :
    OpFrame s t := by
  obtain ⟨-, p, hp, rfl⟩ := exec_hostRequest_next hi h
  exact opBody_frame s i p hv hp

/-- A host event comes to `Ok`, whatever happened in it (R190). -/
theorem exec_hostEvent_resp (hi : i = .evPowerUp ∨ i = .evPowerDown ∨ i = .evProbe) (h : exec i s = .next t) :
    t.resp = some respOk := by
  obtain ⟨-, p, hp, rfl⟩ := exec_hostRequest_next (by rcases hi with rfl | rfl | rfl <;> rfl) h
  have hok : p.1 = .ok none := by
    rcases hi with rfl | rfl | rfl
    · exact (powerUp_next _ _ p hp).1
    · cases hp; rfl
    · exact (probe_next _ _ p hp).1
  rw [← respond_ok_none, ← hok]
  rfl

end

/-! ## `MODE_GET` and `MODE_SET` -/

section

variable {s : State}

theorem exec_modeGet_idle (hs : s.seq = .idle) :
    exec .modeGet s = .next (finish (.ok (some s.modeSel)) (s.withResp none).tick) := by
  rw [exec_idle rfl hs, opBody, modeGet, State.tick_modeSel]
  rfl

/-- `MODE_SET` is the loader's chance in front of its lines, with the new selection; an equal value is no other case. -/
theorem exec_modeSet_ran (v : W32) (hs : s.seq = .idle) :
    ∃ u, exec (.modeSet v) s = .next (finish (.ok none) u) ∧ Ran ((s.withSel v).withResp none) 0 [] u := by
  refine ⟨_, ?_, modeSet_ran v (s.withResp none)⟩
  have hok : (modeSet v (s.withResp none)).1 = .ok none := by
    unfold modeSet
    split <;> rfl
  rw [exec_idle rfl hs, ← hok]
  rfl

end

/-! ## The power-down write -/

section

variable {c : Cfg} {s s' s0 : State} {n : Nat} {e evs : List Event} {l rest : List Answer} {r : Result}

/-- The power-down write on known answers: a DSP write, and the report of its error (R196). -/
theorem pdWrite_of (hr : Ran s0 n e s) (hw : WriteEnd c c.pdAddr c.pdValue l r evs) (h : s.willAnswer (l ++ rest)) :
    Ran s0 (n + l.length) (e ++ (evs ++ reportsOfResult r)) (pdWrite c s) ∧ (pdWrite c s).willAnswer rest := by
  obtain ⟨hres, hwrite⟩ := write_of hw (willAnswer_tick.mpr (willAnswer_left h))
  have hpd : Ran s l.length (evs ++ reportsOfResult r) (pdWrite c s) :=
    hres ▸ ((hwrite.tick.reportIf _).tick).of_tick
  exact ⟨hr.trans hpd, ((hpd.willAnswer_append l rest rfl).mp h).2⟩

/-- The power-down write depends on the device's answers alone. -/
theorem pdWrite_agree (hscript : s'.script = s.script) (hdrawn : s'.drawn = s.drawn) (htrace : s'.trace = s.trace) :
    (pdWrite c s').script = (pdWrite c s).script ∧ (pdWrite c s').drawn = (pdWrite c s).drawn ∧
      (pdWrite c s').trace = (pdWrite c s).trace := by
  obtain ⟨l, evs, hw, hl, -⟩ := write_ran c c.pdAddr c.pdValue (Ran.refl s)
  rw [← List.append_nil l] at hl
  have hpd := (pdWrite_of (Ran.refl s) hw hl).1
  have hpd' := (pdWrite_of (Ran.refl s') hw ((State.willAnswer_congr _ hscript hdrawn).mpr hl)).1
  exact hpd.agree hpd' hscript hdrawn htrace

end

theorem exec_evPowerDown_idle {s : State} (hs : s.seq = .idle) :
    exec .evPowerDown s = .next (finish (.ok none) (pdWrite Config.cfg (s.withResp none).tick).tick) :=
  exec_idle (i := .evPowerDown) rfl hs

/-! ## A mode applied behind the reset pulse -/

section

variable {s : State} {index : W32}

theorem exec_applyMode_idle (hs : s.seq = .idle) :
    exec (.applyMode index) s =
      andThen (applyMode Config.cfg index (s.withResp none)) fun p => .next (finish p.1 p.2) :=
  exec_idle (i := .applyMode index) rfl hs

/-- Without an image and without a delivery to come, `apply_mode` fails before its first event. -/
theorem applyMode_noLoader (c : Cfg) (index : W32) (hf : s.fw = none) (hl : s.fwl = none) :
    ∃ t, applyMode c index s = .next (.err .noFirmware, t) ∧ Ran s 0 [] t :=
  have hran := Ran.toCount s index
  ⟨_, applyMode_absent c index (hran.noLoader hf hl).1, hran.setST _⟩

/-- A call of the reset pulse, as a caller sees it. -/
theorem resetPulse_call_ran (c : Cfg) (s : State) : ∃ n evs, Ran s n evs (resetPulse c s.tick).tick := by
  obtain ⟨n, evs, h, -⟩ := resetPulse_span c s.tick
  exact ⟨n, evs, h.of_tick.tick⟩

theorem resetPulse_call_withResp (c : Cfg) (s : State) (r : Option Response) :
    (resetPulse c (s.withResp r).tick).tick = ((resetPulse c s.tick).tick).withResp r := by
  rw [State.tick_withResp, resetPulse_withResp, State.tick_withResp]

/-- `EV_POWER_UP` applies the selection to the state behind the pulse, and reports its error (R201). -/
theorem exec_evPowerUp_idle (hs : s.seq = .idle) :
    exec .evPowerUp s =
      andThen (applyMode Config.cfg s.modeSel ((resetPulse Config.cfg s.tick).tick.withResp none)) fun q =>
        .next (finish (.ok none) (q.2.tick.reportIf q.1).tick) := by
  obtain ⟨_, _, hpulse⟩ := resetPulse_call_ran Config.cfg (s.withResp none)
  rw [exec_idle rfl hs, opBody, powerUp, hpulse.modeSel, resetPulse_call_withResp, andThen_assoc]
  rfl

/-- `EV_PROBE` applies mode 0 to the state behind the power-domain bit and the pulse, and drops its result (R205). -/
theorem exec_evProbe_idle (hs : s.seq = .idle) :
    exec .evProbe s =
      andThen (applyMode Config.cfg 0#32 ((resetPulse Config.cfg (s.tick.updateOrReport Config.cfg.pwrReg
        Config.cfg.pwrMask Config.cfg.pwrOn).tick).tick.withResp none)) fun q =>
        .next (finish (.ok none) (probeTail Config.cfg q.2).2) := by
  rw [exec_idle rfl hs, opBody, probe, State.tick_withResp, State.updateOrReport_withResp,
    resetPulse_call_withResp, andThen_assoc]
  rfl

end

/-! ## The end of the probe -/

section

variable {c : Cfg} {s s' s0 : State} {n : Nat} {e evs : List Event} {l rest : List Answer} {r : Result}

/-- Behind its power-down write, which may be told by one from a state that has seen the same, the probe clears the
power-domain bit and requests the firmware. -/
theorem probeTail_trace (hscript : s'.script = s.script) (hdrawn : s'.drawn = s.drawn)
    (htrace : s'.trace = s.trace ++ [.dl c.tProbeSettle]) :
    (probeTail c s).2.trace = (pdWrite c s').tick.trace ++
      ([.tu c.pwrReg c.pwrMask c.pwrOff (pdWrite c s').tick.answer.err?] ++
        reportsOfAnswer (pdWrite c s').tick.answer ++ [.fq c.fwName]) := by
  obtain ⟨hpscript, hpdrawn, hptrace⟩ := pdWrite_agree (c := c) (s := (s.tick.emit (.dl c.tProbeSettle)).tick)
    (s' := s') (by simpa using hscript) (by simpa using hdrawn) (by simpa using htrace)
  rw [State.tick_answer, State.tick_trace, State.answer_congr hpscript hpdrawn, hptrace]
  simp [probeTail, ret]

/-- The end of the probe on known answers. -/
theorem probeTail_of {x : Answer} (hr : Ran s0 n e s) (hw : WriteEnd c c.pdAddr c.pdValue l r evs)
    (h : s.willAnswer (l ++ [x])) :
    Ran s0 (n + l.length + 1) (e ++ [.dl c.tProbeSettle] ++ (evs ++ reportsOfResult r) ++
      ([.tu c.pwrReg c.pwrMask c.pwrOff x.err?] ++ reportsOfAnswer x) ++ [.fq c.fwName]) (probeTail c s).2 := by
  have hsettle := (hr.tick.emit (.dl c.tProbeSettle)).tick
  have hans : (s.tick.emit (.dl c.tProbeSettle)).tick.willAnswer (l ++ [x]) :=
    willAnswer_tick.mpr (willAnswer_tick.mpr h)
  obtain ⟨hpd, hans⟩ := pdWrite_of hsettle hw hans
  obtain ⟨hbit, -⟩ := updateOrReport_of c (a := c.pwrReg) (m := c.pwrMask) (v := c.pwrOff) hpd.tick
    (willAnswer_tick.mpr hans)
  exact ((hbit.tick.emit (.fq c.fwName)).tick).setST (.ok none)

/-- The probe without an image and without a delivery to come, on known answers (R205). -/
theorem probe_noLoader {x y z w : Answer} (hf : s.fw = none) (hl : s.fwl = none)
    (hw : WriteEnd c c.pdAddr c.pdValue l r evs) (h : s.willAnswer (x :: y :: z :: (l ++ [w]))) :
    ∃ n t, probe c s = .next (.ok none, t) ∧ Ran s n
      ([.tu c.pwrReg c.pwrMask c.pwrOn x.err?] ++ reportsOfAnswer x ++
        ([.tu c.rstReg c.rstMask c.rstAssert y.err?] ++ reportsOfAnswer y ++ [.dl c.tResetSettle] ++
          [.tu c.rstReg c.rstMask c.rstDeassert z.err?] ++ reportsOfAnswer z) ++
        [.dl c.tProbeSettle] ++ (evs ++ reportsOfResult r) ++
        ([.tu c.pwrReg c.pwrMask c.pwrOff w.err?] ++ reportsOfAnswer w) ++ [.fq c.fwName]) t := by
  obtain ⟨hbit, hans⟩ := updateOrReport_of c (a := c.pwrReg) (m := c.pwrMask) (v := c.pwrOn) (Ran.refl s).tick
    (willAnswer_tick.mpr h)
  obtain ⟨hpulse, hans⟩ := resetPulse_of c hbit.tick (willAnswer_tick.mpr hans)
  obtain ⟨hfw, hfwl⟩ := hpulse.tick.noLoader hf hl
  obtain ⟨u, happly, hu⟩ := applyMode_noLoader c 0#32 hfw hfwl
  have hans : u.willAnswer (l ++ [w]) := ((hu.willAnswer_append [] _ rfl).mp (willAnswer_tick.mpr hans)).2
  have htail := probeTail_of (hpulse.tick.trans hu) hw hans
  rw [List.nil_append, List.append_nil] at htail
  refine ⟨_, _, ?_, htail⟩
  rw [probe, happly]
  rfl

end

end Sys2Proof.Machine

open Sys2Proof Sys2Proof.Machine

/-! ## The statements -/

/-- Settles O31: the body of `MODE_GET` is the loader's chance in front of its line and the selection. -/
theorem modeGetReturnsTheSelection : Obligations.ModeGetReturnsTheSelection := by
  intro s hs
  have hexec := exec_modeGet_idle hs
  exact ⟨decodeRequest_of_encode (c := Config.cfg) rfl, _, hexec, rfl, State.tick_trace _, State.tick_script _,
    State.tick_drawn _, exec_opFrame rfl (by simp) hexec⟩

/-- Settles O32: the operation runs as from a state that holds the value already, and a `MODE_GET` finds it. -/
theorem modeSetStoresAnyValueWithoutTraffic : Obligations.ModeSetStoresAnyValueWithoutTraffic := by
  intro s v hs
  obtain ⟨u, hexec, hu⟩ := exec_modeSet_ran v hs
  refine ⟨decodeRequest_of_encode (c := Config.cfg) rfl, _, _, hexec, exec_modeGet_idle rfl, ?_, hu.modeSel, rfl,
    hu.trace_eq, hu.script, hu.drawn_eq, hu.imageKept, rfl, rfl, hu.requests, hu.grain⟩
  exact congrArg (fun x => some (respVal x)) hu.modeSel

/-- Settles O34: the event's write has the answers that the host's would have, so it ends alike. -/
theorem powerDownWritesTheParameterAndReports : Obligations.PowerDownWritesTheParameterAndReports := by
  intro s hs
  have hdown := exec_evPowerDown_idle hs
  obtain ⟨l, evs, hw, hl, hwrite⟩ :=
    write_ran Config.cfg Config.cfg.pdAddr Config.cfg.pdValue (Ran.refl (s.withResp none))
  rw [← List.append_nil l] at hl
  have hpd := (pdWrite_of (Ran.refl (s.withResp none)).tick hw (willAnswer_tick.mpr hl)).1.tick
  have htrace : (pdWrite Config.cfg (s.withResp none).tick).tick.trace =
      (write Config.cfg Config.cfg.pdAddr Config.cfg.pdValue (s.withResp none)).2.trace ++
        reportOf (respond (write Config.cfg Config.cfg.pdAddr Config.cfg.pdValue (s.withResp none)).1) := by
    rw [hpd.trace, hwrite.trace, reportOf_respond]
    simp
  exact ⟨decodeRequest_of_encode (c := Config.cfg) rfl, _, _, _, hdown, exec_of_body rfl hs rfl, rfl, htrace, rfl,
    hpd.script.trans hwrite.script.symm, hpd.drawn.trans hwrite.drawn.symm, exec_opFrame rfl (by simp) hdown⟩

/-- Settles O36: behind the pulse the selection is applied to the state in which `APPLY_MODE` runs alone. -/
theorem powerUpAppliesTheSelectedMode : Obligations.PowerUpAppliesTheSelectedMode := by
  intro s hs
  obtain ⟨_, _, hpulse⟩ := resetPulse_call_ran Config.cfg s
  have hup := exec_evPowerUp_idle hs
  rw [exec_applyMode_idle (hpulse.seq.trans hs)]
  generalize happly : applyMode Config.cfg s.modeSel _ = x at hup ⊢
  cases x with
  | next q =>
    refine ⟨_, _, hup, rfl, ?_, rfl, exec_opFrame rfl (by simp) hup⟩
    simp [finish]
  | fault f => exact hup
  | refused r => exact applyMode_ne_refused _ _ _ r happly

/-- Settles O35: behind the pulse an `APPLY_MODE` fails at once with `NoFirmware`. -/
theorem powerUpWithoutFirmwarePulsesAndReports : Obligations.PowerUpWithoutFirmwarePulsesAndReports := by
  intro s x y hs hf hl hans
  have hpulse := (resetPulse_of Config.cfg (Ran.refl s).tick (willAnswer_tick.mpr hans)).1.tick
  obtain ⟨hfw, hfwl⟩ := hpulse.noLoader hf hl
  obtain ⟨u, happly, hutrace, huresp, -⟩ := exec_applyMode_absent (index := s.modeSel) (d := none)
    (hpulse.seq.trans hs) (by rw [hfw, hfwl]; rfl)
  have hup := powerUpAppliesTheSelectedMode s hs
  rw [happly] at hup
  obtain ⟨t, p, hexec, hp, htrace, hresp, hframe⟩ := hup
  cases huresp.symm.trans hp
  rw [hutrace, hpulse.trace, reportsOfAnswer_eq_match, reportsOfAnswer_eq_match, List.nil_append,
    List.append_assoc] at htrace
  exact ⟨t, hexec, htrace, hresp, hframe⟩

/-- Settles O37: the mode is applied to the state in which `APPLY_MODE` runs alone, and the power-down write behind
it sees what the event alone would see. -/
theorem probeRunsItsSequenceAndDropsTheResult : Obligations.ProbeRunsItsSequenceAndDropsTheResult := by
  intro s hs s1
  obtain ⟨_, _, hpulse⟩ := resetPulse_call_ran Config.cfg s1
  have hs1 : s1.seq = .idle := (State.tick_seq s).trans hs
  have hprobe := exec_evProbe_idle hs
  rw [exec_applyMode_idle (hpulse.seq.trans hs1)]
  generalize happly : applyMode Config.cfg 0#32 _ = x at hprobe ⊢
  cases x with
  | next q =>
    have htail := probeTail_trace (c := Config.cfg) (s := q.2)
      (s' := (((finish q.1 q.2).emit (.dl Config.cfg.tProbeSettle)).withResp none).tick)
      (State.tick_script _) (State.tick_drawn _) (State.tick_trace _)
    rw [reportsOfAnswer_eq_match] at htail
    exact ⟨_, _, exec_evPowerDown_idle rfl, hprobe, htail, rfl, exec_opFrame rfl (by simp) hprobe⟩
  | fault f => exact hprobe
  | refused r => exact applyMode_ne_refused _ _ _ r happly

/-- Settles O38: no access fails and the first status read is idle, so nothing is reported. -/
theorem probeWithoutFirmwareOnAnIdealDevice : Obligations.ProbeWithoutFirmwareOnAnIdealDevice := by
  intro s x0 x1 x2 x3 x4 x5 v x6 hs hf hl hv hans
  have hw : WriteEnd Config.cfg Config.cfg.pdAddr Config.cfg.pdValue _ (.ok none) _ :=
    .waited x3 x4 x5 _ _ (.idle [] v (by simp) (by simp) hv)
  obtain ⟨n, u, hprobe, hran⟩ := probe_noLoader (s := s.withResp none) hf hl hw hans
  obtain ⟨t, hexec, htrace, hresp, hframe⟩ := exec_of_ran (i := .evProbe) rfl hs (by simp) hprobe hran
  exact ⟨t, hexec, htrace, hresp, hframe.fw_none hf hl, hframe⟩

/-- Settles O39: the body of each host event comes to `Ok`. -/
theorem hostEventsAlwaysAnswerOk : Obligations.HostEventsAlwaysAnswerOk :=
  fun _ _ _ => exec_hostEvent_resp
end

section
/-! SUPPORT and PROOFS. The statements about exceptions (spec/60_exceptions.md): what every host operation but
`MODE_SET` leaves unchanged, the precise abort (R233), and the refusal of a request while the sequencer runs
(R232). -/

namespace Sys2Proof.Machine

variable {c : Cfg} {s : State} {i : Instr} {p : Result × State}

/-- The operations that return their errors (R235) leave a clean trail: a failed call ends it, and its error is
the result. -/
theorem opBody_trail (hi : i = .waitReady ∨ (∃ a d, i = .dspWrite a d) ∨ (∃ r, i = .dspRead r) ∨
    ∃ m, i = .applyMode m) (h : opBody c i s = .next p) : Trail c (eventBound i) s p := by
  rcases hi with rfl | ⟨a, d, rfl⟩ | ⟨r, rfl⟩ | ⟨m, rfl⟩
  · cases h; exact waitReady_trail c s
  · cases h; exact write_trail c a d s
  · cases h; exact read_trail c r s
  · exact applyMode_trail c m s p h

/-- A finished procedure's response is the transport's error exactly when its result is. -/
theorem finish_resp_eq_respIo_iff (r : Result) (e : IoErr) :
    (finish r s).resp = some (respIo e) ↔ r = .err (.io e) :=
  Option.some_inj.trans (respond_eq_respIo r e)

/-- Decision D14: the request of a host operation is refused while another runs. -/
theorem exec_running {op : Instr} {upc : Label} {stack : List Label} (hi : i.isHostRequest = true)
    (hs : s.seq = .running op upc stack) : exec i s = .refused .requestWhileRunning :=
  (exec_hostRequest i s hi).trans (hostOp_running _ s hs)

end Sys2Proof.Machine

open Sys2Proof Sys2Proof.Machine

/-! ## The statements -/

/-- Settles O14: the body of each of the eight operations only ticks, calls, appends and writes registers, and
its end empties them. -/
theorem operationsKeepSelectionAndImage : Obligations.OperationsKeepSelectionAndImage :=
  fun _ _ _ hi hv h => exec_opFrame hi hv h

/-- Settles O15: the trail of the operation's body is clean, and the response tells its result. -/
theorem aFailedCallIsTheLastEventAndTheResponse : Obligations.AFailedCallIsTheLastEventAndTheResponse := by
  intro s t i hi h
  have hreq : i.isHostRequest = true := by
    rcases hi with rfl | ⟨_, _, rfl⟩ | ⟨_, rfl⟩ | ⟨_, rfl⟩ <;> rfl
  obtain ⟨-, p, hp, rfl⟩ := exec_hostRequest_next hreq h
  obtain ⟨_, evs, hran, -, -, hfront, hlast⟩ := opBody_trail hi hp
  exact ⟨evs, hran.trace, hfront, fun e => (finish_resp_eq_respIo_iff p.1 e).trans (hlast e)⟩

/-- Settles O41: whatever line the sequencer is at and whatever it holds. -/
theorem requestsAreRefusedWhileRunning : Obligations.RequestsAreRefusedWhileRunning :=
  fun _ _ _ _ _ hi hs => exec_running hi hs
end

section
/-! SUPPORT and PROOFS. The statements about reset and hazards (spec/70_reset_and_hazards.md): the operations that
always complete (R263), the bounds on events (R277), and what reset leaves (R260). -/

namespace Sys2Proof.Machine

/-! ## Operations that fetch nothing -/

/-- The body of an operation that applies no mode fetches no byte of the image, so nothing in it faults. -/
theorem opBody_answers {i : Instr} (c : Cfg) (s : State)
    (hi : i = .waitReady ∨ (∃ a d, i = .dspWrite a d) ∨ (∃ r, i = .dspRead r) ∨ i = .evPowerDown ∨ i = .modeGet) :
    ∃ p, opBody c i s = .next p := by
  rcases hi with rfl | ⟨a, d, rfl⟩ | ⟨r, rfl⟩ | rfl | rfl
  · exact ⟨waitReady c s, rfl⟩
  · exact ⟨write c a d s, rfl⟩
  · exact ⟨read c r s, rfl⟩
  · exact ⟨powerDown c s, rfl⟩
  · exact ⟨modeGet s, rfl⟩

/-! ## The events of one instruction -/

section

variable {s t : State} {i : Instr} {evs : List Event} {n : Nat}

/-- From `s` to `t` at most `n` events were appended. -/
def AppendsAtMost (n : Nat) (s t : State) : Prop :=
  ∃ evs, t.trace = s.trace ++ evs ∧ evs.length ≤ n

theorem Moved.appendsAtMost (h : Moved s evs t) (hn : evs.length ≤ n) : AppendsAtMost n s t :=
  ⟨evs, h.trace, hn⟩

/-- A host operation makes the events of its body; `MODE_SET` makes none. -/
theorem exec_hostRequest_events (hi : i.isHostRequest = true) (h : exec i s = .next t) :
    AppendsAtMost (eventBound i) s t := by
  obtain ⟨-, p, hp, rfl⟩ := exec_hostRequest_next hi h
  by_cases hv : ∃ v, i = .modeSet v
  · obtain ⟨v, rfl⟩ := hv
    cases hp
    exact ⟨[], (modeSet_ran v { s with resp := none }).trace, Nat.le_refl 0⟩
  · obtain ⟨_, evs, hran, hlen, -⟩ := opBody_span _ _ _ _ (fun v h => hv ⟨v, h⟩) hp
    exact ⟨evs, hran.trace, hlen⟩

/-- A count byte is taken without an event. -/
theorem exec_hdr_events {x : Byte} (h : exec (.hdr x) s = .next t) : AppendsAtMost 0 s t := by
  by_cases hs : ∃ op stack, s.seq = .running op (.am .l2) stack
  · obtain ⟨op, stack, hs⟩ := hs
    cases (exec_hdr_at x hs).symm.trans h
    exact (((Ran.refl s).tick.setMC x).goto op stack (.am .l3)).appendsAtMost (Nat.le_refl 0)
  · cases (exec_hdr_elsewhere x fun op stack h => hs ⟨op, stack, h⟩).symm.trans h

/-- A descriptor is taken without an event. -/
theorem exec_desc_events {p : W16} {x : Byte} (h : exec (.desc p x) s = .next t) : AppendsAtMost 0 s t := by
  by_cases hs : ∃ op stack, s.seq = .running op (.am .l5) stack
  · obtain ⟨op, stack, hs⟩ := hs
    cases (exec_desc_at p x hs).symm.trans h
    exact (((Ran.refl s).tick.setDesc p x).goto op stack (.am .l6)).appendsAtMost (Nat.le_refl 0)
  · cases (exec_desc_elsewhere p x fun op stack h => hs ⟨op, stack, h⟩).symm.trans h

/-- A delivery makes no event. -/
theorem exec_fwDeliver_events {bytes : List Byte} (h : exec (.fwDeliver bytes) s = .next t) :
    AppendsAtMost 0 s t := by
  by_cases hf : s.fw = none
  · cases (exec_fwDeliver_absent bytes hf).symm.trans h
    exact ⟨[], (List.append_nil _).symm, Nat.le_refl 0⟩
  · cases (exec_fwDeliver_present bytes hf).symm.trans h

/-- A command word that answers a next state stood at its line. -/
theorem exec_commandWord_next (hi : i = .cwMw ∨ i = .cwMr ∨ i = .cwRr) (h : exec i s = .next t) :
    ∃ w l l' op stack, writesCommand Config.cfg i w l l' ∧ s.seq = .running op l stack := by
  rcases hi with rfl | rfl | rfl
  · rw [exec, execCwMw] at h
    split at h
    · exact ⟨_, _, _, _, _, .inl ⟨rfl, rfl, rfl, rfl⟩, ‹_›⟩
    · cases h
  · rw [exec, execCwMr] at h
    split at h
    · exact ⟨_, _, _, _, _, .inr (.inl ⟨rfl, rfl, rfl, rfl⟩), ‹_›⟩
    · cases h
  · rw [exec, execCwRr] at h
    split at h
    · exact ⟨_, _, _, _, _, .inr (.inr (.inl ⟨rfl, rfl, rfl, rfl⟩)), ‹_›⟩
    · exact ⟨_, _, _, _, _, .inr (.inr (.inr ⟨rfl, rfl, rfl, rfl⟩)), ‹_›⟩
    · cases h

/-- A command word is one write to the command register. -/
theorem exec_commandWord_events (hi : i = .cwMw ∨ i = .cwMr ∨ i = .cwRr) (h : exec i s = .next t) :
    AppendsAtMost 1 s t := by
  obtain ⟨w, l, l', op, stack, hrow, hs⟩ := exec_commandWord_next hi h
  cases (exec_commandWord hrow hs).symm.trans h
  exact (writeLine_event op stack _ _ l' s.tick).of_tick.appendsAtMost (Nat.le_refl 1)

/-- No instruction makes more events than its bound. -/
theorem exec_events (h : exec i s = .next t) : AppendsAtMost (eventBound i) s t := by
  by_cases hi : i.isHostRequest = true
  · exact exec_hostRequest_events hi h
  · cases i with
    | wr a d pad =>
      obtain ⟨evs, hmoved, hlen, -⟩ := opWr_moved (c := Config.cfg) h
      exact hmoved.appendsAtMost hlen
    | desc p x => exact exec_desc_events h
    | hdr x => exact exec_hdr_events h
    | cwMw => exact exec_commandWord_events (.inl rfl) h
    | cwMr => exact exec_commandWord_events (.inr (.inl rfl)) h
    | cwRr => exact exec_commandWord_events (.inr (.inr rfl)) h
    | fwDeliver bytes => exact exec_fwDeliver_events h
    | _ => exact absurd rfl hi

end

/-! ## An idle machine -/

section

variable {s : State}

/-- A loader with nothing to deliver does nothing in front of a line. -/
theorem State.tick_noDelivery (h : s.fwl = none) : s.tick = s := by
  simp only [State.tick, h]

theorem State.dueDelivery_noDelivery (h : s.fwl = none) : s.dueDelivery = none := by
  simp only [State.dueDelivery, h]

/-- Without a request an idle sequencer leaves the loader its chance. -/
theorem stepIdle_waiting (h : s.requests = []) : stepIdle s = .next s.tick := by
  simp only [stepIdle, h]

/-- A machine that nobody asks anything stays as it is. -/
theorem step_waiting (hs : s.seq = .idle) (hr : s.requests = []) (hl : s.fwl = none) : step s = .next s := by
  rw [step_idle hs (State.dueDelivery_noDelivery hl), stepIdle_waiting hr, State.tick_noDelivery hl]

end

end Sys2Proof.Machine

open Sys2Proof Sys2Proof.Machine

/-! ## The statements -/

/-- Settles O13: the bodies of these operations fetch nothing, so each answers a result. -/
theorem engineOperationsAlwaysComplete : Obligations.EngineOperationsAlwaysComplete := by
  intro s i hs hi
  obtain ⟨p, hp⟩ := opBody_answers Config.cfg { s with resp := none } hi
  obtain ⟨hreq, hset⟩ : i.isHostRequest = true ∧ ∀ v, i ≠ .modeSet v := by
    rcases hi with rfl | ⟨_, _, rfl⟩ | ⟨_, rfl⟩ | rfl | rfl <;> simp [Instr.isHostRequest]
  exact ⟨_, exec_of_body hreq hs hp, opBody_frame s i p hset hp, _, rfl⟩

/-- Settles O44: a host operation by the trail of its body, a whole entry by that of its write, and the other items
by what their lines do. -/
theorem operationsStayWithinTheirEventBounds : Obligations.OperationsStayWithinTheirEventBounds :=
  fun _ _ _ h => exec_events h

/-- Settles O47: the reset state as it is written, and a step that gives an idle loader its chance. -/
theorem resetLeavesTheStateOfTheSpec : Obligations.ResetLeavesTheStateOfTheSpec :=
  ⟨rfl, rfl, rfl, rfl, rfl, rfl, rfl, rfl, rfl, rfl, rfl, rfl, rfl, rfl, rfl, fun _ => step_waiting⟩
end
